-- ==== Sys2Proof/Word.lean ====
section
/-! DEFINITION. The two word types of SBE-CORE (00_scope R9): a level or bit, and a byte. -/

namespace Sys2Proof

/-- A level of a line or a bit of a byte: `false` is 0 (low, space), `true` is 1 (high, mark) (R9, R12). -/
abbrev Bit := Bool

/-- An 8-bit unsigned value 0..255 (R9). -/
abbrev Byte := BitVec 8

end Sys2Proof
end

