-- ==== Sys2Proof/Syntax.lean ====
section
/-! DEFINITION. The eighteen operations of SBE-CORE (30_encoding R90, opcode_table.json), with the operands of R91. -/

namespace Sys2Proof

/-- `RadioMode`: "enumeration {Configure, Transmit, Receive}" (10_state R41). Only the last two are operands of
`setMode` (R91). -/
inductive RadioMode where
  | configure
  | transmit
  | receive
  deriving DecidableEq, Repr

/-- One constructor per row of the operation list R90, in its order: host operations, the two event handlers and the
internal primitives. The operands of fixed length are lists here, because a call with another length is an event the
spec gives an outcome (20_memory R66, 60 R231 `BadOperand`). -/
inductive Instr where
  | timerArm (d : Nat)
  | timerDisarm
  | transmitByte (value : Byte)
  | timerEvent
  | armReceive
  | edgeEvent
  | pollReceivedByte
  | writeLine (text : List Byte)
  | clockOutBit (b : Bit)
  | clockOutByte (x : Byte)
  | initializeLines
  | configure (configWord : List Byte)
  | setMode (mode : RadioMode)
  | clockInBit
  | clockInByte
  | transmitPacket (buffer : List Byte)
  | hasData
  | receivePacket
  deriving DecidableEq, Repr

/-- The ten host operations, the block's whole boundary (00_scope R5, R13). -/
def Instr.isHostOp : Instr → Bool
  | .transmitByte _ | .armReceive | .pollReceivedByte | .writeLine _ => true
  | .initializeLines | .configure _ | .setMode _ => true
  | .transmitPacket _ | .hasData | .receivePacket => true
  | .timerArm _ | .timerDisarm | .timerEvent | .edgeEvent => false
  | .clockOutBit _ | .clockOutByte _ | .clockInBit | .clockInByte => false

end Sys2Proof
end

