-- ==== Sys2Proof/Config.lean ====
section
/-! DEFINITION. What an implementation fixes (00_scope R8) and the free values the environment supplies (R10, R11).
The open constants of R8 are the fields of `Params`, an argument of the model (it is a field of State that no step
changes); the levels presented by the serial peer and by the front-end, where no list in State gives them, are opaque
functions: nothing in Lean can evaluate them or prove a value of them. So are the calls of a host that never stops calling
(R13). -/

namespace Sys2Proof

/-- The implementation parameters of R8, constant for the life of one block. R8 names them and leaves them OPEN. -/
structure Params where
  /-- `BIT_PERIOD` (T), timer ticks in one serial bit time -/
  bitPeriod : Nat
  /-- `HALF_BIT` (H), ticks from the start-bit edge to the first compare event -/
  halfBit : Nat
  /-- `TX_LEAD` (L), ticks from the arming of a transmit to the first compare event -/
  txLead : Nat
  /-- `TIMER_WIDTH`, bits of the timer counter; `none` is unbounded. No rule reads it: additions do not wrap (40 R115;
  log 22), and `Params.widthSuffices` says when a wrapping timer gives the same events. -/
  timerWidth : Option Nat
  /-- `PAYLOAD_WIDTH` (W), bytes in every packet payload -/
  payloadWidth : Nat
  /-- `NODE_ADDR[0]` (A0) -/
  nodeAddr0 : Byte
  /-- `NODE_ADDR[1]` (A1) -/
  nodeAddr1 : Byte
  /-- `D_CFG_SETUP`, in ticks (R293) -/
  cfgSetup : Nat
  /-- `D_MODE_PRE`, in ticks -/
  modePre : Nat
  /-- `D_MODE_POST`, in ticks -/
  modePost : Nat
  deriving DecidableEq, Repr

/-- The constraints R8 puts on the parameters. -/
abbrev Params.Legal (p : Params) : Prop :=
  2 ≤ p.bitPeriod ∧ 0 < p.halfBit ∧ p.halfBit < p.bitPeriod ∧ 1 ≤ p.txLead ∧ 1 ≤ p.payloadWidth

/-- DESIGN CHOICE (log 1): the parameter values 95_test_vectors.md uses ("arbitrary small values chosen for
readability"), taken by `State.reset` only. -/
def Params.reference : Params where
  bitPeriod := 8
  halfBit := 4
  txLead := 3
  timerWidth := none
  payloadWidth := 6
  nodeAddr0 := 0xA1
  nodeAddr1 := 0xB2
  cfgSetup := 0
  modePre := 0
  modePost := 0

/-- `max(TX_LEAD, HALF_BIT, BIT_PERIOD)`: how far ahead a due time can lie (40 R115). -/
def Params.reach (p : Params) : Nat := max p.txLead (max p.halfBit p.bitPeriod)

/-- The counter is wide enough for its wrap-around never to be seen: 2^`TIMER_WIDTH` exceeds the reach (40 R115). -/
def Params.widthSuffices (p : Params) : Prop := ∀ w, p.timerWidth = some w → p.reach < 2 ^ w

namespace Config

/-- `CONFIG_LEN`: a `RadioConfigWord` has 14 bytes (R8). -/
def configLen : Nat := 14

/-- `DR_ACTIVE` = 1 (R8, the spec's decision D13; log 21). -/
def drActive : Bit := true

/-- `ROLE_BIT_RX` = 1 (R8, the spec's decision D18; log 21). -/
def roleBitRx : Bit := true

/-- `ROLE_BIT_TX` = 0 (R8, the spec's decision D18; log 21). -/
def roleBitTx : Bit := false

/-- FREE VALUE (log 9): the level the peer presents on `RXD` at a tick for which `Env.rxdIn` lists none. -/
opaque freeRxd : Nat → Bit

/-- FREE VALUE (log 9): the answer to the n-th `Sample(DATA)` for which `Env.dataIn` lists none (R247, U15). -/
opaque freeData : Nat → Bit

/-- FREE VALUE (log 9): the answer to the n-th `Sample(DR)` for which `Env.drIn` lists none (R247). -/
opaque freeDr : Nat → Bit

/-- FREE VALUE (log 30): what a host with an infinite call script (R13) does at the n-th of its turns after the listed
script: `some i` calls the operation `i`, `none` lets a tick pass. -/
opaque freeCall : Nat → Option Instr

end Config

end Sys2Proof
end

