-- ==== Sys2Proof/Machine/State.lean ====
section
/-! DEFINITION. The state of one block of SBE-CORE (10_state), as plain data; the ways a step can stop (60 R231); reset
(10_state R44). The fields are grouped as R20 and R45 group them: the serial engine, the radio driver, the main context,
the environment. -/

namespace Sys2Proof.Machine

open Sys2Proof

/-- `Mode` (R30). -/
inductive Mode where
  | tx
  | rx
  deriving DecidableEq, Repr

/-- The direction of a line, seen from the block (R10, R38, R40). -/
inductive Dir where
  | input
  | output
  deriving DecidableEq, Repr

/-- The two execution contexts (60 R241). -/
inductive Context where
  | main
  | interrupt
  deriving DecidableEq, Repr

/-- The lines with an output latch (20_memory R70). -/
inductive OutLine where
  | txd
  | ce
  | cs
  | clk
  | data
  deriving DecidableEq, Repr

/-- The radio lines, whose direction `Dir` sets (42 R173, R175). -/
inductive RadioLine where
  | ce
  | cs
  | clk
  | data
  | dr
  deriving DecidableEq, Repr

/-- The lines `Sample` reads (R35, R38, R39). -/
inductive InLine where
  | rxd
  | data
  | dr
  deriving DecidableEq, Repr

/-- The parameters a `Delay` names (42 R178). -/
inductive DelayParam where
  | cfgSetup
  | modePre
  | modePost
  deriving DecidableEq, Repr

/-- One entry of the line trace (R10, R47): `LINE=v`, `LINE:d`, `LINE?v`, `Delay(P)`. -/
inductive Entry where
  | set (line : OutLine) (v : Bit)
  | dir (line : RadioLine) (d : Dir)
  | sample (line : InLine) (v : Bit)
  | delay (p : DelayParam)
  deriving DecidableEq, Repr

/-- A trace entry stamped with `now` (R47). -/
structure Stamped where
  time : Nat
  entry : Entry
  deriving DecidableEq, Repr

/-- What a call returned to the host (30 R90, "Result" column; 00 R13). -/
inductive Ret where
  /-- the call returned and has no result -/
  | done
  /-- `pollReceivedByte`: `none` or `some b` -/
  | maybeByte (b : Option Byte)
  /-- `hasData` -/
  | bool (v : Bool)
  /-- `ClockInBit` -/
  | bit (v : Bit)
  /-- `ClockInByte` -/
  | byte (v : Byte)
  /-- `receivePacket` -/
  | buffer (v : List Byte)
  deriving DecidableEq, Repr

/-- The model's fault outcomes (60 R231). The hardware raises nothing (R230); each ends a run where the source leaves
the behaviour undefined or unsaid. SAFE, all of them: the model stops where the device may go on. -/
inductive Fault where
  /-- `transmitByte` line 1, `TxBusy` = 1. Safe. -/
  | txReentry
  /-- `transmitByte` line 2 and `armReceive` line 1: the other direction is armed or in flight. Safe. -/
  | serialOverlap
  /-- `armReceive` line 2: a reception is being sampled. Safe. -/
  | rearmMidByte
  /-- `configure`, `setMode`, `transmitPacket`, `hasData`, `receivePacket` with `LineDirSet` = 0. Safe. -/
  | radioNotInitialized
  /-- `initializeLines` with `Configured` = 1. Safe. -/
  | radioReinit
  /-- `setMode`, `transmitPacket`, `receivePacket` with `Configured` = 0. Safe. -/
  | radioNotConfigured
  /-- `configure` with `Configured` = 1. Safe. -/
  | radioReconfigure
  /-- `transmitPacket`, `receivePacket` in another `RadioMode`. Safe. -/
  | radioWrongMode
  /-- any host operation called from the interrupt context (R242). Safe. -/
  | interruptContextCall
  deriving DecidableEq, Repr

/-- The conditions the first lines of the serial operations test (41 R131 lines 1 and 2, R135 lines 1 and 2). -/
inductive SerialCheck where
  /-- `TxBusy` = 1 -/
  | txBusy
  /-- `TimerEnable` = 1 or `EdgeEnable` = 1 -/
  | armed
  /-- `TimerEnable` = 1 -/
  | timerOn
  deriving DecidableEq, Repr

/-- A micro-step of an operation: one line of its pseudocode (00 R11). The main context's sequencing state (R26 b) is
the list of the micro-steps still to run. The check lines of the radio operations are no micro-steps (log 10). -/
inductive Micro where
  /-- `Set(LINE, v)` -/
  | set (line : OutLine) (v : Bit)
  /-- `Set(DATA, PacketBuffer[i][j])` (43 R203 line 9) -/
  | setFromBuffer (i j : Nat)
  /-- `Dir(LINE, d)` -/
  | dir (line : RadioLine) (d : Dir)
  /-- `LineDirSet <- 1` (42 R173 line 7) -/
  | setLineDirSet
  /-- `Delay(P)` -/
  | delay (p : DelayParam)
  /-- `Configured <- 1` (42 R174 line 9) -/
  | setConfigured
  /-- `RadioMode <- mode` (42 R175 line 14) -/
  | setRadioMode (m : RadioMode)
  /-- `MemWrite(PacketBuffer, i, v)` (43 R203 line 5) -/
  | bufferWrite (i : Nat) (v : Byte)
  /-- `MemWrite(PacketBuffer, i, x)`, `x` the byte `ClockInByte` assembled (43 R205 line 5) -/
  | bufferTake (i : Nat)
  /-- `b <- Sample(DATA)` (43 R201 line 1) -/
  | sampleData
  /-- `x <- 0` (43 R202) -/
  | clearX
  /-- `x <- { x[6:0], b }` (43 R202) -/
  | shiftX
  /-- `if c then raise Fault(f)` (41 R131 lines 1 and 2, R135 lines 1 and 2) -/
  | check (c : SerialCheck) (f : Fault)
  /-- `TxShift <- v` (41 R131 line 3) -/
  | loadTxShift (v : Byte)
  /-- `BitIndex <- 0` (41 R131 line 4, R135 line 4) -/
  | clearBitIndex
  /-- `Mode <- m` (41 R131 line 5, R135 line 3) -/
  | setSerialMode (m : Mode)
  /-- `TxBusy <- 1` (41 R131 line 6) -/
  | setTxBusy
  /-- `TimerArm(TX_LEAD)` (41 R131 line 7) -/
  | armLead
  /-- `RxSync <- 0` (41 R135 line 5) -/
  | clearRxSync
  /-- `EdgeEnable <- 1`, any falling edge seen before discarded (41 R135 line 6) -/
  | enableEdge
  /-- `WaitUntil(TxBusy = 0)` (41 R131 line 8) -/
  | waitTxDone
  /-- `WaitUntil(Sample(DR) != DR_ACTIVE)` (43 R205 line 6) -/
  | waitDrInactive
  /-- the call returns `r` -/
  | ret (r : Ret)
  /-- the call returns `b` (43 R201 line 4) -/
  | retBit
  /-- the call returns `x` (43 R202) -/
  | retByte
  /-- the call returns `PacketBuffer[0 .. W-1]` (43 R205 line 8) -/
  | retBuffer
  deriving DecidableEq, Repr

/-- The serial engine (R20, R21, R22, R25, R28 to R34). -/
structure Serial where
  /-- `TxShift` (R21) -/
  txShift : Byte
  /-- `RxReg` (R22) -/
  rxReg : Byte
  /-- `BitIndex` (R25) -/
  bitIndex : Nat
  /-- `ReceivedFlag` (R28) -/
  receivedFlag : Bool
  /-- `TxBusy` (R29) -/
  txBusy : Bool
  /-- `Mode` (R30) -/
  mode : Mode
  /-- `RxSync` (R31) -/
  rxSync : Bool
  /-- `TimerEnable` (R32) -/
  timerEnable : Bool
  /-- `TimerDue` (R32) -/
  timerDue : Nat
  /-- `EdgeEnable` (R33) -/
  edgeEnable : Bool
  /-- the output latch of `TXD` (R34) -/
  txd : Bit
  deriving DecidableEq, Repr

/-- The radio driver (R20, R23, R36 to R41). -/
structure Radio where
  /-- the output latch of `CE` (R36) -/
  ce : Bit
  /-- the output latch of `CS` (R36) -/
  cs : Bit
  /-- the output latch of `CLK` (R37) -/
  clk : Bit
  /-- `DATA_OUT` (R38) -/
  dataOut : Bit
  /-- the direction of `CE` (R40, R245) -/
  ceDir : Dir
  /-- the direction of `CS` (R40, R245) -/
  csDir : Dir
  /-- the direction of `CLK` (R40, R245) -/
  clkDir : Dir
  /-- the direction of `DR` (R39, R40) -/
  drDir : Dir
  /-- `DATA_DIR` (R38) -/
  dataDir : Dir
  /-- `LineDirSet` (R40) -/
  lineDirSet : Bool
  /-- `Configured` (R41) -/
  configured : Bool
  /-- `RadioMode` (R41) -/
  radioMode : RadioMode
  /-- `PacketBuffer` (R23) -/
  packetBuffer : List Byte
  deriving DecidableEq, Repr

/-- The main context's sequencing state (R26 b) and the host's side of the boundary (00 R13). -/
structure MainCtx where
  /-- the context that is running (60 R241) -/
  context : Context
  /-- the micro-steps of the operation in progress still to run (R26 b) -/
  cont : List Micro
  /-- ticks that pass before the main context's next micro-step -/
  stall : Nat
  /-- the local `b` of `ClockInBit` (43 R201) -/
  localB : Bit
  /-- the local `x` of `ClockInByte` (43 R202) -/
  localX : Byte
  /-- the host's call script: the calls not issued yet (00 R13, 30 R92) -/
  script : List Byte
  /-- the host goes on calling after the script, for ever: an infinite call script (00 R13; log 30) -/
  endless : Bool
  /-- how many turns a host with an infinite call script has had after the listed one (log 30) -/
  hostTurns : Nat
  /-- what the calls returned so far, oldest first (00 R13) -/
  returns : List Ret
  deriving DecidableEq, Repr

/-- The environment as an input (00 R11): the peer's line, the schedule, the answers to come. -/
structure Env where
  /-- the level of `RXD` at this tick (R35) -/
  rxd : Bit
  /-- `RXD` went from 1 to 0 at this tick and the edge is neither taken nor discarded (60 R232, R234) -/
  rxdFell : Bool
  /-- the schedule: ticks the environment lets pass at the coming yield points of the main context (log 10) -/
  pace : List Nat
  /-- the levels of `RXD` at the coming ticks (log 9) -/
  rxdIn : List Bit
  /-- the answers to the coming `Sample(DATA)` (log 9) -/
  dataIn : List Bit
  /-- the answers to the coming `Sample(DR)` (log 9) -/
  drIn : List Bit
  /-- how many free answers to `Sample(DATA)` were given -/
  dataReads : Nat
  /-- how many free answers to `Sample(DR)` were given -/
  drReads : Nat
  /-- the timer environment meets its contract and fires the compare event at `TimerDue`; with `false` it never fires
  (00 R13, the hang of `transmitByte` line 8; log 31) -/
  timerFires : Bool
  deriving DecidableEq, Repr

/-- One block of SBE-CORE. -/
structure State where
  /-- the implementation parameters (00 R8); no step changes them -/
  params : Params
  /-- the tick counter (40 R110) -/
  now : Nat
  serial : Serial
  radio : Radio
  main : MainCtx
  env : Env
  /-- the line trace, oldest entry first (R47) -/
  trace : List Stamped
  deriving DecidableEq, Repr

/-- Calls to which the model gives no meaning. -/
inductive Refusal where
  /-- `exec`'s arm of an instruction that has no meaning yet. Safe. -/
  | notModelled (mnemonic : String)
  /-- an operand outside its type (R231, 20_memory R66, 30 R91): raised by `configure`, `setMode`, `transmitPacket`,
  and by `TimerArm` with no ticks (log 15). Safe. -/
  | badOperand
  /-- raised by `step`: the script's next byte is none of the eighteen operations of R90. Safe. -/
  | noSuchOperation (ordinal : Nat)
  /-- raised by `step`: the script ends inside a call. Safe. -/
  | callTruncated
  /-- raised by `step`: an operand byte of the script has a value the byte form does not use. Safe. -/
  | badOperandCode
  deriving DecidableEq, Repr

/-- The registers for which R44 says "unspecified". -/
structure Unspecified where
  txShift : Byte
  rxReg : Byte
  packetBuffer : List Byte
  mode : Mode
  timerDue : Nat
  deriving DecidableEq, Repr

/-- Reset (R44, 70 R270) of a block with parameters `p`, the registers R44 leaves unspecified holding `u`. -/
def State.resetWith (p : Params) (u : Unspecified) : State where
  params := p
  now := 0
  serial :=
    { txShift := u.txShift, rxReg := u.rxReg, bitIndex := 0, receivedFlag := false, txBusy := false, mode := u.mode,
      rxSync := false, timerEnable := false, timerDue := u.timerDue, edgeEnable := false, txd := true }
  radio :=
    { ce := false, cs := false, clk := false, dataOut := false, ceDir := .input, csDir := .input, clkDir := .input,
      drDir := .input, dataDir := .input, lineDirSet := false, configured := false, radioMode := .configure,
      packetBuffer := u.packetBuffer }
  main :=
    { context := .main, cont := [], stall := 0, localB := false, localX := 0, script := [], endless := false,
      hostTurns := 0, returns := [] }
  env :=
    { rxd := true, rxdFell := false, pace := [], rxdIn := [], dataIn := [], drIn := [], dataReads := 0, drReads := 0,
      timerFires := true }
  trace := []

/-- DESIGN CHOICE (log 2): the values `State.reset` gives the registers R44 leaves unspecified. -/
def Unspecified.zeros (p : Params) : Unspecified where
  txShift := 0
  rxReg := 0
  packetBuffer := List.replicate p.payloadWidth 0
  mode := .tx
  timerDue := 0

/-- The machine right after reset: R44, with the reference parameters (log 1) and zeros where R44 says "unspecified"
(log 2). -/
def State.reset : State := State.resetWith Params.reference (Unspecified.zeros Params.reference)

end Sys2Proof.Machine
end

