-- ==== Sys2Proof/Machine/Flags.lean ====
section
/-! DEFINITION. The conditions on flags: the precondition checks of the operations with the outcome of each (60 R231), in
the order of the operations' lines, and the conditions of the two events (60 R232). -/

namespace Sys2Proof.Machine

open Sys2Proof

/-- The outcome of the first check that fails, in the order of the lines. -/
def firstFault : List (Bool × Fault) → Option Fault
  | [] => none
  | (bad, f) :: rest => if bad then some f else firstFault rest

/-- Whether the condition a line of a serial operation tests holds (41 R131 lines 1 and 2, R135 lines 1 and 2). -/
def serialCheckHolds : SerialCheck → State → Bool
  | .txBusy, s => s.serial.txBusy
  | .armed, s => s.serial.timerEnable || s.serial.edgeEnable
  | .timerOn, s => s.serial.timerEnable

/-- `initializeLines` line 1 (42 R173). -/
def initializeLinesChecks (s : State) : List (Bool × Fault) := [(s.radio.configured, .radioReinit)]

/-- `configure` lines 2 and 3 (42 R174). -/
def configureChecks (s : State) : List (Bool × Fault) :=
  [(!s.radio.lineDirSet, .radioNotInitialized), (s.radio.configured, .radioReconfigure)]

/-- `setMode` lines 2 and 3 (42 R175). -/
def setModeChecks (s : State) : List (Bool × Fault) :=
  [(!s.radio.lineDirSet, .radioNotInitialized), (!s.radio.configured, .radioNotConfigured)]

/-- `transmitPacket` lines 2 to 4 and `receivePacket` lines 1 to 3 (43 R203, R205), in mode `m`. -/
def packetChecks (m : RadioMode) (s : State) : List (Bool × Fault) :=
  [(!s.radio.lineDirSet, .radioNotInitialized), (!s.radio.configured, .radioNotConfigured),
    (decide (s.radio.radioMode ≠ m), .radioWrongMode)]

/-- `hasData` line 1 (43 R204). -/
def hasDataChecks (s : State) : List (Bool × Fault) := [(!s.radio.lineDirSet, .radioNotInitialized)]

/-- The condition of the timer event: `TimerEnable` = 1 and `now` = `TimerDue` (40 R111, 60 R232). -/
def timerEventDue (s : State) : Bool := s.serial.timerEnable && decide (s.now = s.serial.timerDue)

/-- The condition of the edge event: `EdgeEnable` = 1 and `RXD` went from 1 to 0 at this tick (60 R232). -/
def edgeEventDue (s : State) : Bool := s.serial.edgeEnable && s.env.rxdFell

end Sys2Proof.Machine
end

