-- ==== Sys2Proof/Machine/Operands.lean ====
section
/-! DEFINITION. Operand forms: how bytes are taken apart and put together (30_encoding section 2) and the micro-steps of
the wire formats (30_encoding section 1, 42 R171, R172, 43 R201, R202). -/

namespace Sys2Proof.Machine

open Sys2Proof

/-- The bits of a byte, most significant first: the order of every radio stream (20_memory R63, 30 R89). -/
def msbBits (x : Byte) : List Bit :=
  [x.getLsbD 7, x.getLsbD 6, x.getLsbD 5, x.getLsbD 4, x.getLsbD 3, x.getLsbD 2, x.getLsbD 1, x.getLsbD 0]

/-- `{ s, r[7:1] }`: the receive shift of the serial engine (30 R88). -/
def shiftInTop (s : Bit) (r : Byte) : Byte := BitVec.cons s (r.extractLsb' 1 7)

/-- `x >> 1`: the transmit shift of the serial engine (41 R133, R145). -/
def shiftOut (x : Byte) : Byte := x >>> 1

/-- `{ x[6:0], b }`: the receive shift of the radio driver (30 R89, 43 R202). -/
def shiftInBottom (x : Byte) (b : Bit) : Byte := BitVec.concat (x.extractLsb' 0 7) b

/-- The serial frame of a byte, cell by cell in time order (30 R81). -/
def frameCells (v : Byte) : List Bit := false :: (msbBits v).reverse ++ [true]

/-- The configuration stream, cell by cell (30 R82); also the payload part of R84 and R85. -/
def byteCells (bs : List Byte) : List Bit := bs.flatMap msbBits

/-- The transmit packet stream, cell by cell (30 R84). -/
def packetCells (p : Params) (payload : List Byte) : List Bit := byteCells (p.nodeAddr0 :: p.nodeAddr1 :: payload)

/-- The role bit of `setMode` (30 R83). -/
def roleBit (m : RadioMode) : Bit := if m = .receive then Config.roleBitRx else Config.roleBitTx

/-- One clock pulse (00 R12). -/
def clockPulse : List Micro := [.set .clk true, .set .clk false]

/-- An outbound bit cell, `ClockOutBit(b)` (30 R86, 42 R171). -/
def clockOutBit (b : Bit) : List Micro := .set .data b :: clockPulse

/-- `ClockOutByte(x)` (42 R172). -/
def clockOutByte (x : Byte) : List Micro := (msbBits x).flatMap clockOutBit

/-- `ClockOutByte(MemRead(PacketBuffer, i))` (43 R203 line 9): the byte is read when its bits go out. -/
def clockOutBuffer (i : Nat) : List Micro :=
  [7, 6, 5, 4, 3, 2, 1, 0].flatMap fun j => .setFromBuffer i j :: clockPulse

/-- An inbound bit cell, `ClockInBit()` (30 R87, 43 R201 lines 1 to 3). -/
def clockInBit : List Micro := .sampleData :: clockPulse

/-- `ClockInByte()` (43 R202). -/
def clockInByte : List Micro := .clearX :: (List.replicate 8 (clockInBit ++ [.shiftX])).flatten

/-- `transmitByte(v)`, its eight lines (41 R131). -/
def transmitByteLines (v : Byte) : List Micro :=
  [.check .txBusy .txReentry, .check .armed .serialOverlap, .loadTxShift v, .clearBitIndex, .setSerialMode .tx, .setTxBusy,
    .armLead, .waitTxDone]

/-- `armReceive()`, its six lines (41 R135); line 2 stands after line 1, so `Mode` = `ModeRx` where it faults. -/
def armReceiveLines : List Micro :=
  [.check .txBusy .serialOverlap, .check .timerOn .rearmMidByte, .setSerialMode .rx, .clearBitIndex, .clearRxSync,
    .enableEdge]

/-- `for i do MemWrite(PacketBuffer, i, buffer[i])`, from index `i` on (43 R203 line 5). -/
def bufferWrites : Nat → List Byte → List Micro
  | _, [] => []
  | i, v :: vs => .bufferWrite i v :: bufferWrites (i + 1) vs

/-- `initializeLines` lines 2 to 7 (42 R173). -/
def initializeLinesLines : List Micro :=
  [.dir .ce .output, .dir .cs .output, .dir .clk .output, .dir .dr .input, .dir .data .output, .setLineDirSet]

/-- `configure` lines 4 to 9 (42 R174). DEDUCED (log 32): no line sets `DATA_DIR`, although 10_state R38 lists `configure`
among its writers; the lines of R174 are followed. -/
def configureLines (word : List Byte) : List Micro :=
  [.set .ce false, .set .cs true, .delay .cfgSetup] ++ word.flatMap clockOutByte ++ [.set .cs false, .setConfigured]

/-- `setMode` lines 4 to 14 (42 R175). -/
def setModeLines (m : RadioMode) : List Micro :=
  [.set .ce false, .set .cs true, .dir .data .output, .delay .modePre] ++ clockOutBit (roleBit m)
    ++ [.delay .modePost, .set .cs false]
    ++ (if m = .receive then [.dir .data .input, .set .ce true] else [])
    ++ [.setRadioMode m]

/-- `transmitPacket` lines 5 to 10 (43 R203). -/
def transmitPacketLines (p : Params) (buffer : List Byte) : List Micro :=
  bufferWrites 0 buffer ++ [.set .ce true] ++ clockOutByte p.nodeAddr0 ++ clockOutByte p.nodeAddr1
    ++ (List.range p.payloadWidth).flatMap clockOutBuffer ++ [.set .ce false]

/-- `receivePacket` lines 4 to 7 (43 R205). -/
def receivePacketLines (p : Params) : List Micro :=
  [.set .ce false] ++ (List.range p.payloadWidth).flatMap (fun i => clockInByte ++ [.bufferTake i])
    ++ [.waitDrInactive, .set .ce true]

end Sys2Proof.Machine
end

