-- ==== Sys2Proof/Machine/Ops.lean ====
section
/-! DEFINITION. The named operations over the state: the primitives of 00_scope R10 (Set, Dir, Sample, Delay, WaitUntil,
MemRead, MemWrite), the bit clock (40 R112 to R114), taking an event and returning from it (60 R237, R239), and the run of
the main context's micro-steps (00 R11, 10 R26). -/

namespace Sys2Proof.Machine

open Sys2Proof

/-! ### The line trace and the lines -/

/-- Appends an entry to the line trace, stamped with `now` (10 R47). -/
def emit (e : Entry) (s : State) : State := { s with trace := s.trace ++ [⟨s.now, e⟩] }

/-- Writes the output latch of a line (00 R10). -/
def setLatch : OutLine → Bit → State → State
  | .txd, v, s => { s with serial.txd := v }
  | .ce, v, s => { s with radio.ce := v }
  | .cs, v, s => { s with radio.cs := v }
  | .clk, v, s => { s with radio.clk := v }
  | .data, v, s => { s with radio.dataOut := v }

/-- `Set(LINE, v)` (00 R10). -/
def setLine (l : OutLine) (v : Bit) (s : State) : State := emit (.set l v) (setLatch l v s)

/-- Writes the direction of a radio line (00 R10). -/
def setDirection : RadioLine → Dir → State → State
  | .ce, d, s => { s with radio.ceDir := d }
  | .cs, d, s => { s with radio.csDir := d }
  | .clk, d, s => { s with radio.clkDir := d }
  | .data, d, s => { s with radio.dataDir := d }
  | .dr, d, s => { s with radio.drDir := d }

/-- `Dir(LINE, d)` (00 R10). -/
def setDir (l : RadioLine) (d : Dir) (s : State) : State := emit (.dir l d) (setDirection l d s)

/-- The level the block itself puts on the pin of an output line, `none` where it does not drive it (10 R34, R38, R40):
a latch reaches its pin only while the line's direction is Out. `TXD` is an output from reset on (70 R273). -/
def pinLevel (l : OutLine) (s : State) : Option Bit :=
  match l with
  | .txd => some s.serial.txd
  | .ce => if s.radio.ceDir = .output then some s.radio.ce else none
  | .cs => if s.radio.csDir = .output then some s.radio.cs else none
  | .clk => if s.radio.clkDir = .output then some s.radio.clk else none
  | .data => if s.radio.dataDir = .output then some s.radio.dataOut else none

/-- The answer of the environment to `Sample(DATA)`: the next listed one, else a free one (00 R10, 60 R247). -/
def answerData (s : State) : Bit × State :=
  match s.env.dataIn with
  | b :: r => (b, { s with env.dataIn := r })
  | [] => (Config.freeData s.env.dataReads, { s with env.dataReads := s.env.dataReads + 1 })

/-- The answer of the environment to `Sample(DR)`. -/
def answerDr (s : State) : Bit × State :=
  match s.env.drIn with
  | b :: r => (b, { s with env.drIn := r })
  | [] => (Config.freeDr s.env.drReads, { s with env.drReads := s.env.drReads + 1 })

/-- `Sample(DATA)`: the environment's level while the line is an input; while the block drives it, the level it drives
(log 19). -/
def sampleData (s : State) : Bit × State :=
  match s.radio.dataDir with
  | .output => (s.radio.dataOut, emit (.sample .data s.radio.dataOut) s)
  | .input => ((answerData s).1, emit (.sample .data (answerData s).1) (answerData s).2)

/-- `Sample(DR)` (00 R10, 43 R204). -/
def sampleDr (s : State) : Bit × State := ((answerDr s).1, emit (.sample .dr (answerDr s).1) (answerDr s).2)

/-- `Sample(RXD)`: the level at this tick (10 R35). -/
def sampleRxd (s : State) : Bit × State := (s.env.rxd, emit (.sample .rxd s.env.rxd) s)

/-! ### The packet buffer -/

/-- `MemWrite(PacketBuffer, i, v)` (00 R10, 20_memory R60). -/
def bufferWrite (i : Nat) (v : Byte) (s : State) : State :=
  { s with radio.packetBuffer := s.radio.packetBuffer.set i v }

/-- `MemRead(PacketBuffer, i)` (00 R10). No operation reads outside the array (20_memory R61; log 23). -/
def bufferRead (i : Nat) (s : State) : Byte := s.radio.packetBuffer.getD i 0

/-! ### The bit clock -/

/-- `TimerArm(d)` (40 R112). -/
def timerArm (d : Nat) (s : State) : State :=
  { s with serial.timerDue := s.now + d, serial.timerEnable := true }

/-- `TimerDisarm()` (40 R113). -/
def timerDisarm (s : State) : State := { s with serial.timerEnable := false }

/-- The auto-reload, before the handler of a timer event (40 R114). -/
def timerReload (s : State) : State := { s with serial.timerDue := s.serial.timerDue + s.params.bitPeriod }

/-- `EdgeEnable <- 1` with a clean edge detector: a falling edge seen before is discarded (41 R135 line 6, 60 R234). -/
def enableEdge (s : State) : State := { s with serial.edgeEnable := true, env.rxdFell := false }

/-! ### Taking an event and returning from it -/

/-- Entry (60 R237): the interrupt context runs; nothing else of the block is saved or changed. -/
def enterInterrupt (s : State) : State := { s with main.context := .interrupt }

/-- Return (60 R239): the interrupted context `c` resumes at the micro-step it was about to run. -/
def returnFromInterrupt (c : Context) (s : State) : State := { s with main.context := c }

/-- An event: entry, its handler as one atomic step, return (60 R237 to R240). -/
def takeEvent (handler : State → State) (s : State) : State :=
  returnFromInterrupt s.main.context (handler (enterInterrupt s))

/-! ### The main context -/

/-- A point at which the environment's schedule may let ticks pass before the main context goes on (log 10). -/
def yield (s : State) : State :=
  match s.env.pace with
  | [] => s
  | n :: r => { s with main.stall := s.main.stall + n, env.pace := r }

/-- A turn of a `WaitUntil` whose condition does not hold: a tick passes before the condition is tested again, or none
where the schedule says 0 (log 11). No turn is longer, so that the test follows every handler step (60 R239). -/
def waitTurn (s : State) : State :=
  match s.env.pace with
  | [] => { s with main.stall := 1 }
  | n :: r => { s with main.stall := min n 1, env.pace := r }

/-- The ticks a `Delay` names (00 R8, 70 R293). -/
def delayTicks (p : DelayParam) (s : State) : Nat :=
  match p with
  | .cfgSetup => s.params.cfgSetup
  | .modePre => s.params.modePre
  | .modePost => s.params.modePost

/-- `Delay(P)`: the main context does nothing for that long (00 R10, 60 R246). DESIGN CHOICE (log 33): its entry is
appended, and stamped, when the delay begins. -/
def delay (p : DelayParam) (s : State) : State :=
  emit (.delay p) { s with main.stall := s.main.stall + delayTicks p s }

/-- A call hands its result to the host (00 R13). -/
def returnValue (r : Ret) (s : State) : State := { s with main.returns := s.main.returns ++ [r] }

/-- How a micro-step ends. -/
inductive Progress where
  /-- it ran -/
  | done (s : State)
  /-- its condition does not hold: the main context stays at it -/
  | held (s : State)
  /-- a check failed -/
  | fault (f : Fault)

/-- One micro-step of the main context (00 R10, R11). -/
def microStep : Micro → State → Progress
  | .set l v, s => .done (yield (setLine l v s))
  | .setFromBuffer i j, s => .done (yield (setLine .data ((bufferRead i s).getLsbD j) s))
  | .dir l d, s => .done (yield (setDir l d s))
  | .setLineDirSet, s => .done (yield { s with radio.lineDirSet := true })
  | .delay p, s => .done (yield (delay p s))
  | .setConfigured, s => .done (yield { s with radio.configured := true })
  | .setRadioMode m, s => .done (yield { s with radio.radioMode := m })
  | .bufferWrite i v, s => .done (yield (bufferWrite i v s))
  | .bufferTake i, s => .done (yield (bufferWrite i s.main.localX s))
  | .sampleData, s => .done (yield { (sampleData s).2 with main.localB := (sampleData s).1 })
  | .clearX, s => .done (yield { s with main.localX := 0 })
  | .shiftX, s => .done (yield { s with main.localX := shiftInBottom s.main.localX s.main.localB })
  | .check c f, s => if serialCheckHolds c s then .fault f else .done (yield s)
  | .loadTxShift v, s => .done (yield { s with serial.txShift := v })
  | .clearBitIndex, s => .done (yield { s with serial.bitIndex := 0 })
  | .setSerialMode m, s => .done (yield { s with serial.mode := m })
  | .setTxBusy, s => .done (yield { s with serial.txBusy := true })
  | .armLead, s => .done (yield (timerArm s.params.txLead s))
  | .clearRxSync, s => .done (yield { s with serial.rxSync := false })
  | .enableEdge, s => .done (yield (enableEdge s))
  | .waitTxDone, s => if s.serial.txBusy then .held (waitTurn s) else .done (yield s)
  | .waitDrInactive, s =>
    if (sampleDr s).1 = Config.drActive then .held (waitTurn (sampleDr s).2) else .done (yield (sampleDr s).2)
  | .ret r, s => .done (yield (returnValue r s))
  | .retBit, s => .done (yield (returnValue (.bit s.main.localB) s))
  | .retByte, s => .done (yield (returnValue (.byte s.main.localX) s))
  | .retBuffer, s => .done (yield (returnValue (.buffer (s.radio.packetBuffer.take s.params.payloadWidth)) s))

/-- Runs the main context through the micro-steps `ms` until they are done, one of them holds it, or ticks must pass
first; what is left goes in front of `k`, the continuation of an operation in progress around this one (log 25). -/
def runMicros (k : List Micro) : List Micro → State → Host.Outcome State Fault Refusal
  | [], s => .next { s with main.cont := k }
  | m :: ms, s =>
    match microStep m s with
    | .done s' => if 0 < s'.main.stall then .next { s' with main.cont := ms ++ k } else runMicros k ms s'
    | .held s' => .next { s' with main.cont := m :: ms ++ k }
    | .fault f => .fault f

/-- A call of an operation whose lines are `ms`. -/
def runCall (ms : List Micro) (s : State) : Host.Outcome State Fault Refusal := runMicros s.main.cont ms s

/-- What every host operation checks before its own lines: the calling context first (60 R242), then the operands' types
(20_memory R66), then `checks` in order (60 R231). The checks of the radio operations are here; `transmitByte` and
`armReceive` have theirs as micro-steps, because a handler can change what they test (log 10). -/
def hostCall (wellTyped : Bool) (checks : List (Bool × Fault)) (s : State) (body : Host.Outcome State Fault Refusal) :
    Host.Outcome State Fault Refusal :=
  if s.main.context = .interrupt then .fault .interruptContextCall
  else if wellTyped then
    match firstFault checks with
    | some f => .fault f
    | none => body
  else .refused .badOperand

end Sys2Proof.Machine
end

