-- ==== Sys2Proof/Machine/BitClock.lean ====
section
/-! DEFINITION. The Bit-Clock Primitive (40_bit_clock): `TimerArm`, `TimerDisarm`. -/

namespace Sys2Proof.Machine

open Sys2Proof

/-- `TimerArm(d)` (40 R112). `d` = 0 is outside the operand's type (log 15). -/
def execTimerArm (d : Nat) (s : State) : Host.Outcome State Fault Refusal :=
  if d = 0 then .refused .badOperand else runCall [.ret .done] (timerArm d s)

/-- `TimerDisarm()` (40 R113). -/
def execTimerDisarm (s : State) : Host.Outcome State Fault Refusal := runCall [.ret .done] (timerDisarm s)

end Sys2Proof.Machine
end

