-- ==== Sys2Proof/Machine/RadioConfig.lean ====
section
/-! DEFINITION. The Radio Configuration & Mode Driver (42_radio_config_mode): `ClockOutBit`, `ClockOutByte`,
`initializeLines`, `configure`, `setMode`. -/

namespace Sys2Proof.Machine

open Sys2Proof

/-- `ClockOutBit(b)` (42 R171). -/
def execClockOutBit (b : Bit) (s : State) : Host.Outcome State Fault Refusal := runCall (clockOutBit b ++ [.ret .done]) s

/-- `ClockOutByte(x)` (42 R172). -/
def execClockOutByte (x : Byte) (s : State) : Host.Outcome State Fault Refusal :=
  runCall (clockOutByte x ++ [.ret .done]) s

/-- `initializeLines()` (42 R173). -/
def execInitializeLines (s : State) : Host.Outcome State Fault Refusal :=
  hostCall true (initializeLinesChecks s) s (runCall (initializeLinesLines ++ [.ret .done]) s)

/-- `configure(configWord)` (42 R174). -/
def execConfigure (configWord : List Byte) (s : State) : Host.Outcome State Fault Refusal :=
  hostCall (decide (configWord.length = Config.configLen)) (configureChecks s) s
    (runCall (configureLines configWord ++ [.ret .done]) s)

/-- `setMode(mode)` (42 R175). -/
def execSetMode (mode : RadioMode) (s : State) : Host.Outcome State Fault Refusal :=
  hostCall (decide (mode ≠ .configure)) (setModeChecks s) s (runCall (setModeLines mode ++ [.ret .done]) s)

end Sys2Proof.Machine
end

