-- ==== Sys2Proof/Machine/RadioPacket.lean ====
section
/-! DEFINITION. The Radio Packet I/O Driver (43_radio_packet_io): `ClockInBit`, `ClockInByte`, `transmitPacket`, `hasData`,
`receivePacket`. -/

namespace Sys2Proof.Machine

open Sys2Proof

/-- `ClockInBit()` (43 R201). -/
def execClockInBit (s : State) : Host.Outcome State Fault Refusal := runCall (clockInBit ++ [.retBit]) s

/-- `ClockInByte()` (43 R202). -/
def execClockInByte (s : State) : Host.Outcome State Fault Refusal := runCall (clockInByte ++ [.retByte]) s

/-- `transmitPacket(buffer)` (43 R203). -/
def execTransmitPacket (buffer : List Byte) (s : State) : Host.Outcome State Fault Refusal :=
  hostCall (decide (buffer.length = s.params.payloadWidth)) (packetChecks .transmit s) s
    (runCall (transmitPacketLines s.params buffer ++ [.ret .done]) s)

/-- `hasData()` (43 R204). -/
def execHasData (s : State) : Host.Outcome State Fault Refusal :=
  hostCall true (hasDataChecks s) s
    (runCall [.ret (.bool (decide ((sampleDr s).1 = Config.drActive)))] (sampleDr s).2)

/-- `receivePacket()` (43 R205). -/
def execReceivePacket (s : State) : Host.Outcome State Fault Refusal :=
  hostCall true (packetChecks .receive s) s (runCall (receivePacketLines s.params ++ [.retBuffer]) s)

end Sys2Proof.Machine
end

