-- ==== Sys2Proof/Machine/SerialEngine.lean ====
section
/-! DEFINITION. The Software Serial Engine (41_serial_engine): `transmitByte`, `TimerEvent`, `armReceive`, `EdgeEvent`,
`pollReceivedByte`, `writeLine`. -/

namespace Sys2Proof.Machine

open Sys2Proof

/-- `TimerEvent`, transmit arm (41 R133). -/
def transmitArm (s : State) : State :=
  if s.serial.bitIndex = 0 then
    let s1 := setLine .txd false s
    { s1 with serial.bitIndex := 1 }
  else if s.serial.bitIndex ≤ 8 then
    let s1 := setLine .txd (s.serial.txShift.getLsbD 0) s
    { s1 with serial.txShift := shiftOut s.serial.txShift, serial.bitIndex := s.serial.bitIndex + 1 }
  else if s.serial.bitIndex = 9 then
    let s1 := setLine .txd true s
    { s1 with serial.bitIndex := 10 }
  else
    let s1 := timerDisarm s
    { s1 with serial.txBusy := false }

/-- `TimerEvent`, receive arm (41 R134). -/
def receiveArm (s : State) : State :=
  if s.serial.rxSync then { s with serial.rxSync := false }
  else if s.serial.bitIndex ≤ 7 then
    let r := sampleRxd s
    { r.2 with serial.rxReg := shiftInTop r.1 s.serial.rxReg, serial.bitIndex := s.serial.bitIndex + 1 }
  else
    let s1 := timerDisarm s
    { s1 with serial.receivedFlag := true }

/-- The handler of the timer source: one flag selects the behaviour (41 R132, 60 R238). -/
def timerHandler (s : State) : State :=
  match s.serial.mode with
  | .tx => transmitArm s
  | .rx => receiveArm s

/-- The handler of the edge source (41 R136); taking the event clears it (60 R234). -/
def edgeHandler (s : State) : State :=
  timerArm s.params.halfBit
    { s with serial.edgeEnable := false, serial.rxSync := true, env.rxdFell := false }

/-- The timer source at this tick: where its condition holds, the reload and then the event (40 R111, R114); where it
does not, there is no event and nothing happens (60 R234). -/
def deliverTimer (s : State) : State := if timerEventDue s then takeEvent timerHandler (timerReload s) else s

/-- The edge source at this tick (60 R232, R234). -/
def deliverEdge (s : State) : State := if edgeEventDue s then takeEvent edgeHandler s else s

/-- `transmitByte(value)` (41 R131). -/
def execTransmitByte (value : Byte) (s : State) : Host.Outcome State Fault Refusal :=
  hostCall true [] s (runCall (transmitByteLines value ++ [.ret .done]) s)

/-- `TimerEvent` (41 R132 to R134), where its event is due (log 8). -/
def execTimerEvent (s : State) : Host.Outcome State Fault Refusal := .next (deliverTimer s)

/-- `armReceive()` (41 R135): its lines take no time of their own (70 R292); log 4 for the timer registers, log 10 for an
edge between two of them. -/
def execArmReceive (s : State) : Host.Outcome State Fault Refusal :=
  hostCall true [] s (runCall (armReceiveLines ++ [.ret .done]) s)

/-- `EdgeEvent` (41 R136), where its event is due (log 8). -/
def execEdgeEvent (s : State) : Host.Outcome State Fault Refusal := .next (deliverEdge s)

/-- `pollReceivedByte` as one atomic step (41 R137, 20_memory R68). -/
def pollMailbox (s : State) : Option Byte × State :=
  if s.serial.receivedFlag then (some s.serial.rxReg, { s with serial.receivedFlag := false }) else (none, s)

/-- `pollReceivedByte()` (41 R137). -/
def execPollReceivedByte (s : State) : Host.Outcome State Fault Refusal :=
  hostCall true [] s (runCall [.ret (.maybeByte (pollMailbox s).1)] (pollMailbox s).2)

/-- `writeLine(text)` (41 R138): `transmitByte` of each byte, each with its own checks. -/
def execWriteLine (text : List Byte) (s : State) : Host.Outcome State Fault Refusal :=
  hostCall true [] s (runCall (text.flatMap transmitByteLines ++ [.ret .done]) s)

end Sys2Proof.Machine
end

