-- ==== Sys2Proof/Machine/Dispatch.lean ====
section
/-! DEFINITION. One arm per operation of 30_encoding R90. -/

namespace Sys2Proof.Machine

open Sys2Proof

def exec (i : Instr) (s : State) : Host.Outcome State Fault Refusal :=
  match i with
  -- Bit-Clock Primitive
  | .timerArm d => Sys2Proof.Machine.execTimerArm d s
  | .timerDisarm => Sys2Proof.Machine.execTimerDisarm s
  -- Software Serial Engine
  | .transmitByte value => Sys2Proof.Machine.execTransmitByte value s
  | .timerEvent => Sys2Proof.Machine.execTimerEvent s
  | .armReceive => Sys2Proof.Machine.execArmReceive s
  | .edgeEvent => Sys2Proof.Machine.execEdgeEvent s
  | .pollReceivedByte => Sys2Proof.Machine.execPollReceivedByte s
  | .writeLine text => Sys2Proof.Machine.execWriteLine text s
  -- Radio Configuration & Mode Driver
  | .clockOutBit b => Sys2Proof.Machine.execClockOutBit b s
  | .clockOutByte x => Sys2Proof.Machine.execClockOutByte x s
  | .initializeLines => Sys2Proof.Machine.execInitializeLines s
  | .configure configWord => Sys2Proof.Machine.execConfigure configWord s
  | .setMode mode => Sys2Proof.Machine.execSetMode mode s
  -- Radio Packet I/O Driver
  | .clockInBit => Sys2Proof.Machine.execClockInBit s
  | .clockInByte => Sys2Proof.Machine.execClockInByte s
  | .transmitPacket buffer => Sys2Proof.Machine.execTransmitPacket buffer s
  | .hasData => Sys2Proof.Machine.execHasData s
  | .receivePacket => Sys2Proof.Machine.execReceivePacket s

end Sys2Proof.Machine
end

