-- ==== Sys2Proof/WellFormed.lean ====
section
/-! DEFINITION. When the operands of an operation are inside their types (30_encoding R91, 20_memory R66). -/

namespace Sys2Proof

/-- The operand types of R90 and R91: ticks are at least 1 (40 R112), `configWord` has exactly 14 bytes, `mode` is
`Transmit` or `Receive`, `buffer` has exactly `PAYLOAD_WIDTH` bytes. Bytes, bits and texts have no illegal value. -/
abbrev Instr.WellFormed (p : Params) : Instr → Bool
  | .timerArm d => decide (1 ≤ d)
  | .configure w => decide (w.length = Config.configLen)
  | .setMode m => decide (m ≠ .configure)
  | .transmitPacket b => decide (b.length = p.payloadWidth)
  | .timerDisarm | .transmitByte _ | .timerEvent | .armReceive | .edgeEvent | .pollReceivedByte => true
  | .writeLine _ | .clockOutBit _ | .clockOutByte _ | .initializeLines | .clockInBit | .clockInByte => true
  | .hasData | .receivePacket => true

end Sys2Proof
end

