-- ==== Sys2Proof/Decode.lean ====
section
/-! DEFINITION. The byte form of a host's call script, its decoder and its encoder. The hardware has no binary encoding of
an operation (30_encoding R90); the key of an operation is its ordinal in R90 (opcode_table.json, mask 0x1f), and the
layout of the operands after it is this model's own: DESIGN CHOICE (log 5). A call is one byte whose bits 4..0 are the
ordinal (bits 7..5 are outside the table's mask and are not read), then its operands:
a bit or a mode in one byte; a byte as itself; ticks `d` as the little-endian digits of `d - 1` in a marked list; a text
as a marked list; a fixed-length array as 0 and its bytes, or as 1 and a marked list (another length).
A marked list is 1 and an element, repeated, then 0. -/

namespace Sys2Proof

/-- Why bytes are no call. -/
inductive DecodeError where
  /-- the ordinal is none of R90's 0..17 -/
  | noSuchOperation (ordinal : Nat)
  /-- the bytes end inside the call -/
  | truncated
  /-- an operand byte has a value the layout does not use -/
  | badOperandCode
  deriving DecidableEq, Repr

namespace Codec

/-- A marked list: any number of bytes, self-delimiting. -/
def encodeList : List Byte → List Byte
  | [] => [0]
  | b :: bs => 1 :: b :: encodeList bs

/-- Reads a marked list and gives it with the bytes after it. -/
def decodeList : List Byte → Except DecodeError (List Byte × List Byte)
  | [] => .error .truncated
  | [m] => if m = 0 then .ok ([], []) else if m = 1 then .error .truncated else .error .badOperandCode
  | m :: b :: r =>
    if m = 0 then .ok ([], b :: r)
    else if m = 1 then
      match decodeList r with
      | .ok (bs, k) => .ok (b :: bs, k)
      | .error e => .error e
    else .error .badOperandCode

/-- The base-256 digits of `n`, least significant first; `fuel` at least `n` gives them all. -/
def digits : Nat → Nat → List Byte
  | 0, _ => []
  | fuel + 1, n => if n = 0 then [] else BitVec.ofNat 8 n :: digits fuel (n / 256)

/-- The number whose digits these are. -/
def undigits : List Byte → Nat
  | [] => 0
  | b :: bs => b.toNat + 256 * undigits bs

/-- An array whose type fixes its length `n` (R91). -/
def encodeFixed (n : Nat) (bs : List Byte) : List Byte :=
  if bs.length = n then 0 :: bs else 1 :: encodeList bs

/-- Reads an array whose type fixes its length `n`; another length is read too, and refused by the operation. -/
def decodeFixed (n : Nat) : List Byte → Except DecodeError (List Byte × List Byte)
  | [] => .error .truncated
  | t :: r =>
    if t = 0 then (if n ≤ r.length then .ok (r.take n, r.drop n) else .error .truncated)
    else if t = 1 then decodeList r
    else .error .badOperandCode

/-- One byte of operand. -/
def decodeByte : List Byte → Except DecodeError (Byte × List Byte)
  | [] => .error .truncated
  | b :: r => .ok (b, r)

/-- A bit in one byte. -/
def encodeBit (b : Bit) : Byte := if b then 1 else 0

/-- A mode in one byte, `Transmit` 0, `Receive` 1, `Configure` 2. -/
def encodeMode : RadioMode → Byte
  | .transmit => 0
  | .receive => 1
  | .configure => 2

/-- Reads a bit. -/
def decodeBit (r : List Byte) : Except DecodeError (Bit × List Byte) :=
  match decodeByte r with
  | .ok (b, k) => if b = 0 then .ok (false, k) else if b = 1 then .ok (true, k) else .error .badOperandCode
  | .error e => .error e

/-- Reads a mode. -/
def decodeMode (r : List Byte) : Except DecodeError (RadioMode × List Byte) :=
  match decodeByte r with
  | .ok (b, k) =>
    if b = 0 then .ok (.transmit, k)
    else if b = 1 then .ok (.receive, k)
    else if b = 2 then .ok (.configure, k)
    else .error .badOperandCode
  | .error e => .error e

/-- Reads a number of ticks, at least 1. -/
def decodeTicks (r : List Byte) : Except DecodeError (Nat × List Byte) :=
  match decodeList r with
  | .ok (ds, k) => .ok (undigits ds + 1, k)
  | .error e => .error e

/-- Puts a constructor on an operand that was read. -/
def withOperand {α : Type} (f : α → Instr) : Except DecodeError (α × List Byte) → Except DecodeError (Instr × List Byte)
  | .ok (a, k) => .ok (f a, k)
  | .error e => .error e

end Codec

/-- The ordinal of an operation in the list R90. -/
def ordinal : Instr → Nat
  | .timerArm _ => 0
  | .timerDisarm => 1
  | .transmitByte _ => 2
  | .timerEvent => 3
  | .armReceive => 4
  | .edgeEvent => 5
  | .pollReceivedByte => 6
  | .writeLine _ => 7
  | .clockOutBit _ => 8
  | .clockOutByte _ => 9
  | .initializeLines => 10
  | .configure _ => 11
  | .setMode _ => 12
  | .clockInBit => 13
  | .clockInByte => 14
  | .transmitPacket _ => 15
  | .hasData => 16
  | .receivePacket => 17

/-- The call whose ordinal is `n`, its operands read from `r`; `w` is `PAYLOAD_WIDTH`. -/
def decodeOperands (w n : Nat) (r : List Byte) : Except DecodeError (Instr × List Byte) :=
  match n with
  | 0 => Codec.withOperand .timerArm (Codec.decodeTicks r)
  | 1 => .ok (.timerDisarm, r)
  | 2 => Codec.withOperand .transmitByte (Codec.decodeByte r)
  | 3 => .ok (.timerEvent, r)
  | 4 => .ok (.armReceive, r)
  | 5 => .ok (.edgeEvent, r)
  | 6 => .ok (.pollReceivedByte, r)
  | 7 => Codec.withOperand .writeLine (Codec.decodeList r)
  | 8 => Codec.withOperand .clockOutBit (Codec.decodeBit r)
  | 9 => Codec.withOperand .clockOutByte (Codec.decodeByte r)
  | 10 => .ok (.initializeLines, r)
  | 11 => Codec.withOperand .configure (Codec.decodeFixed Config.configLen r)
  | 12 => Codec.withOperand .setMode (Codec.decodeMode r)
  | 13 => .ok (.clockInBit, r)
  | 14 => .ok (.clockInByte, r)
  | 15 => Codec.withOperand .transmitPacket (Codec.decodeFixed w r)
  | 16 => .ok (.hasData, r)
  | 17 => .ok (.receivePacket, r)
  | n => .error (.noSuchOperation n)

/-- Reads one call from the front of a script and gives it with the rest; `w` is `PAYLOAD_WIDTH`. Total: bytes that are
no call are rejected by name. -/
def decode (w : Nat) : List Byte → Except DecodeError (Instr × List Byte)
  | [] => .error .truncated
  | op :: r => decodeOperands w (op.toNat % 32) r

/-- The operand bytes of a call. -/
def encodeOperands (w : Nat) : Instr → List Byte
  | .timerArm d => Codec.encodeList (Codec.digits (d - 1) (d - 1))
  | .transmitByte v => [v]
  | .writeLine text => Codec.encodeList text
  | .clockOutBit b => [Codec.encodeBit b]
  | .clockOutByte x => [x]
  | .configure word => Codec.encodeFixed Config.configLen word
  | .setMode m => [Codec.encodeMode m]
  | .transmitPacket b => Codec.encodeFixed w b
  | .timerDisarm | .timerEvent | .armReceive | .edgeEvent | .pollReceivedByte | .initializeLines => []
  | .clockInBit | .clockInByte | .hasData | .receivePacket => []

/-- The bytes of a call. -/
def encode (w : Nat) (i : Instr) : List Byte := BitVec.ofNat 8 (ordinal i) :: encodeOperands w i

/-- The first `k` bytes of a table word, the first byte in the least significant bits. -/
def wordBytes : Nat → Nat → List Byte
  | 0, _ => []
  | k + 1, x => BitVec.ofNat 8 x :: wordBytes k (x / 256)

/-- A table word of `nbits` bits with every later bit of the call zero, as bytes; long enough for the longest
fixed-length call at payload width `w`. -/
def tableBytes (w nbits x : Nat) : List Byte :=
  wordBytes ((nbits + 7) / 8) x ++ List.replicate (w + Config.configLen + 1) 0

/-- The bytes of the one call a table word stands for: the bytes read by the decoder, all of them where it refuses. -/
def tableCall (w nbits x : Nat) : List Byte :=
  match decode w (tableBytes w nbits x) with
  | .ok (_, k) => (tableBytes w nbits x).take ((tableBytes w nbits x).length - k.length)
  | .error _ => tableBytes w nbits x

/-- The host's question: the instruction the decoder reads from a table word, at the reference payload width. -/
def decodeTableWord (nbits w : Nat) : Option Instr :=
  match decode Params.reference.payloadWidth (tableBytes Params.reference.payloadWidth nbits w) with
  | .ok (i, _) => some i
  | .error _ => none

end Sys2Proof
end

