-- ==== Sys2Proof/Machine/Tick.lean ====
section
/-! DEFINITION. A tick of the time base with the events that fall on it (40 R110, R111, 60 R232 to R236), and fetching the
host's next call (00 R13). -/

namespace Sys2Proof.Machine

open Sys2Proof

/-- The peer's level at the next tick: the next listed one, else a free one (00 R11). -/
def nextRxd (s : State) : Bit :=
  match s.env.rxdIn with
  | b :: _ => b
  | [] => Config.freeRxd (s.now + 1)

/-- `now` increases by one and `RXD` takes the peer's level; a fall from 1 to 0 is seen at this tick only (40 R110,
60 R232). -/
def advanceClock (s : State) : State :=
  { s with now := s.now + 1, env.rxd := nextRxd s, env.rxdFell := s.env.rxd && !nextRxd s,
           env.rxdIn := s.env.rxdIn.tail }

/-- The compare event at this tick, where the timer environment fires it (00 R13; log 31). -/
def compareEvent (s : State) : State := if s.env.timerFires then deliverTimer s else s

/-- One tick: the clock advances, then the events due at the new tick are taken, before any micro-step of the main
context at that tick (60 R236). The two are never both due (10 R43 I1); where a state has both, the timer's goes first
(D27 allows either; log 13). -/
def tick (s : State) : State := deliverEdge (compareEvent (advanceClock s))

/-- The refusal of a script whose next bytes are no call. -/
def decodeRefusal : DecodeError → Refusal
  | .noSuchOperation n => .noSuchOperation n
  | .truncated => .callTruncated
  | .badOperandCode => .badOperandCode

/-- The next call of the script and the script after it. -/
def fetch (s : State) : Except DecodeError (Instr × List Byte) := decode s.params.payloadWidth s.main.script

/-- The state from which the next step fetches the call a table word stands for (log 6). -/
def placeCall (s : State) (nbits w : Nat) : State :=
  { s with main.script := tableCall s.params.payloadWidth nbits w ++ s.main.script, main.cont := [], main.stall := 0 }

end Sys2Proof.Machine
end

