-- ==== Sys2Proof/Machine/Issue.lean ====
section
/-! DEFINITION. What the main context does when it moves (00 R11, R13): the operation in progress goes on, else the host
issues its next call. -/

namespace Sys2Proof.Machine

open Sys2Proof

/-- A turn of a host whose call script is infinite, after the listed calls: a call or a tick, as the free value has it
(00 R13; log 30). -/
def hostTurn (s : State) : Host.Outcome State Fault Refusal :=
  match Config.freeCall s.main.hostTurns with
  | some i => exec i { s with main.hostTurns := s.main.hostTurns + 1 }
  | none => .next (tick { s with main.hostTurns := s.main.hostTurns + 1 })

/-- The host issues its next call; a host whose script is over lets time pass (log 28), one whose script is infinite goes
on calling (log 30). -/
def issueCall (s : State) : Host.Outcome State Fault Refusal :=
  match s.main.script with
  | [] => if s.main.endless then hostTurn s else .next (tick s)
  | _ :: _ =>
    match fetch s with
    | .ok (i, rest) => exec i { s with main.script := rest }
    | .error e => .refused (decodeRefusal e)

/-- The main context moves. -/
def mainMove (s : State) : Host.Outcome State Fault Refusal :=
  match s.main.cont with
  | [] => issueCall s
  | m :: ms => runMicros [] (m :: ms) s

/-- The main context lets one of the ticks it has to let pass go by. -/
def stalledTick (n : Nat) (s : State) : State := tick { s with main.stall := n }

end Sys2Proof.Machine
end

