-- ==== Sys2Proof/Machine/Step.lean ====
section
/-! DEFINITION. One step of the block and its environment (00 R11, 20_memory R67, R71): a tick where the main context must
let time pass, else a move of the main context. -/

namespace Sys2Proof.Machine

open Sys2Proof

/-- One step. -/
def step (s : State) : Host.Outcome State Fault Refusal :=
  match s.main.stall with
  | n + 1 => .next (stalledTick n s)
  | 0 => mainMove s

/-- The state whose next step fetches and runs the call a table word stands for: its bytes in front of the script, the
main context between two operations (log 6). -/
def State.withFetchWord (s : State) (nbits w : Nat) : State := placeCall s nbits w

end Sys2Proof.Machine
end

