-- ==== Sys2Proof/Machine/FrontEnd.lean ====
section
/-! DEFINITION. The reference front-end of 95_test_vectors section 4.2 (the spec's own test fixture, D25): how it reacts to
the entries of a driver's line trace, and when the answers in a trace are the ones it gives. It is no part of the block and
no meaning uses it (log 26). -/

namespace Sys2Proof.Machine

open Sys2Proof

/-- One front-end of the reference pair, with the levels it last saw on the driver's lines. -/
structure FrontEnd where
  ce : Bit
  cs : Bit
  clk : Bit
  data : Bit
  /-- the bits shifted in while `CS` = 1 -/
  cfg : List Bit
  configured : Bool
  /-- `none` before the first role stream -/
  role : Option RadioMode
  /-- the bits taken from `DATA` in Transmit role -/
  txBits : List Bit
  /-- the received bits not clocked out yet -/
  rx : Option (List Bit)
  dr : Bit
  /-- the payloads handed to the partner, oldest first -/
  sent : List (List Bit)
  /-- a stream of a length the fixture does not know was latched -/
  failed : Bool
  deriving DecidableEq, Repr

/-- The fixture's start state. -/
def FrontEnd.start : FrontEnd where
  ce := false
  cs := false
  clk := false
  data := false
  cfg := []
  configured := false
  role := none
  txBits := []
  rx := none
  dr := false
  sent := []
  failed := false

/-- `CS` falls: the stream shifted in is latched. -/
def frontEndLatch (f : FrontEnd) : FrontEnd :=
  if f.cfg.length = 112 then { f with cs := false, cfg := [], configured := true }
  else
    match f.cfg, f.configured with
    | [b], true => { f with cs := false, cfg := [], role := some (if b then .receive else .transmit) }
    | _, _ => { f with cs := false, cfg := [], failed := true }

/-- `CE` falls. -/
def frontEndSend (f : FrontEnd) : FrontEnd :=
  if f.role = some .transmit then
    { f with ce := false, txBits := [],
             sent := if 16 < f.txBits.length then f.sent ++ [f.txBits.drop 16] else f.sent }
  else { f with ce := false }

/-- `CLK` rises: one bit is taken from `DATA`. -/
def frontEndRise (f : FrontEnd) : FrontEnd :=
  if f.cs && !f.ce then { f with clk := true, cfg := f.cfg ++ [f.data] }
  else if f.ce && !f.cs && decide (f.role = some .transmit) then { f with clk := true, txBits := f.txBits ++ [f.data] }
  else { f with clk := true }

/-- `CLK` falls: the next received bit is presented, and after the last one `DR` falls. -/
def frontEndFall (f : FrontEnd) : FrontEnd :=
  if !f.ce && !f.cs && decide (f.role = some .receive) then
    match f.rx with
    | some (_ :: b :: r) => { f with clk := false, rx := some (b :: r) }
    | some _ => { f with clk := false, rx := none, dr := false }
    | none => { f with clk := false }
  else { f with clk := false }

/-- The reaction to one trace entry of the driver. -/
def frontEndReact (f : FrontEnd) : Entry → FrontEnd
  | .set .data v => { f with data := v }
  | .set .ce v => if f.ce && !v then frontEndSend f else { f with ce := v }
  | .set .cs v => if f.cs && !v then frontEndLatch f else { f with cs := v }
  | .set .clk v => if !f.clk && v then frontEndRise f else if f.clk && !v then frontEndFall f else f
  | .set .txd _ => f
  | .dir _ _ => f
  | .sample _ _ => f
  | .delay _ => f

/-- The reaction to a piece of trace. -/
def frontEndRun (f : FrontEnd) (es : List Entry) : FrontEnd := es.foldl frontEndReact f

/-- Whether an answer in the trace is the one the front-end gives at that point: every `DR` sample, and the `DATA`
samples while it drives `DATA` (otherwise they are arbitrary). -/
def frontEndAnswers (f : FrontEnd) : Entry → Bool
  | .sample .dr v => decide (v = f.dr)
  | .sample .data v =>
    match f.rx with
    | some (b :: _) => if f.role = some .receive then decide (v = b) else true
    | _ => true
  | .sample .rxd _ => true
  | .set _ _ => true
  | .dir _ _ => true
  | .delay _ => true

/-- Whether every answer in a piece of trace is the front-end's. -/
def frontEndAgrees : FrontEnd → List Entry → Bool
  | _, [] => true
  | f, e :: es => frontEndAnswers f e && frontEndAgrees (frontEndReact f e) es

/-- A payload arrives from the partner: taken only in Receive role with `CE` = 1 and nothing waiting. -/
def frontEndArrive (f : FrontEnd) (payload : List Bit) : FrontEnd :=
  if decide (f.role = some .receive) && f.ce && decide (f.rx = none) then { f with rx := some payload, dr := true } else f

end Sys2Proof.Machine
end

