-- ==== Sys2Proof/Safety.lean ====
section
/-! DEFINITION. What counts as a safe run, in the terms the statements use: the invariants of 10_state R43 with the phase
table of R26 and the mode table of 42 R176, and the quantities the spec's timing and stream rules speak of. -/

namespace Sys2Proof.Machine

open Sys2Proof

/-! ### The serial engine -/

/-- The source phases of R26, one name per row of its table; the row "RX complete" is a case of "serial idle". -/
inductive Phase where
  | idle
  | txStart
  | txDataBits
  | txStop
  | txCompletion
  | rxArmed
  | rxStartCentre
  | rxDataBit
  | rxCompletion
  deriving DecidableEq, Repr

/-- The phase table of R26; `none` where no row fits. -/
def serialPhase (e : Serial) : Option Phase :=
  match e.txBusy, e.timerEnable, e.edgeEnable, e.rxSync, e.mode with
  | false, false, false, false, _ => some .idle
  | true, true, false, false, .tx =>
    if e.bitIndex = 0 then some .txStart
    else if e.bitIndex ≤ 8 then some .txDataBits
    else if e.bitIndex = 9 then some .txStop
    else if e.bitIndex = 10 then some .txCompletion
    else none
  | false, false, true, false, .rx => if e.bitIndex = 0 then some .rxArmed else none
  | false, true, false, true, .rx => if e.bitIndex = 0 then some .rxStartCentre else none
  | false, true, false, false, .rx =>
    if e.bitIndex ≤ 7 then some .rxDataBit else if e.bitIndex = 8 then some .rxCompletion else none
  | _, _, _, _, _ => none

/-- R43 I1 to I5 on the serial engine. -/
abbrev SerialInv (e : Serial) : Prop :=
  ¬(e.timerEnable = true ∧ e.edgeEnable = true)
    ∧ (e.txBusy = true → e.mode = .tx ∧ e.timerEnable = true ∧ e.edgeEnable = false)
    ∧ (e.edgeEnable = true → e.mode = .rx ∧ e.bitIndex = 0 ∧ e.rxSync = false)
    ∧ (e.rxSync = true → e.mode = .rx ∧ e.timerEnable = true ∧ e.bitIndex = 0)
    ∧ (e.timerEnable = true → e.mode = .rx → e.bitIndex ≤ 8)
    ∧ (e.timerEnable = true → e.mode = .tx → e.bitIndex ≤ 10 ∧ e.txBusy = true)

/-- A line of an arming: between it and the line before, the invariants of R43 need not hold (41 R131 lines 3 to 7, R135
lines 3 to 6). -/
def armingLine : Micro → Bool
  | .loadTxShift _ | .clearBitIndex | .setSerialMode _ | .setTxBusy | .armLead | .clearRxSync | .enableEdge => true
  | .check _ _ | .set _ _ | .setFromBuffer _ _ | .dir _ _ | .setLineDirSet | .delay _ | .setConfigured => false
  | .setRadioMode _ | .bufferWrite _ _ | .bufferTake _ | .sampleData | .clearX | .shiftX | .waitTxDone => false
  | .waitDrInactive | .ret _ | .retBit | .retByte | .retBuffer => false

/-- How far the main context is in `transmitByte` or `armReceive`, named by what the lines before have established. -/
inductive Stage where
  /-- outside both, or before line 1 -/
  | rest
  /-- after line 1 of either -/
  | notBusy
  /-- after `transmitByte` line 2 or 3 -/
  | quiet
  /-- after `transmitByte` line 4 -/
  | quietZero
  /-- after `transmitByte` line 5 -/
  | quietTx
  /-- after `transmitByte` line 6 -/
  | busy
  /-- after `armReceive` line 2 -/
  | timerOff
  /-- after `armReceive` line 3 -/
  | rxMode
  /-- after `armReceive` line 4 -/
  | rxZero
  /-- after `armReceive` line 5 -/
  | rxReady
  deriving DecidableEq, Repr

/-- The stage after a line, `none` where that line does not come next. -/
def stageStep : Stage → Micro → Option Stage
  | .rest, m => if m = .check .txBusy .txReentry ∨ m = .check .txBusy .serialOverlap then some .notBusy
      else match m with
        | .check _ _ => none
        | _ => if armingLine m then none else some .rest
  | .notBusy, .check .armed _ => some .quiet
  | .notBusy, .check .timerOn _ => some .timerOff
  | .quiet, .loadTxShift _ => some .quiet
  | .quiet, .clearBitIndex => some .quietZero
  | .quietZero, .setSerialMode .tx => some .quietTx
  | .quietTx, .setTxBusy => some .busy
  | .busy, .armLead => some .rest
  | .timerOff, .setSerialMode .rx => some .rxMode
  | .rxMode, .clearBitIndex => some .rxZero
  | .rxZero, .clearRxSync => some .rxReady
  | .rxReady, .enableEdge => some .rest
  | _, _ => none

/-- The lines still to run follow each other as `transmitByte` and `armReceive` have them. -/
def stageRun : Stage → List Micro → Bool
  | g, [] => decide (g = .rest)
  | g, m :: ms =>
    match stageStep g m with
    | some g' => stageRun g' ms
    | none => false

/-- What holds of the engine at a stage: R43 I1 to I5 outside an arming; within it, what the lines so far have found and
written. -/
def stageHolds : Stage → Serial → Prop
  | .rest, e => SerialInv e
  | .notBusy, e => SerialInv e ∧ e.txBusy = false
  | .quiet, e => e.txBusy = false ∧ e.timerEnable = false ∧ e.edgeEnable = false ∧ e.rxSync = false
  | .quietZero, e =>
    e.txBusy = false ∧ e.timerEnable = false ∧ e.edgeEnable = false ∧ e.rxSync = false ∧ e.bitIndex = 0
  | .quietTx, e =>
    e.txBusy = false ∧ e.timerEnable = false ∧ e.edgeEnable = false ∧ e.rxSync = false ∧ e.bitIndex = 0 ∧ e.mode = .tx
  | .busy, e =>
    e.txBusy = true ∧ e.timerEnable = false ∧ e.edgeEnable = false ∧ e.rxSync = false ∧ e.bitIndex = 0 ∧ e.mode = .tx
  | .timerOff, e => SerialInv e ∧ e.txBusy = false ∧ e.timerEnable = false
  | .rxMode, e => SerialInv e ∧ e.txBusy = false ∧ e.timerEnable = false ∧ e.mode = .rx
  | .rxZero, e => SerialInv e ∧ e.txBusy = false ∧ e.timerEnable = false ∧ e.mode = .rx ∧ e.bitIndex = 0
  | .rxReady, e =>
    SerialInv e ∧ e.txBusy = false ∧ e.timerEnable = false ∧ e.mode = .rx ∧ e.bitIndex = 0 ∧ e.rxSync = false

/-- The serial engine's invariant, whatever the schedule: the main context is at some stage, and what holds there holds. -/
def SerialOrder (s : State) : Prop := ∃ g, stageRun g s.main.cont = true ∧ stageHolds g s.serial

/-- The main context is not inside an arming. -/
def outsideArming (s : State) : Prop := ∀ m, s.main.cont.head? = some m → armingLine m = false

/-- A due time of an enabled timer lies ahead of `now`, and no further than the reach of the parameters (40 R115). -/
def TimerWithinReach (s : State) : Prop :=
  s.serial.timerEnable = true → s.now < s.serial.timerDue ∧ s.serial.timerDue ≤ s.now + s.params.reach

/-- The compare of a timer of width `TIMER_WIDTH`, which wraps (40 R115). -/
def wrappedCompare (s : State) : Prop :=
  match s.params.timerWidth with
  | none => s.now = s.serial.timerDue
  | some w => s.now % 2 ^ w = s.serial.timerDue % 2 ^ w

/-- The timer event completes its transfer (41 R133, R134: the last arm of each). -/
def completesTransfer (e : Serial) : Prop :=
  match e.mode with
  | .tx => 10 ≤ e.bitIndex
  | .rx => e.rxSync = false ∧ 8 ≤ e.bitIndex

/-- A micro-step that does not write `TXD`; no line of an operation does (10 R45). -/
def sparesTxd : Micro → Bool
  | .set .txd _ => false
  | _ => true

/-! ### The radio driver -/

/-- The radio driver without the level of `DATA` and the packet buffer: what the mode table of R176 speaks of. -/
structure RadioShape where
  ce : Bit
  cs : Bit
  clk : Bit
  ceDir : Dir
  csDir : Dir
  clkDir : Dir
  drDir : Dir
  dataDir : Dir
  lineDirSet : Bool
  configured : Bool
  radioMode : RadioMode
  deriving DecidableEq, Repr

/-- The shape of a radio driver state. -/
def radioShape (r : Radio) : RadioShape where
  ce := r.ce
  cs := r.cs
  clk := r.clk
  ceDir := r.ceDir
  csDir := r.csDir
  clkDir := r.clkDir
  drDir := r.drDir
  dataDir := r.dataDir
  lineDirSet := r.lineDirSet
  configured := r.configured
  radioMode := r.radioMode

/-- What a micro-step does to the shape. -/
def shapeStep : Micro → RadioShape → RadioShape
  | .set .ce v, r => { r with ce := v }
  | .set .cs v, r => { r with cs := v }
  | .set .clk v, r => { r with clk := v }
  | .dir .ce d, r => { r with ceDir := d }
  | .dir .cs d, r => { r with csDir := d }
  | .dir .clk d, r => { r with clkDir := d }
  | .dir .data d, r => { r with dataDir := d }
  | .dir .dr d, r => { r with drDir := d }
  | .setLineDirSet, r => { r with lineDirSet := true }
  | .setConfigured, r => { r with configured := true }
  | .setRadioMode m, r => { r with radioMode := m }
  | .set .data _, r | .set .txd _, r | .setFromBuffer _ _, r | .delay _, r | .bufferWrite _ _, r => r
  | .bufferTake _, r | .sampleData, r | .clearX, r | .shiftX, r | .waitTxDone, r => r
  | .check _ _, r | .loadTxShift _, r | .clearBitIndex, r | .setSerialMode _, r | .setTxBusy, r | .armLead, r => r
  | .clearRxSync, r | .enableEdge, r => r
  | .waitDrInactive, r | .ret _, r | .retBit, r | .retByte, r | .retBuffer, r => r

/-- The lines between two operations (42 R176, "Lines at return"; 10 R43 I6, I7): `CLK` = 0, `CS` = 0, and `CE`,
`DATA_DIR` and the flags as the mode says. -/
abbrev Settled (r : RadioShape) : Prop :=
  r.clk = false ∧ r.cs = false
    ∧ (r.ce = true ↔ r.radioMode = .receive)
    ∧ (r.lineDirSet = true → (r.dataDir = .input ↔ r.radioMode = .receive))
    ∧ (r.lineDirSet = true → r.ceDir = .output ∧ r.csDir = .output ∧ r.clkDir = .output ∧ r.drDir = .input)
    ∧ (r.configured = true → r.lineDirSet = true)
    ∧ (r.radioMode ≠ .configure → r.configured = true)

/-- What holds at every micro-step: `CE` = 0 while `CS` = 1 (42 R180). -/
abbrev Windowed (r : RadioShape) : Prop := r.cs = true → r.ce = false

/-- What a micro-step finds when it runs: the driver puts a level on `DATA` only while `DATA_DIR` = Out and samples it
only while `DATA_DIR` = In (42 R177). -/
def directionOk : Micro → RadioShape → Prop
  | .set .data _, r => r.dataDir = .output
  | .setFromBuffer _ _, r => r.dataDir = .output
  | .sampleData, r => r.dataDir = .input
  | _, _ => True

/-- The micro-steps still to run keep the windows and the directions, and leave the lines settled. -/
def Orderly : RadioShape → List Micro → Prop
  | r, [] => Settled r
  | r, m :: ms => Windowed r ∧ directionOk m r ∧ Orderly (shapeStep m r) ms

/-- The radio driver's invariant (10 R43 I6, I7; 42 R176, R177, R180). -/
def RadioInv (s : State) : Prop := Orderly (radioShape s.radio) s.main.cont

/-! ### The host's calls -/

/-- Entries stamped with one time. -/
def stampAll (time : Nat) (es : List Entry) : List Stamped := es.map fun e => ⟨time, e⟩

/-- The call the next step issues, if it issues one: the script's next, or that of a host whose script is infinite. -/
def nextCall (s : State) : Option Instr :=
  if s.main.stall = 0 ∧ s.main.cont = [] then
    match s.main.script with
    | [] => if s.main.endless then Config.freeCall s.main.hostTurns else none
    | _ :: _ =>
      match fetch s with
      | .ok (i, _) => some i
      | .error _ => none
  else none

/-- The next step is a tick: the main context lets time pass, or the host has nothing to call. -/
def stepTicks (s : State) : Prop := 0 < s.main.stall ∨ (s.main.cont = [] ∧ s.main.script = [] ∧ nextCall s = none)

/-- The next step takes the timer event: at the tick it is, or as the operation the script names. -/
def takesTimerEvent (s : State) : Prop :=
  (stepTicks s ∧ s.env.timerFires = true ∧ timerEventDue (advanceClock s) = true)
    ∨ (nextCall s = some .timerEvent ∧ timerEventDue s = true)

/-- The next step takes the edge event. -/
def takesEdgeEvent (s : State) : Prop :=
  (stepTicks s ∧ edgeEventDue (advanceClock s) = true) ∨ (nextCall s = some .edgeEvent ∧ edgeEventDue s = true)

/-- The host keeps to its boundary at this step: what it calls, if anything, is one of its ten operations (00 R13). -/
def HostKeeps (s : State) : Prop := ∀ i, nextCall s = some i → i.isHostOp = true

/-- `transmitByte` lines 1 and 2 (41 R131). -/
def transmitByteChecks (s : State) : List (Bool × Fault) :=
  [(s.serial.txBusy, .txReentry), (s.serial.timerEnable || s.serial.edgeEnable, .serialOverlap)]

/-- `armReceive` lines 1 and 2 (41 R135). -/
def armReceiveChecks (s : State) : List (Bool × Fault) :=
  [(s.serial.txBusy, .serialOverlap), (s.serial.timerEnable, .rearmMidByte)]

/-- The checks of each operation, with the fault each ends in (60 R231); `writeLine` has those of its first byte. -/
def callChecks (s : State) : Instr → List (Bool × Fault)
  | .transmitByte _ => transmitByteChecks s
  | .writeLine text => if text = [] then [] else transmitByteChecks s
  | .armReceive => armReceiveChecks s
  | .initializeLines => initializeLinesChecks s
  | .configure _ => configureChecks s
  | .setMode _ => setModeChecks s
  | .transmitPacket _ => packetChecks .transmit s
  | .receivePacket => packetChecks .receive s
  | .hasData => hasDataChecks s
  | .pollReceivedByte | .timerArm _ | .timerDisarm | .timerEvent | .edgeEvent => []
  | .clockOutBit _ | .clockOutByte _ | .clockInBit | .clockInByte => []

/-- What a call leaves alone whatever it does: the parameters, the time, the context, the script, the line `RXD` and its
edge detector; and the line trace only grows, by entries of this tick. -/
abbrev CallFrame (s t : State) : Prop :=
  t.params = s.params ∧ t.now = s.now ∧ t.main.context = s.main.context ∧ t.main.script = s.main.script
    ∧ t.env.rxd = s.env.rxd ∧ t.env.rxdIn = s.env.rxdIn
    ∧ ∃ es, t.trace = s.trace ++ stampAll s.now es

/-- The main context is between two operations and nothing delays it: the host calls now, in the reference time base. -/
abbrev Ready (s : State) : Prop :=
  s.main.context = .main ∧ s.main.cont = [] ∧ s.main.stall = 0 ∧ s.env.pace = []

/-! ### Streams and times -/

/-- The entries a run from `s` to `t` appended to the line trace. -/
def newEntries (s t : State) : List Entry := (t.trace.drop s.trace.length).map Stamped.entry

/-- The trace entries of an outbound stream, cell by cell (30 R86). -/
def outEntries (cells : List Bit) : List Entry := cells.flatMap fun b => [.set .data b, .set .clk true, .set .clk false]

/-- The trace entries of an inbound stream with these samples, cell by cell (30 R87). -/
def inEntries (samples : List Bit) : List Entry :=
  samples.flatMap fun b => [.sample .data b, .set .clk true, .set .clk false]

/-- The coming `n` answers to `Sample(DATA)`, from wherever the environment takes them. -/
def dataAnswers : Nat → State → List Bit
  | 0, _ => []
  | n + 1, s => (answerData s).1 :: dataAnswers n (answerData s).2

/-- The state after `n` answers to `Sample(DATA)` were taken. -/
def afterAnswers : Nat → State → State
  | 0, s => s
  | n + 1, s => afterAnswers n (answerData s).2

/-- The byte whose bits, most significant first, are these eight samples (30 R89). -/
def assembleByte (samples : List Bit) : Byte := samples.foldl shiftInBottom 0

/-- The `w` bytes of an inbound stream (30 R85). -/
def assemblePayload : Nat → List Bit → List Byte
  | 0, _ => []
  | w + 1, samples => assembleByte (samples.take 8) :: assemblePayload w (samples.drop 8)

/-- The trace of a serial frame whose start cell is driven at tick `start` (41 R139). -/
def frameTrace (p : Params) (start : Nat) (v : Byte) : List Stamped :=
  (frameCells v).zipIdx.map fun c => ⟨start + c.2 * p.bitPeriod, .set .txd c.1⟩

/-- An entry of the radio driver's lines and delays; the others are the serial engine's. -/
def isRadioEntry : Entry → Bool
  | .set .txd _ => false
  | .set .ce _ | .set .cs _ | .set .clk _ | .set .data _ => true
  | .dir _ _ => true
  | .sample .rxd _ => false
  | .sample .data _ | .sample .dr _ => true
  | .delay _ => true

/-- The radio driver's part of what a run from `s` to `t` appended to the line trace. -/
def radioEntries (s t : State) : List Entry := (newEntries s t).filter isRadioEntry

/-- `n` steps, stopping at the first fault or refusal. -/
def steps : Nat → State → Host.Outcome State Fault Refusal
  | 0, s => .next s
  | n + 1, s =>
    match step s with
    | .next t => steps n t
    | .fault f => .fault f
    | .refused r => .refused r

/-- How many steps a `Delay` of `d` ticks takes after the step that began it: none where it is zero, else its ticks and
the move after them. -/
def delaySteps (d : Nat) : Nat := if d = 0 then 0 else d + 1

/-- `n` ticks in which the main context does not move. -/
def ticks : Nat → State → State
  | 0, s => s
  | n + 1, s => ticks n (tick s)

/-- The levels of `TXD` after each of the coming `n` ticks. -/
def txdWave : Nat → State → List Bit
  | 0, _ => []
  | n + 1, s => (tick s).serial.txd :: txdWave n (tick s)

end Sys2Proof.Machine
end

