-- ==== Sys2Proof/Certificates/Slice0/Obligations.lean ====
section
/-! DEFINITION. The statements for the provers, each from the rules of spec/ its docstring names. Where a docstring says
"decision D<n>", the spec marks that clause as its own choice; "log n" is this model's assumption log. -/

open Sys2Proof Sys2Proof.Machine

/-! ### Encoding -/

/-- Decoding the bytes of any well-formed call gives it back, with what stands after it (the byte form is the model's own,
log 5). -/
def Obligations.DecodeOfEncodeIsIdentity : Prop :=
  ∀ (p : Params) (i : Instr) (rest : List Byte), i.WellFormed p = true →
    decode p.payloadWidth (encode p.payloadWidth i ++ rest) = .ok (i, rest)

/-- Words written from the ordinals of R90, with operands in the model's byte form (log 5), decode to their operations. -/
def Obligations.OrdinalWordsDecode : Prop :=
  decode 6 [0b00000, 1, 0x02, 0] = .ok (.timerArm 3, [])
    ∧ decode 6 [0b00010, 0xA5] = .ok (.transmitByte 0xA5, [])
    ∧ decode 6 [0b00111, 1, 0x4F, 1, 0x4B, 0] = .ok (.writeLine [0x4F, 0x4B], [])
    ∧ decode 6 [0b01100, 1] = .ok (.setMode .receive, [])
    ∧ decode 6 [0b01111, 0, 6, 5, 4, 3, 2, 1] = .ok (.transmitPacket [6, 5, 4, 3, 2, 1], [])
    ∧ decode 6 [0b10001, 0b00110] = .ok (.receivePacket, [0b00110])

/-- A byte whose ordinal is none of R90's eighteen is rejected by name, and `step` refuses a script that begins with it. -/
def Obligations.UnlistedOrdinalsRefused : Prop :=
  ∀ (s : State) (op : Byte) (r : List Byte), 18 ≤ op.toNat % 32 → s.main.stall = 0 → s.main.cont = [] →
    s.main.script = op :: r →
    decode s.params.payloadWidth (op :: r) = .error (.noSuchOperation (op.toNat % 32))
      ∧ step s = .refused (.noSuchOperation (op.toNat % 32))

/-- Between two operations a step is `exec` of the call at the front of the script, on the state whose script is the rest
(00 R13; log 6); after an infinite script's listed calls it is `exec` of the call the free value names, or a tick where it
names none (log 30), and after a finite one it is a tick (log 28). -/
def Obligations.StepRunsDecodedCall : Prop :=
  (∀ (s : State) (i : Instr) (rest : List Byte), s.main.stall = 0 → s.main.cont = [] →
    decode s.params.payloadWidth s.main.script = .ok (i, rest) →
    step s = exec i { s with main.script := rest })
    ∧ ∀ s : State, s.main.stall = 0 → s.main.cont = [] → s.main.script = [] →
      (s.main.endless = true → step s =
        match Config.freeCall s.main.hostTurns with
        | some i => exec i { s with main.hostTurns := s.main.hostTurns + 1 }
        | none => .next (tick { s with main.hostTurns := s.main.hostTurns + 1 }))
      ∧ (s.main.endless = false → step s = .next (tick s))

/-! ### Reset -/

/-- R44 and R270 for every value of the parameters and of the registers they leave unspecified. The values are the spec's
own decision D22; the levels of `RXD`, the empty lists of the environment, the locals, the empty script and the timer that
fires are the model's (logs 3, 6, 9, 18, 30, 31). -/
def Obligations.ResetHoldsTable : Prop :=
  ∀ (p : Params) (u : Unspecified),
    let s := State.resetWith p u
    s.params = p ∧ s.now = 0 ∧ s.trace = []
      ∧ s.serial = { txShift := u.txShift, rxReg := u.rxReg, bitIndex := 0, receivedFlag := false, txBusy := false,
                     mode := u.mode, rxSync := false, timerEnable := false, timerDue := u.timerDue, edgeEnable := false,
                     txd := true }
      ∧ s.radio.ce = false ∧ s.radio.cs = false ∧ s.radio.clk = false ∧ s.radio.dataOut = false
      ∧ s.radio.dataDir = .input ∧ s.radio.lineDirSet = false ∧ s.radio.configured = false
      ∧ s.radio.radioMode = .configure ∧ s.radio.packetBuffer = u.packetBuffer
      ∧ pinLevel .txd s = some true ∧ pinLevel .ce s = none ∧ pinLevel .cs s = none ∧ pinLevel .clk s = none
      ∧ pinLevel .data s = none ∧ Ready s ∧ s.env.timerFires = true ∧ s.main.script = [] ∧ s.main.endless = false

/-- The invariants hold at reset, whatever the parameters and the unspecified registers; and reset is where the statement
about every step begins: the reference time base, outside an arming. -/
def Obligations.ResetMeetsInvariants : Prop :=
  ∀ (p : Params) (u : Unspecified),
    SerialInv (State.resetWith p u).serial ∧ SerialOrder (State.resetWith p u) ∧ RadioInv (State.resetWith p u)
      ∧ TimerWithinReach (State.resetWith p u)
      ∧ (State.resetWith p u).env.pace = [] ∧ outsideArming (State.resetWith p u)
      ∧ serialPhase (State.resetWith p u).serial = some .idle

/-! ### Bit clock -/

/-- R112: `TimerDue <- now + d; TimerEnable <- 1`, an old due time replaced; nothing else of the engine, no line and no
tick. -/
def Obligations.TimerArmSetsDueTime : Prop :=
  ∀ (d : Nat) (s : State), 1 ≤ d →
    ∃ t : State, exec (.timerArm d) s = .next t
      ∧ t.serial = { s.serial with timerDue := s.now + d, timerEnable := true }
      ∧ t.radio = s.radio ∧ t.trace = s.trace ∧ t.now = s.now

/-- R113: `TimerEnable <- 0`; `TimerDue` keeps its value; a disarmed timer's state is as before; and the next tick does not
read `TimerDue`: whatever it holds, the tick does the same, and only the arming by an edge overwrites it. -/
def Obligations.TimerDisarmClearsEnable : Prop :=
  ∀ s : State,
    ∃ t : State, exec .timerDisarm s = .next t
      ∧ t.serial = { s.serial with timerEnable := false }
      ∧ (s.serial.timerEnable = false → t.serial = s.serial)
      ∧ (∀ d : Nat, (tick { t with serial.timerDue := d }).serial =
          if edgeEventDue (advanceClock t) then (tick t).serial else { (tick t).serial with timerDue := d })
      ∧ t.radio = s.radio ∧ t.trace = s.trace ∧ t.now = s.now

/-- R114 with R111: a tick that reaches `TimerDue` while the timer is enabled reloads `TimerDue` before the handler runs,
whichever arm runs; at any other tick of an enabled timer, and at every tick of a timer that never fires (log 31), nothing
of the serial engine changes. R115: with a due time within reach, a compare that wraps at a width which exceeds the reach
finds the same ticks. -/
def Obligations.TimerFiresAndReloadsAtDueTick : Prop :=
  ∀ s : State, s.serial.timerEnable = true → s.serial.edgeEnable = false →
    (s.env.timerFires = true → s.now + 1 = s.serial.timerDue →
        (tick s).serial.timerDue = s.serial.timerDue + s.params.bitPeriod
          ∧ (tick s).serial = (timerHandler (timerReload (advanceClock s))).serial
          ∧ (tick s).now = s.serial.timerDue)
      ∧ (s.now + 1 ≠ s.serial.timerDue ∨ s.env.timerFires = false →
        (tick s).serial = s.serial ∧ (tick s).trace = s.trace)
      ∧ (TimerWithinReach s → s.params.widthSuffices →
        (wrappedCompare (advanceClock s) ↔ s.now + 1 = s.serial.timerDue))

/-! ### Serial engine: the events -/

/-- R133 (decisions D4, D5): the timer event in transmit mode, by `BitIndex`: start cell, data cell, stop cell,
completion. -/
def Obligations.TimerEventDrivesFrame : Prop :=
  ∀ s : State, s.serial.timerEnable = true → s.now = s.serial.timerDue → s.serial.mode = .tx →
    (s.serial.bitIndex = 0 →
        exec .timerEvent s =
          .next { s with serial.timerDue := s.serial.timerDue + s.params.bitPeriod, serial.txd := false,
                         serial.bitIndex := 1, trace := s.trace ++ [⟨s.now, .set .txd false⟩] })
      ∧ (1 ≤ s.serial.bitIndex → s.serial.bitIndex ≤ 8 →
        exec .timerEvent s =
          .next { s with serial.timerDue := s.serial.timerDue + s.params.bitPeriod,
                         serial.txd := s.serial.txShift.getLsbD 0, serial.txShift := s.serial.txShift >>> 1,
                         serial.bitIndex := s.serial.bitIndex + 1,
                         trace := s.trace ++ [⟨s.now, .set .txd (s.serial.txShift.getLsbD 0)⟩] })
      ∧ (s.serial.bitIndex = 9 →
        exec .timerEvent s =
          .next { s with serial.timerDue := s.serial.timerDue + s.params.bitPeriod, serial.txd := true,
                         serial.bitIndex := 10, trace := s.trace ++ [⟨s.now, .set .txd true⟩] })
      ∧ (s.serial.bitIndex = 10 →
        exec .timerEvent s =
          .next { s with serial.timerDue := s.serial.timerDue + s.params.bitPeriod, serial.timerEnable := false,
                         serial.txBusy := false })

/-- R134 (decisions D6, D8): the timer event in receive mode: the start centre takes nothing, the next eight take one
sample each into bit 7 with a shift right, the last completes without a sample. -/
def Obligations.TimerEventSamplesFrame : Prop :=
  ∀ s : State, s.serial.timerEnable = true → s.now = s.serial.timerDue → s.serial.mode = .rx →
    (s.serial.rxSync = true →
        exec .timerEvent s =
          .next { s with serial.timerDue := s.serial.timerDue + s.params.bitPeriod, serial.rxSync := false })
      ∧ (s.serial.rxSync = false → s.serial.bitIndex ≤ 7 →
        ∃ r : Byte, r.getLsbD 7 = s.env.rxd ∧ (∀ j < 7, r.getLsbD j = s.serial.rxReg.getLsbD (j + 1)) ∧
          exec .timerEvent s =
            .next { s with serial.timerDue := s.serial.timerDue + s.params.bitPeriod, serial.rxReg := r,
                           serial.bitIndex := s.serial.bitIndex + 1,
                           trace := s.trace ++ [⟨s.now, .sample .rxd s.env.rxd⟩] })
      ∧ (s.serial.rxSync = false → s.serial.bitIndex = 8 →
        exec .timerEvent s =
          .next { s with serial.timerDue := s.serial.timerDue + s.params.bitPeriod, serial.timerEnable := false,
                         serial.receivedFlag := true })

/-- R136: `EdgeEnable <- 0; RxSync <- 1; TimerArm(HALF_BIT)`, in one step at the tick of the edge. -/
def Obligations.EdgeEventStartsSampling : Prop :=
  ∀ s : State, s.serial.edgeEnable = true → s.env.rxdFell = true →
    ∃ t : State, exec .edgeEvent s = .next t
      ∧ t.serial = { s.serial with edgeEnable := false, rxSync := true, timerDue := s.now + s.params.halfBit,
                                   timerEnable := true }
      ∧ t.now = s.now ∧ t.radio = s.radio ∧ t.main = s.main ∧ t.trace = s.trace

/-- An event whose source is disabled, or whose condition does not hold, leaves no trace (R42, R111, R234, decision D9; that
the handler operation without its event does nothing is the model's choice, log 8). -/
def Obligations.NoEventWithoutItsCondition : Prop :=
  ∀ s : State,
    ((s.serial.timerEnable = false ∨ s.now ≠ s.serial.timerDue) → exec .timerEvent s = .next s)
      ∧ ((s.serial.edgeEnable = false ∨ s.env.rxdFell = false) → exec .edgeEvent s = .next s)

/-- R232: while armed, a tick starts sampling exactly when `RXD` goes from 1 to 0 at it; and with both sources disabled a
tick leaves the serial engine alone whatever `RXD` does (R42, decision D9). -/
def Obligations.OnlyFallingEdgeWhileArmedStartsReception : Prop :=
  ∀ s : State, s.serial.timerEnable = false →
    (s.serial.edgeEnable = true → s.env.rxd = true → nextRxd s = false →
        (tick s).serial = { s.serial with edgeEnable := false, rxSync := true,
                                          timerDue := s.now + 1 + s.params.halfBit, timerEnable := true })
      ∧ ((s.serial.edgeEnable = false ∨ s.env.rxd = false ∨ nextRxd s = true) → (tick s).serial = s.serial)

/-- R237, R239, R242: however many ticks pass and whatever events fall on them, the radio driver, the main context and the
parameters are as before, and the time has advanced by the ticks. -/
def Obligations.EventsLeaveMainAndRadioAlone : Prop :=
  ∀ (n : Nat) (s : State),
    (ticks n s).radio = s.radio ∧ (ticks n s).main = s.main ∧ (ticks n s).params = s.params
      ∧ (ticks n s).now = s.now + n

/-! ### Serial engine: the host operations -/

/-- R131 lines 3 to 8 (decision D5): from an idle engine `transmitByte` arms the frame and is held at its wait (a turn of
which is one tick, log 11); `TXD` and the mailbox are not touched. If the timer environment never fires (R131, R13, decision
D30; log 31), it is still held after any number of steps. -/
def Obligations.TransmitByteArmsAndWaits : Prop :=
  ∀ (v : Byte) (s : State), Ready s → s.serial.txBusy = false → s.serial.timerEnable = false →
    s.serial.edgeEnable = false →
    ∃ t : State, exec (.transmitByte v) s = .next t
      ∧ t = { s with serial.txShift := v, serial.bitIndex := 0, serial.mode := .tx, serial.txBusy := true,
                     serial.timerDue := s.now + s.params.txLead, serial.timerEnable := true,
                     main.cont := [.waitTxDone, .ret .done], main.stall := 1 }
      ∧ (s.env.timerFires = false → ∀ n, ∃ u : State, steps n t = .next u
          ∧ u.main.cont = [.waitTxDone, .ret .done] ∧ u.main.returns = s.main.returns ∧ u.serial = t.serial)

/-- R131, R133, R139, R291 (decisions D2, D4, D5): `transmitByte(v)` puts the ten cells of R81 on `TXD` at
`t0 + L + k*T` and returns `L + 10*T` ticks after it armed the timer, with `TXD` = 1, `BitIndex` = 10, `TxShift` = 0. Each
tick of the wait is two steps of the model (log 11). -/
def Obligations.TransmitByteSendsFrameAndReturns : Prop :=
  ∀ (v : Byte) (s : State), s.params.Legal → Ready s → s.env.timerFires = true → s.serial.txBusy = false →
    s.serial.timerEnable = false → s.serial.edgeEnable = false →
    ∃ t u : State, exec (.transmitByte v) s = .next t
      ∧ steps (2 * (s.params.txLead + 10 * s.params.bitPeriod)) t = .next u
      ∧ u.now = s.now + s.params.txLead + 10 * s.params.bitPeriod
      ∧ u.main = { s.main with returns := s.main.returns ++ [.done] }
      ∧ u.serial = { s.serial with txShift := 0, bitIndex := 10, txBusy := false, mode := .tx, timerEnable := false,
                                   timerDue := s.now + s.params.txLead + 11 * s.params.bitPeriod, txd := true }
      ∧ u.radio = s.radio
      ∧ u.trace = s.trace ++ frameTrace s.params (s.now + s.params.txLead) v

/-- R138 (decision D11), R98, R291: `writeLine` sends one frame per byte in order, each with its own lead, adds nothing, and
returns after `n * (L + 10*T)` ticks; an empty text returns at once. -/
def Obligations.WriteLineSendsFramesInOrder : Prop :=
  ∀ (text : List Byte) (s : State), s.params.Legal → Ready s → s.env.timerFires = true → s.serial.txBusy = false →
    s.serial.timerEnable = false → s.serial.edgeEnable = false →
    ∃ t u : State, exec (.writeLine text) s = .next t
      ∧ steps (2 * (text.length * (s.params.txLead + 10 * s.params.bitPeriod))) t = .next u
      ∧ u.now = s.now + text.length * (s.params.txLead + 10 * s.params.bitPeriod)
      ∧ u.main = { s.main with returns := s.main.returns ++ [.done] }
      ∧ u.radio = s.radio
      ∧ u.serial.rxReg = s.serial.rxReg ∧ u.serial.receivedFlag = s.serial.receivedFlag
      ∧ u.serial.txBusy = false ∧ u.serial.timerEnable = false ∧ u.serial.edgeEnable = false
      ∧ u.trace = s.trace ++ text.zipIdx.flatMap fun c =>
          frameTrace s.params
            (s.now + s.params.txLead + c.2 * (s.params.txLead + 10 * s.params.bitPeriod)) c.1

/-- R135 (decision D9): `armReceive` with nothing in flight, in the reference time base; `ReceivedFlag` and `RxReg` are kept,
an edge seen before is dropped. That the timer registers are kept is log 4. -/
def Obligations.ArmReceiveArms : Prop :=
  ∀ s : State, s.main.context = .main → s.main.stall = 0 → s.env.pace = [] → s.serial.txBusy = false →
    s.serial.timerEnable = false →
    exec .armReceive s =
      .next { s with serial.mode := .rx, serial.bitIndex := 0, serial.rxSync := false, serial.edgeEnable := true,
                     env.rxdFell := false, main.returns := s.main.returns ++ [.done] }

/-- R144: a second `armReceive` without an intervening edge changes nothing of the block; only its return is new. -/
def Obligations.RearmIsIdempotent : Prop :=
  ∀ s : State, SerialInv s.serial → s.main.context = .main → s.main.stall = 0 → s.env.pace = [] →
    s.serial.edgeEnable = true → s.env.rxdFell = false →
    exec .armReceive s = .next { s with main.returns := s.main.returns ++ [.done] }

/-- R137, R68 (decision D12): one step tests, reads and clears; `none` writes nothing. -/
def Obligations.PollTakesMailbox : Prop :=
  ∀ s : State, s.main.context = .main →
    (s.serial.receivedFlag = true →
        exec .pollReceivedByte s =
          .next (yield { s with serial.receivedFlag := false,
                                main.returns := s.main.returns ++ [.maybeByte (some s.serial.rxReg)] }))
      ∧ (s.serial.receivedFlag = false →
        exec .pollReceivedByte s = .next (yield { s with main.returns := s.main.returns ++ [.maybeByte none] }))

/-- R140, R143, R277 (decision D6): an armed falling edge delivers one byte `H + 9*T` ticks later, not earlier; bit `j` is
the level of `RXD` at `H + (j+1)*T` ticks after the edge, whatever it is; the receiver is then disarmed. -/
def Obligations.EdgeDeliversSampledByte : Prop :=
  ∀ (s : State) (levels : List Bit), s.params.Legal → SerialInv s.serial → s.env.timerFires = true →
    s.serial.edgeEnable = true → s.env.rxd = true → s.env.rxdIn = false :: levels →
    s.params.halfBit + 9 * s.params.bitPeriod ≤ levels.length →
    let u := ticks (1 + s.params.halfBit + 9 * s.params.bitPeriod) s
    let u' := ticks (s.params.halfBit + 9 * s.params.bitPeriod) s
    u.serial.receivedFlag = true ∧ u.serial.timerEnable = false ∧ u.serial.edgeEnable = false
      ∧ u.serial.bitIndex = 8
      ∧ (∀ j < 8, u.serial.rxReg.getLsbD j =
          levels.getD (s.params.halfBit + (j + 1) * s.params.bitPeriod - 1) false)
      ∧ u'.serial.receivedFlag = s.serial.receivedFlag ∧ u'.serial.timerEnable = true

/-- R141: a byte sent by one engine into the `RXD` of an armed engine with the same periods arrives as that byte, for every
byte and all legal parameters. -/
def Obligations.SerialRoundTrip : Prop :=
  ∀ (v : Byte) (a a' b : State) (rest : List Bit), a.params.Legal → Ready a → a.serial.txBusy = false →
    a.serial.timerEnable = false → a.serial.edgeEnable = false → a.serial.txd = true →
    exec (.transmitByte v) a = .next a' → a.env.timerFires = true → b.env.timerFires = true →
    b.params.bitPeriod = a.params.bitPeriod → b.params.halfBit = a.params.halfBit → SerialInv b.serial →
    b.serial.edgeEnable = true → b.env.rxd = true →
    b.env.rxdIn = txdWave (a.params.txLead + a.params.halfBit + 9 * a.params.bitPeriod) a' ++ rest →
    let r := ticks (a.params.txLead + a.params.halfBit + 9 * a.params.bitPeriod) b
    r.serial.receivedFlag = true ∧ r.serial.rxReg = v ∧ r.serial.edgeEnable = false ∧ r.serial.timerEnable = false

/-- R142: a byte that completes while the flag is still 1 replaces the unread one without a sign: the next poll returns the
later byte, the one after it `none`. -/
def Obligations.MailboxKeepsOnlyLastByte : Prop :=
  ∀ (s : State) (levels : List Bit), s.params.Legal → SerialInv s.serial → Ready s → s.env.timerFires = true →
    s.serial.edgeEnable = true → s.serial.receivedFlag = true → s.env.rxd = true → s.env.rxdIn = false :: levels →
    s.params.halfBit + 9 * s.params.bitPeriod ≤ levels.length →
    ∃ (b : Byte) (t t' : State),
      (∀ j < 8, b.getLsbD j = levels.getD (s.params.halfBit + (j + 1) * s.params.bitPeriod - 1) false)
        ∧ exec .pollReceivedByte (ticks (1 + s.params.halfBit + 9 * s.params.bitPeriod) s) = .next t
        ∧ t.main.returns = s.main.returns ++ [.maybeByte (some b)]
        ∧ exec .pollReceivedByte t = .next t'
        ∧ t'.main.returns = t.main.returns ++ [.maybeByte none]

/-- R145, R88: eight transmit shifts emit the bits of the byte in order and end at 0; eight receive shifts from any start
value end at the byte whose bit `j` is the `j`-th sample (decision D8 for the form). -/
def Obligations.SerialShiftsMoveBitsInOrder : Prop :=
  (∀ (v : Byte) (j : Nat), j < 8 → (Nat.iterate shiftOut j v).getLsbD 0 = v.getLsbD j)
    ∧ (∀ v : Byte, Nat.iterate shiftOut 8 v = 0)
    ∧ (∀ (r : Byte) (samples : List Bit), samples.length = 8 →
        ∀ j < 8, (samples.foldl (fun x b => shiftInTop b x) r).getLsbD j = samples.getD j false)

/-! ### Radio driver: the primitives -/

/-- R171: `Set(DATA, b)`, `Set(CLK, 1)`, `Set(CLK, 0)`, issued whatever the level already is, in no time. R171 has it with
`CLK` = 0, `DATA_DIR` = Out and `LineDirSet` = 1; that it does the same in every other state is the model's choice, log 7. -/
def Obligations.ClockOutBitPulsesOnce : Prop :=
  ∀ (b : Bit) (s : State), Ready s →
    ∃ t : State, exec (.clockOutBit b) s = .next t
      ∧ t.radio = { s.radio with dataOut := b, clk := false }
      ∧ t.trace = s.trace ++ stampAll s.now [.set .data b, .set .clk true, .set .clk false]
      ∧ t.serial = s.serial ∧ t.now = s.now ∧ t.main.cont = [] ∧ t.main.stall = 0

/-- R172: the eight bits of the byte, bit 7 first, one pulse each; outside its precondition, that of `ClockOutBit`, by the
model's choice, log 7. -/
def Obligations.ClockOutByteSendsMsbFirst : Prop :=
  ∀ (x : Byte) (s : State), Ready s →
    ∃ t : State, exec (.clockOutByte x) s = .next t
      ∧ t.radio = { s.radio with dataOut := x.getLsbD 0, clk := false }
      ∧ t.trace = s.trace ++ stampAll s.now (outEntries
          [x.getLsbD 7, x.getLsbD 6, x.getLsbD 5, x.getLsbD 4, x.getLsbD 3, x.getLsbD 2, x.getLsbD 1, x.getLsbD 0])
      ∧ t.serial = s.serial ∧ t.now = s.now ∧ t.main.cont = [] ∧ t.main.stall = 0

/-- R201 (decision D14): the level is sampled before the pulse and returned: the environment's while `DATA` is an input,
and the driven one while it is an output (log 19). -/
def Obligations.ClockInBitSamplesThenPulses : Prop :=
  ∀ s : State, Ready s →
    ∃ t : State, exec .clockInBit s = .next t
      ∧ t.radio = { s.radio with clk := false } ∧ t.serial = s.serial ∧ t.main.cont = [] ∧ t.main.stall = 0
      ∧ (s.radio.dataDir = .input →
          t.main.returns = s.main.returns ++ [.bit (answerData s).1] ∧ t.env = (answerData s).2.env
            ∧ t.trace = s.trace ++ stampAll s.now (inEntries [(answerData s).1]))
      ∧ (s.radio.dataDir = .output →
          t.main.returns = s.main.returns ++ [.bit s.radio.dataOut] ∧ t.env = s.env
            ∧ t.trace = s.trace ++ stampAll s.now (inEntries [s.radio.dataOut]))

/-- R202: eight cells; the first sample is bit 7 of the returned byte, the last is bit 0. -/
def Obligations.ClockInByteAssemblesMsbFirst : Prop :=
  ∀ s : State, Ready s → s.radio.dataDir = .input →
    ∃ (t : State) (x : Byte), exec .clockInByte s = .next t
      ∧ (∀ j < 8, x.getLsbD (7 - j) = (dataAnswers 8 s).getD j false)
      ∧ t.main.returns = s.main.returns ++ [.byte x] ∧ t.main.cont = [] ∧ t.main.stall = 0
      ∧ t.radio = { s.radio with clk := false } ∧ t.serial = s.serial ∧ t.env = (afterAnswers 8 s).env
      ∧ t.trace = s.trace ++ stampAll s.now (inEntries (dataAnswers 8 s))

/-! ### Radio driver: configuration and mode -/

/-- R173 (decision D15): five directions and `LineDirSet`, no level; the latches become the pins' levels. -/
def Obligations.InitializeLinesSetsDirections : Prop :=
  ∀ s : State, Ready s → s.radio.configured = false →
    ∃ t : State, exec .initializeLines s = .next t
      ∧ t = { s with radio.ceDir := .output, radio.csDir := .output, radio.clkDir := .output, radio.drDir := .input,
                     radio.dataDir := .output, radio.lineDirSet := true, main.returns := s.main.returns ++ [.done],
                     trace := s.trace ++ stampAll s.now [.dir .ce .output, .dir .cs .output, .dir .clk .output,
                       .dir .dr .input, .dir .data .output] }
      ∧ pinLevel .ce t = some s.radio.ce ∧ pinLevel .cs t = some s.radio.cs ∧ pinLevel .clk t = some s.radio.clk
      ∧ pinLevel .data t = some s.radio.dataOut

/-- R173: a second call before `configure` repeats the entries and changes no state of the radio driver. -/
def Obligations.InitializeLinesIsIdempotent : Prop :=
  ∀ s t : State, Ready s → s.radio.configured = false → exec .initializeLines s = .next t →
    ∃ u : State, exec .initializeLines t = .next u ∧ u.radio = t.radio ∧ u.serial = t.serial
      ∧ newEntries t u = newEntries s t

/-- R174, R82 (decisions D14, D16, D23): `CE` = 0, `CS` = 1, the delay, the 112 cells of the word, `CS` = 0, then
`Configured`; it returns after the delay's ticks, whatever serial events fall in them. That `DATA_DIR` is as before is
log 32. -/
def Obligations.ConfigureSendsWord : Prop :=
  ∀ (word : List Byte) (s : State), Ready s → s.radio.lineDirSet = true → s.radio.configured = false →
    word.length = 14 →
    ∃ t u : State, exec (.configure word) s = .next t ∧ steps (delaySteps s.params.cfgSetup) t = .next u
      ∧ u.now = s.now + s.params.cfgSetup ∧ u.main.cont = [] ∧ u.main.stall = 0
      ∧ u.main.returns = s.main.returns ++ [.done]
      ∧ u.radio = { s.radio with ce := false, cs := false, clk := false, dataOut := (word.getD 13 0).getLsbD 0,
                                 configured := true }
      ∧ radioEntries s u = [.set .ce false, .set .cs true, .delay .cfgSetup] ++ outEntries (byteCells word)
          ++ [.set .cs false]

/-- R179, R174: at its return the stream of `configure` has exactly 112 clock pulses whatever the word and the delay, and is
the same from every state in which the host can call it. -/
def Obligations.ConfigureEmits112Pulses : Prop :=
  ∀ (word : List Byte) (s s' t t' u u' : State), Ready s → Ready s' →
    exec (.configure word) s = .next t → steps (delaySteps s.params.cfgSetup) t = .next u →
    exec (.configure word) s' = .next t' → steps (delaySteps s'.params.cfgSetup) t' = .next u' →
    u.main.cont = [] ∧ u.main.returns = s.main.returns ++ [.done]
      ∧ (radioEntries s u).countP (fun e => decide (e = .set .clk true)) = 112
      ∧ radioEntries s u = radioEntries s' u'

/-- R175, R83 (decisions D17, D18): the sequence of `setMode` for both roles, with both delays, and the lines it leaves
(R176). -/
def Obligations.SetModeRunsSequence : Prop :=
  ∀ (m : RadioMode) (s : State), Ready s → s.radio.lineDirSet = true → s.radio.configured = true → m ≠ .configure →
    ∃ t u : State, exec (.setMode m) s = .next t
      ∧ steps (delaySteps s.params.modePre + delaySteps s.params.modePost) t = .next u
      ∧ u.now = s.now + s.params.modePre + s.params.modePost ∧ u.main.cont = [] ∧ u.main.stall = 0
      ∧ u.main.returns = s.main.returns ++ [.done]
      ∧ (m = .receive →
          u.radio = { s.radio with ce := true, cs := false, clk := false, dataOut := true, dataDir := .input,
                                   radioMode := .receive }
            ∧ radioEntries s u = [.set .ce false, .set .cs true, .dir .data .output, .delay .modePre, .set .data true,
                .set .clk true, .set .clk false, .delay .modePost, .set .cs false, .dir .data .input, .set .ce true])
      ∧ (m = .transmit →
          u.radio = { s.radio with ce := false, cs := false, clk := false, dataOut := false, dataDir := .output,
                                   radioMode := .transmit }
            ∧ radioEntries s u = [.set .ce false, .set .cs true, .dir .data .output, .delay .modePre, .set .data false,
                .set .clk true, .set .clk false, .delay .modePost, .set .cs false])

/-! ### Radio driver: packets -/

/-- R203, R84 (decisions D14, D20): the operand is copied to `PacketBuffer`; `CE` = 1, the address and the payload cell by
cell, `CE` = 0; it returns in the same tick. -/
def Obligations.TransmitPacketSendsAddressAndPayload : Prop :=
  ∀ (buffer : List Byte) (s : State), Ready s → s.radio.lineDirSet = true → s.radio.configured = true →
    s.radio.radioMode = .transmit → buffer.length = s.params.payloadWidth →
    s.radio.packetBuffer.length = s.params.payloadWidth →
    exec (.transmitPacket buffer) s =
      .next { s with radio.ce := false, radio.clk := false,
                     radio.dataOut := (packetCells s.params buffer).getLastD false,
                     radio.packetBuffer := buffer, main.returns := s.main.returns ++ [.done],
                     trace := s.trace ++ stampAll s.now
                       ([.set .ce true] ++ outEntries (packetCells s.params buffer) ++ [.set .ce false]) }

/-- R204, R69 (decision D13): the answer is whether `DR` is 1; nothing of the block changes. -/
def Obligations.HasDataReadsDataReady : Prop :=
  ∀ s : State, s.main.context = .main → s.radio.lineDirSet = true →
    ∃ t : State, exec .hasData s = .next t
      ∧ t.main.returns = s.main.returns ++ [.bool (answerDr s).1]
      ∧ t.trace = s.trace ++ [⟨s.now, .sample .dr (answerDr s).1⟩]
      ∧ t.radio = s.radio ∧ t.serial = s.serial ∧ t.main.cont = s.main.cont ∧ t.now = s.now

/-- R205, R85 (decisions D14, D19): with `DR` inactive at the first test, `receivePacket` returns the bytes the environment
presented, most significant bit first, in one step. -/
def Obligations.ReceivePacketReturnsPayload : Prop :=
  ∀ s : State, Ready s → s.radio.lineDirSet = true → s.radio.configured = true → s.radio.radioMode = .receive →
    s.radio.dataDir = .input → s.radio.clk = false → s.radio.packetBuffer.length = s.params.payloadWidth →
    (answerDr s).1 = false →
    ∃ t : State, exec .receivePacket s = .next t
      ∧ t.main.returns = s.main.returns ++
          [.buffer (assemblePayload s.params.payloadWidth (dataAnswers (8 * s.params.payloadWidth) s))]
      ∧ t.main.cont = [] ∧ t.main.stall = 0 ∧ t.now = s.now ∧ t.serial = s.serial
      ∧ t.radio = { s.radio with
          ce := true
          packetBuffer := assemblePayload s.params.payloadWidth (dataAnswers (8 * s.params.payloadWidth) s) }
      ∧ t.trace = s.trace ++ stampAll s.now
          ([.set .ce false] ++ inEntries (dataAnswers (8 * s.params.payloadWidth) s)
            ++ [.sample .dr false, .set .ce true])

/-- R205 line 6: with `DR` active at the first test the payload is in `PacketBuffer`, nothing is returned and the call is
held with `CE` = 0; that a tick passes before the next test is the model's choice, log 11. -/
def Obligations.ReceivePacketHeldWhileDataReady : Prop :=
  ∀ s : State, Ready s → s.radio.lineDirSet = true → s.radio.configured = true → s.radio.radioMode = .receive →
    s.radio.dataDir = .input → s.radio.clk = false → s.radio.packetBuffer.length = s.params.payloadWidth →
    (answerDr s).1 = true →
    ∃ t : State, exec .receivePacket s = .next t
      ∧ t.main.returns = s.main.returns ∧ t.main.cont = [.waitDrInactive, .set .ce true, .retBuffer]
      ∧ t.main.stall = 1 ∧ t.now = s.now ∧ t.serial = s.serial
      ∧ t.radio = { s.radio with
          ce := false
          packetBuffer := assemblePayload s.params.payloadWidth (dataAnswers (8 * s.params.payloadWidth) s) }

/-- R205, R207: the wait ends at the first sample that finds `DR` inactive, after any number of active ones, and the call
then raises `CE` and returns the buffer. One turn of the wait is one tick (log 11). -/
def Obligations.ReceiveWaitEndsWhenDataReadyDrops : Prop :=
  ∀ (m : Nat) (s : State) (rest : List Bit), s.main.cont = [.waitDrInactive, .set .ce true, .retBuffer] →
    s.main.stall = 0 → s.env.pace = [] → s.env.drIn = List.replicate m true ++ false :: rest →
    ∃ u : State, steps (2 * m + 1) s = .next u
      ∧ u.main.cont = [] ∧ u.now = s.now + m
      ∧ u.main.returns = s.main.returns ++ [.buffer (s.radio.packetBuffer.take s.params.payloadWidth)]
      ∧ u.radio = { s.radio with ce := true }
      ∧ radioEntries s u = List.replicate m (.sample .dr true) ++ [.sample .dr false, .set .ce true]

/-- R288, R207: the wait has no bound: for every number of steps there are answers under which the call has still not
returned, `CE` still 0. -/
def Obligations.ReceiveWaitIsUnbounded : Prop :=
  ∀ (n m : Nat) (s : State) (k : List Micro) (rest : List Bit), n ≤ 2 * m → s.main.cont = .waitDrInactive :: k →
    s.main.stall = 0 → s.env.pace = [] → s.env.drIn = List.replicate m true ++ rest →
    ∃ u : State, steps n s = .next u ∧ u.main.cont = s.main.cont ∧ u.main.returns = s.main.returns
      ∧ u.radio = s.radio

/-- R208 with the reference front-end pair of 95_test_vectors section 4.2 (decision D25): the payload sent by one driver is
what the other returns, and `DR` is inactive afterwards, whenever the answers the receiver got are its front-end's; and
there are such answers. -/
def Obligations.PacketLoopBackThroughReferencePair : Prop :=
  ∀ (payload : List Byte) (s t r : State) (f g : FrontEnd), s.params.Legal →
    Ready s → s.radio.packetBuffer.length = s.params.payloadWidth → exec (.transmitPacket payload) s = .next t →
    f.role = some .transmit → f.ce = false → f.cs = false → f.clk = false → f.txBits = [] →
    r.params.payloadWidth = s.params.payloadWidth → Ready r → r.radio.lineDirSet = true → r.radio.configured = true →
    r.radio.radioMode = .receive → r.radio.dataDir = .input →
    r.radio.packetBuffer.length = r.params.payloadWidth →
    g.role = some .receive → g.ce = true → g.cs = false → g.clk = false → g.rx = none →
    let arrived := frontEndArrive g (byteCells payload)
    (frontEndRun f (newEntries s t)).sent = f.sent ++ [byteCells payload]
      ∧ arrived.dr = true
      ∧ (∀ q : State, exec .receivePacket r = .next q → frontEndAgrees arrived (newEntries r q) = true →
          q.main.returns = r.main.returns ++ [.buffer payload] ∧ (frontEndRun arrived (newEntries r q)).dr = false)
      ∧ (∀ d e : List Bit, r.env.dataIn = byteCells payload ++ d → r.env.drIn = false :: e →
          ∃ q : State, exec .receivePacket r = .next q ∧ frontEndAgrees arrived (newEntries r q) = true)

/-- R286, R249, C10 (decision D26; log 10): whatever ticks the schedule lets pass between the micro-steps of
`transmitPacket`, and whatever serial events fall on them, the driver's lines are written as without them and the call
returns. -/
def Obligations.PreemptionLeavesPacketStreamAlone : Prop :=
  ∀ (buffer : List Byte) (s : State), s.main.context = .main → s.main.cont = [] → s.main.stall = 0 →
    s.radio.lineDirSet = true → s.radio.configured = true → s.radio.radioMode = .transmit →
    buffer.length = s.params.payloadWidth → s.radio.packetBuffer.length = s.params.payloadWidth →
    ∃ (t : State) (n : Nat) (u : State), exec (.transmitPacket buffer) s = .next t ∧ steps n t = .next u
      ∧ u.main.cont = [] ∧ u.main.returns = s.main.returns ++ [.done]
      ∧ u.radio = { s.radio with ce := false, clk := false, packetBuffer := buffer,
                                 dataOut := (packetCells s.params buffer).getLastD false }
      ∧ radioEntries s u = [.set .ce true] ++ outEntries (packetCells s.params buffer) ++ [.set .ce false]

/-! ### Misuse -/

/-- R131 lines 1 and 2, R135 lines 1 and 2, R138 (60 R231, decision D10): the faults of the serial operations, in the order
of the lines; those of the second lines where no tick passes after the first (log 10). -/
def Obligations.SerialMisuseFaults : Prop :=
  ∀ (v : Byte) (text : List Byte) (s : State), s.main.context = .main →
    (s.serial.txBusy = true → exec (.transmitByte v) s = .fault .txReentry
        ∧ exec (.writeLine (v :: text)) s = .fault .txReentry ∧ exec .armReceive s = .fault .serialOverlap)
      ∧ (s.main.stall = 0 → s.env.pace = [] → s.serial.txBusy = false →
          (s.serial.timerEnable = true ∨ s.serial.edgeEnable = true) →
          exec (.transmitByte v) s = .fault .serialOverlap ∧ exec (.writeLine (v :: text)) s = .fault .serialOverlap)
      ∧ (s.main.stall = 0 → s.env.pace = [] → s.serial.txBusy = false → s.serial.timerEnable = true →
          exec .armReceive s = .fault .rearmMidByte)

/-- R173, R174, R175, R203, R204, R205, first lines (60 R231, R66, decisions D20, D21): an operand outside its type is
refused whatever the other checks find, and inside its type each misuse ends in its named fault, in the order of the lines.
`TimerArm` with no ticks is refused by the model's choice, log 15. -/
def Obligations.RadioMisuseFaults : Prop :=
  ∀ (word buffer : List Byte) (m : RadioMode) (s : State), s.main.context = .main →
    (word.length ≠ 14 → exec (.configure word) s = .refused .badOperand)
      ∧ exec (.setMode .configure) s = .refused .badOperand
      ∧ (buffer.length ≠ s.params.payloadWidth → exec (.transmitPacket buffer) s = .refused .badOperand)
      ∧ exec (.timerArm 0) s = .refused .badOperand
      ∧ (s.radio.configured = true → exec .initializeLines s = .fault .radioReinit)
      ∧ (s.radio.lineDirSet = false →
          exec .hasData s = .fault .radioNotInitialized ∧ exec .receivePacket s = .fault .radioNotInitialized)
      ∧ (s.radio.lineDirSet = true →
          (s.radio.configured = false → exec .receivePacket s = .fault .radioNotConfigured)
            ∧ (s.radio.configured = true → s.radio.radioMode ≠ .receive →
                exec .receivePacket s = .fault .radioWrongMode))
      ∧ (word.length = 14 →
          (s.radio.lineDirSet = false → exec (.configure word) s = .fault .radioNotInitialized)
            ∧ (s.radio.lineDirSet = true → s.radio.configured = true →
                exec (.configure word) s = .fault .radioReconfigure))
      ∧ (m ≠ .configure →
          (s.radio.lineDirSet = false → exec (.setMode m) s = .fault .radioNotInitialized)
            ∧ (s.radio.lineDirSet = true → s.radio.configured = false →
                exec (.setMode m) s = .fault .radioNotConfigured))
      ∧ (buffer.length = s.params.payloadWidth →
          (s.radio.lineDirSet = false → exec (.transmitPacket buffer) s = .fault .radioNotInitialized)
            ∧ (s.radio.lineDirSet = true → s.radio.configured = false →
                exec (.transmitPacket buffer) s = .fault .radioNotConfigured)
            ∧ (s.radio.lineDirSet = true → s.radio.configured = true → s.radio.radioMode ≠ .transmit →
                exec (.transmitPacket buffer) s = .fault .radioWrongMode))

/-- R242, C12: a host operation called from the interrupt context ends in `InterruptContextCall`, whatever its other checks
and its operands. -/
def Obligations.HostCallFromHandlerFaults : Prop :=
  ∀ (i : Instr) (s : State), i.isHostOp = true → s.main.context = .interrupt →
    exec i s = .fault .interruptContextCall

/-- An operation stops only as 60 R231 lists: a fault from the context check or from a failed check of its own, a refusal
`BadOperand` from an operand outside its type (`TimerArm` with no ticks is the model's, log 15). A step stops only with the
call it issues, or, later in an operation, at a check whose condition holds once the lines before it have run (logs 10, 11);
or where the bytes of the script are no call (log 24). -/
def Obligations.StopsOnlyAsListed : Prop :=
  (∀ (i : Instr) (s : State),
      (∀ f, exec i s = .fault f →
          (i.isHostOp = true ∧ s.main.context = .interrupt ∧ f = .interruptContextCall) ∨ (true, f) ∈ callChecks s i)
        ∧ (∀ r, exec i s = .refused r → r = .badOperand ∧ i.WellFormed s.params = false))
    ∧ ∀ s : State,
      (∀ f, step s = .fault f →
          (∃ i, nextCall s = some i
              ∧ ((i.isHostOp = true ∧ s.main.context = .interrupt ∧ f = .interruptContextCall)
                ∨ (true, f) ∈ callChecks s i))
            ∨ ∃ (before : List Micro) (c : SerialCheck) (after : List Micro) (u : State),
                s.main.cont = before ++ .check c f :: after ∧ runMicros [] before s = .next u
                  ∧ u.main.cont = [] ∧ u.main.stall = 0 ∧ serialCheckHolds c u = true)
        ∧ (∀ r, step s = .refused r →
          (∃ i, nextCall s = some i ∧ r = .badOperand ∧ i.WellFormed s.params = false)
            ∨ (s.main.stall = 0 ∧ s.main.cont = [] ∧ s.main.script ≠ []
                ∧ ∃ e, fetch s = .error e ∧ r = decodeRefusal e))

/-- Every operation answers a next state whenever its operands are inside their types, the main context calls it and none of
its checks fails. -/
def Obligations.CallsInsideTheContractAnswer : Prop :=
  ∀ (i : Instr) (s : State), i.WellFormed s.params = true → s.main.context = .main →
    (∀ c ∈ callChecks s i, c.1 = false) → ∃ t : State, exec i s = .next t

/-! ### Frames -/

/-- What `TimerArm` and `TimerDisarm` leave alone (R112, R113, "Flags written"). -/
def Obligations.BitClockFrame : Prop :=
  ∀ (d : Nat) (s t : State), (exec (.timerArm d) s = .next t ∨ exec .timerDisarm s = .next t) →
    CallFrame s t ∧ t.trace = s.trace ∧ t.radio = s.radio
      ∧ t.serial = { s.serial with timerEnable := t.serial.timerEnable, timerDue := t.serial.timerDue }
      ∧ t.main = { s.main with stall := t.main.stall, returns := t.main.returns }
      ∧ t.env = { s.env with pace := t.env.pace }

/-- What the two event handlers leave alone (60 R237, R242; 41 R133, R134, R136, "Flags written"). -/
def Obligations.EventFrame : Prop :=
  ∀ s t : State,
    (exec .timerEvent s = .next t →
        t.params = s.params ∧ t.now = s.now ∧ t.radio = s.radio ∧ t.main = s.main ∧ t.env = s.env
          ∧ (∃ es, t.trace = s.trace ++ stampAll s.now es)
          ∧ t.serial = { s.serial with
              txShift := t.serial.txShift, rxReg := t.serial.rxReg, bitIndex := t.serial.bitIndex,
              receivedFlag := t.serial.receivedFlag, txBusy := t.serial.txBusy, rxSync := t.serial.rxSync,
              timerEnable := t.serial.timerEnable, timerDue := t.serial.timerDue, txd := t.serial.txd }
          ∧ (s.serial.mode = .tx →
              t.serial.rxReg = s.serial.rxReg ∧ t.serial.receivedFlag = s.serial.receivedFlag
                ∧ t.serial.rxSync = s.serial.rxSync)
          ∧ (s.serial.mode = .rx →
              t.serial.txShift = s.serial.txShift ∧ t.serial.txBusy = s.serial.txBusy ∧ t.serial.txd = s.serial.txd))
      ∧ (exec .edgeEvent s = .next t →
        t.params = s.params ∧ t.now = s.now ∧ t.radio = s.radio ∧ t.main = s.main ∧ t.trace = s.trace
          ∧ t.env = { s.env with rxdFell := t.env.rxdFell }
          ∧ t.serial = { s.serial with
              edgeEnable := t.serial.edgeEnable, rxSync := t.serial.rxSync, timerEnable := t.serial.timerEnable,
              timerDue := t.serial.timerDue })

/-- What the serial host operations leave alone: the radio driver, `TXD`, `RxReg`, the trace, and what R45 does not let
each write. R45's table has `armReceive` among the writers of the timer registers; that it leaves both alone is the reading
of R135, which names neither (DEDUCED, log 4). -/
def Obligations.SerialOperationFrame : Prop :=
  ∀ (v : Byte) (text : List Byte) (s t : State),
    ((exec (.transmitByte v) s = .next t ∨ exec (.writeLine text) s = .next t) →
        CallFrame s t ∧ t.trace = s.trace ∧ t.radio = s.radio
          ∧ t.serial = { s.serial with
              txShift := t.serial.txShift, bitIndex := t.serial.bitIndex, mode := t.serial.mode,
              txBusy := t.serial.txBusy, timerEnable := t.serial.timerEnable, timerDue := t.serial.timerDue }
          ∧ t.main = { s.main with cont := t.main.cont, stall := t.main.stall, returns := t.main.returns }
          ∧ t.env = { s.env with pace := t.env.pace })
      ∧ (exec .armReceive s = .next t →
        CallFrame s t ∧ t.trace = s.trace ∧ t.radio = s.radio
          ∧ t.serial = { s.serial with
              mode := t.serial.mode, bitIndex := t.serial.bitIndex, rxSync := t.serial.rxSync,
              edgeEnable := t.serial.edgeEnable }
          ∧ t.main = { s.main with cont := t.main.cont, stall := t.main.stall, returns := t.main.returns }
          ∧ t.env = { s.env with rxdFell := t.env.rxdFell, pace := t.env.pace })
      ∧ (exec .pollReceivedByte s = .next t →
        CallFrame s t ∧ t.trace = s.trace ∧ t.radio = s.radio
          ∧ t.serial = { s.serial with receivedFlag := t.serial.receivedFlag }
          ∧ t.main = { s.main with stall := t.main.stall, returns := t.main.returns }
          ∧ t.env = { s.env with pace := t.env.pace })

/-- What the operations of the configuration and mode driver leave alone: the serial engine and its timer (R116), the packet
buffer, and the lines and flags each does not name. That `configure` leaves `DATA_DIR` alone is the reading of R174's lines,
against R38 (DEDUCED, log 32). -/
def Obligations.RadioConfigFrame : Prop :=
  ∀ (b : Bit) (x : Byte) (word : List Byte) (m : RadioMode) (s t : State),
    ((exec (.clockOutBit b) s = .next t ∨ exec (.clockOutByte x) s = .next t) →
        t.radio = { s.radio with clk := t.radio.clk, dataOut := t.radio.dataOut })
      ∧ (exec .initializeLines s = .next t →
        t.radio = { s.radio with
          ceDir := t.radio.ceDir, csDir := t.radio.csDir, clkDir := t.radio.clkDir, drDir := t.radio.drDir,
          dataDir := t.radio.dataDir, lineDirSet := t.radio.lineDirSet })
      ∧ (exec (.configure word) s = .next t →
        t.radio = { s.radio with
          ce := t.radio.ce, cs := t.radio.cs, clk := t.radio.clk, dataOut := t.radio.dataOut,
          configured := t.radio.configured })
      ∧ (exec (.setMode m) s = .next t →
        t.radio = { s.radio with
          ce := t.radio.ce, cs := t.radio.cs, clk := t.radio.clk, dataOut := t.radio.dataOut,
          dataDir := t.radio.dataDir, radioMode := t.radio.radioMode })
      ∧ ((exec (.clockOutBit b) s = .next t ∨ exec (.clockOutByte x) s = .next t ∨ exec .initializeLines s = .next t
            ∨ exec (.configure word) s = .next t ∨ exec (.setMode m) s = .next t) →
        CallFrame s t ∧ t.serial = s.serial
          ∧ t.main = { s.main with cont := t.main.cont, stall := t.main.stall, returns := t.main.returns }
          ∧ t.env = { s.env with pace := t.env.pace })

/-- What the operations of the packet driver leave alone: the serial engine and its timer (R116), the directions and flags,
and for all but the two packet operations the packet buffer too. -/
def Obligations.RadioPacketFrame : Prop :=
  ∀ (buffer : List Byte) (s t : State),
    ((exec .clockInBit s = .next t ∨ exec .clockInByte s = .next t) → t.radio = { s.radio with clk := t.radio.clk })
      ∧ (exec .hasData s = .next t → t.radio = s.radio)
      ∧ (exec (.transmitPacket buffer) s = .next t →
        t.radio = { s.radio with
          ce := t.radio.ce, clk := t.radio.clk, dataOut := t.radio.dataOut, packetBuffer := t.radio.packetBuffer }
          ∧ t.env = { s.env with pace := t.env.pace })
      ∧ (exec .receivePacket s = .next t →
        t.radio = { s.radio with ce := t.radio.ce, clk := t.radio.clk, packetBuffer := t.radio.packetBuffer })
      ∧ ((exec .clockInBit s = .next t ∨ exec .clockInByte s = .next t ∨ exec .hasData s = .next t
            ∨ exec (.transmitPacket buffer) s = .next t ∨ exec .receivePacket s = .next t) →
        CallFrame s t ∧ t.serial = s.serial
          ∧ t.main = { s.main with
              cont := t.main.cont, stall := t.main.stall, returns := t.main.returns, localB := t.main.localB,
              localX := t.main.localX }
          ∧ t.env = { s.env with
              pace := t.env.pace, dataIn := t.env.dataIn, drIn := t.env.drIn, dataReads := t.env.dataReads,
              drReads := t.env.drReads })

/-! ### The whole machine -/

/-- R45: no operation but `TimerEvent` writes `RxReg` or `TXD`, and none but it sets `ReceivedFlag`; and no step writes or
sets them but one that takes the timer event, where no line still to run writes `TXD`, which every step keeps. -/
def Obligations.OnlyTimerEventWritesReceiverAndTxd : Prop :=
  (∀ (i : Instr) (s t : State), i ≠ .timerEvent → exec i s = .next t →
      t.serial.rxReg = s.serial.rxReg ∧ t.serial.txd = s.serial.txd
        ∧ (t.serial.receivedFlag = true → s.serial.receivedFlag = true))
    ∧ ∀ s t : State, (∀ m ∈ s.main.cont, sparesTxd m = true) → step s = .next t →
        (∀ m ∈ t.main.cont, sparesTxd m = true)
          ∧ (¬takesTimerEvent s → t.serial.rxReg = s.serial.rxReg ∧ t.serial.txd = s.serial.txd
              ∧ (t.serial.receivedFlag = true → s.serial.receivedFlag = true))

/-- R233: which operations, and which steps, can enable and disable each interrupt source, and that the two events do what it
says (that each setter sets its bit is in the statements about the setters). That the primitives can be named in a script is
the model's choice, log 7. -/
def Obligations.EnableBitsChangeOnlyAsListed : Prop :=
  (∀ (i : Instr) (s t : State), exec i s = .next t →
      (s.serial.edgeEnable = false → t.serial.edgeEnable = true → i = .armReceive)
        ∧ (s.serial.edgeEnable = true → t.serial.edgeEnable = false → i = .edgeEvent)
        ∧ (s.serial.timerEnable = false → t.serial.timerEnable = true →
            (∃ d, i = .timerArm d) ∨ (∃ v, i = .transmitByte v) ∨ (∃ l, i = .writeLine l) ∨ i = .edgeEvent)
        ∧ (s.serial.timerEnable = true → t.serial.timerEnable = false →
            i = .timerDisarm ∨ (i = .timerEvent ∧ completesTransfer s.serial)))
    ∧ ∀ s t : State, step s = .next t →
      (s.serial.edgeEnable = false → t.serial.edgeEnable = true →
          nextCall s = some .armReceive ∨ .enableEdge ∈ s.main.cont)
        ∧ (s.serial.edgeEnable = true → t.serial.edgeEnable = false → takesEdgeEvent s)
        ∧ (s.serial.timerEnable = false → t.serial.timerEnable = true →
            (∃ d, nextCall s = some (.timerArm d)) ∨ (∃ v, nextCall s = some (.transmitByte v))
              ∨ (∃ l, nextCall s = some (.writeLine l)) ∨ .armLead ∈ s.main.cont ∨ takesEdgeEvent s)
        ∧ (s.serial.timerEnable = true → t.serial.timerEnable = false →
            nextCall s = some .timerDisarm ∨ (takesTimerEvent s ∧ completesTransfer s.serial))
        ∧ (takesEdgeEvent s → t.serial.edgeEnable = false ∧ t.serial.timerEnable = true)
        ∧ (takesTimerEvent s → completesTransfer s.serial → s.serial.edgeEnable = false →
            t.serial.timerEnable = false)

/-- R43 I1 to I5: whatever the schedule, every step of a host that keeps to its operations keeps the order of the arming
lines, so that outside an arming the serial invariants hold, unless it takes an edge event between two lines of a re-arming
`armReceive` (log 10). In the reference time base no step ends between two lines of an arming, so that the invariants hold
along every run that begins outside one. R115: with a timer that fires, the compare only ever meets a due time within
reach. -/
def Obligations.StepKeepsSerialInvariants : Prop :=
  ∀ s t : State, HostKeeps s → step s = .next t →
    (SerialOrder s → (outsideArming s ∨ ¬takesEdgeEvent s) →
        SerialOrder t ∧ (outsideArming t → SerialInv t.serial))
      ∧ (SerialOrder s → s.env.pace = [] → outsideArming s →
        t.env.pace = [] ∧ outsideArming t ∧ SerialInv t.serial)
      ∧ (s.params.Legal → s.env.timerFires = true → TimerWithinReach s → TimerWithinReach t)

/-- R43 I8, R26: where I1 to I5 hold, the serial state is one of the rows of the phase table. -/
def Obligations.SerialInvariantsGiveAPhase : Prop :=
  ∀ e : Serial, SerialInv e → (serialPhase e).isSome = true

/-- R43 I6, I7, R176, R177, R180: every step of a host that keeps to its operations keeps the radio invariant, so that
between two operations the lines are as the mode table says, `CE` = 0 while `CS` = 1, and `DATA` is driven and sampled only
in its direction. -/
def Obligations.StepKeepsRadioInvariant : Prop :=
  ∀ s t : State, RadioInv s → HostKeeps s → step s = .next t → RadioInv t

/-- R8, R23: no step changes the parameters or the length of `PacketBuffer`, nor what the host and the timer environment are
(logs 30, 31). -/
def Obligations.StepKeepsParametersAndBufferLength : Prop :=
  ∀ s t : State, step s = .next t →
    t.params = s.params ∧ t.radio.packetBuffer.length = s.radio.packetBuffer.length
      ∧ t.main.endless = s.main.endless ∧ t.env.timerFires = s.env.timerFires

/-- R47, R110: a step never rewrites the line trace, its entries are stamped with the time they are appended at, and time
advances by one tick or not at all. -/
def Obligations.TraceGrowsInTimeOrder : Prop :=
  ∀ s t : State, step s = .next t →
    (t.now = s.now ∨ t.now = s.now + 1) ∧ ∃ es, t.trace = s.trace ++ stampAll t.now es

/-- R239, R240, R241: a handler is over before the next step begins: no step ends in the interrupt context that did not
begin in it. -/
def Obligations.StepsEndInTheContextTheyBeganIn : Prop :=
  ∀ s t : State, step s = .next t → t.main.context = s.main.context
end

