-- ==== Sys2Proof/Laws/Codec.lean ====
section
/-! SUPPORT. The pieces of the byte form read back what was written. -/

namespace Sys2Proof.Codec

open Sys2Proof

theorem decodeList_encodeList (l rest : List Byte) : decodeList (encodeList l ++ rest) = .ok (l, rest) := by
  induction l with
  | nil => cases rest <;> simp [encodeList, decodeList]
  | cons b bs ih => simp [encodeList, decodeList, ih]

theorem undigits_digits (f n : Nat) (h : n ≤ f) : undigits (digits f n) = n := by
  induction f generalizing n with
  | zero => simp [digits, undigits]; omega
  | succ f ih =>
    unfold digits
    split
    · simp [undigits, *]
    · rw [undigits, ih _ (by omega)]
      simp
      omega

end Sys2Proof.Codec
end

