-- ==== Sys2Proof/Laws/State.lean ====
section
/-! SUPPORT. One lemma per field per update, true by rfl, so that no later proof unfolds a record update. A group of fields
(serial, radio, main, env) that an update leaves alone has one lemma for the whole group. -/

namespace Sys2Proof.Machine

open Sys2Proof


/-! ### emit -/

@[simp] theorem emit_params (e : Entry) (s : State) : (emit e s).params = s.params := rfl
@[simp] theorem emit_now (e : Entry) (s : State) : (emit e s).now = s.now := rfl
@[simp] theorem emit_trace (e : Entry) (s : State) : (emit e s).trace = s.trace ++ [⟨s.now, e⟩] := rfl
@[simp] theorem emit_serial (e : Entry) (s : State) : (emit e s).serial = s.serial := rfl
@[simp] theorem emit_radio (e : Entry) (s : State) : (emit e s).radio = s.radio := rfl
@[simp] theorem emit_main (e : Entry) (s : State) : (emit e s).main = s.main := rfl
@[simp] theorem emit_env (e : Entry) (s : State) : (emit e s).env = s.env := rfl

/-! ### timerArm -/

@[simp] theorem timerArm_params (d : Nat) (s : State) : (timerArm d s).params = s.params := rfl
@[simp] theorem timerArm_now (d : Nat) (s : State) : (timerArm d s).now = s.now := rfl
@[simp] theorem timerArm_trace (d : Nat) (s : State) : (timerArm d s).trace = s.trace := rfl
@[simp] theorem timerArm_serial_txShift (d : Nat) (s : State) :
    (timerArm d s).serial.txShift = s.serial.txShift := rfl
@[simp] theorem timerArm_serial_rxReg (d : Nat) (s : State) : (timerArm d s).serial.rxReg = s.serial.rxReg := rfl
@[simp] theorem timerArm_serial_bitIndex (d : Nat) (s : State) :
    (timerArm d s).serial.bitIndex = s.serial.bitIndex := rfl
@[simp] theorem timerArm_serial_receivedFlag (d : Nat) (s : State) :
    (timerArm d s).serial.receivedFlag = s.serial.receivedFlag := rfl
@[simp] theorem timerArm_serial_txBusy (d : Nat) (s : State) : (timerArm d s).serial.txBusy = s.serial.txBusy := rfl
@[simp] theorem timerArm_serial_mode (d : Nat) (s : State) : (timerArm d s).serial.mode = s.serial.mode := rfl
@[simp] theorem timerArm_serial_rxSync (d : Nat) (s : State) : (timerArm d s).serial.rxSync = s.serial.rxSync := rfl
@[simp] theorem timerArm_serial_timerEnable (d : Nat) (s : State) : (timerArm d s).serial.timerEnable = true := rfl
@[simp] theorem timerArm_serial_timerDue (d : Nat) (s : State) : (timerArm d s).serial.timerDue = s.now + d := rfl
@[simp] theorem timerArm_serial_edgeEnable (d : Nat) (s : State) :
    (timerArm d s).serial.edgeEnable = s.serial.edgeEnable := rfl
@[simp] theorem timerArm_serial_txd (d : Nat) (s : State) : (timerArm d s).serial.txd = s.serial.txd := rfl
@[simp] theorem timerArm_radio (d : Nat) (s : State) : (timerArm d s).radio = s.radio := rfl
@[simp] theorem timerArm_main (d : Nat) (s : State) : (timerArm d s).main = s.main := rfl
@[simp] theorem timerArm_env (d : Nat) (s : State) : (timerArm d s).env = s.env := rfl

/-! ### timerDisarm -/

@[simp] theorem timerDisarm_params (s : State) : (timerDisarm s).params = s.params := rfl
@[simp] theorem timerDisarm_now (s : State) : (timerDisarm s).now = s.now := rfl
@[simp] theorem timerDisarm_trace (s : State) : (timerDisarm s).trace = s.trace := rfl
@[simp] theorem timerDisarm_serial_txShift (s : State) : (timerDisarm s).serial.txShift = s.serial.txShift := rfl
@[simp] theorem timerDisarm_serial_rxReg (s : State) : (timerDisarm s).serial.rxReg = s.serial.rxReg := rfl
@[simp] theorem timerDisarm_serial_bitIndex (s : State) : (timerDisarm s).serial.bitIndex = s.serial.bitIndex := rfl
@[simp] theorem timerDisarm_serial_receivedFlag (s : State) :
    (timerDisarm s).serial.receivedFlag = s.serial.receivedFlag := rfl
@[simp] theorem timerDisarm_serial_txBusy (s : State) : (timerDisarm s).serial.txBusy = s.serial.txBusy := rfl
@[simp] theorem timerDisarm_serial_mode (s : State) : (timerDisarm s).serial.mode = s.serial.mode := rfl
@[simp] theorem timerDisarm_serial_rxSync (s : State) : (timerDisarm s).serial.rxSync = s.serial.rxSync := rfl
@[simp] theorem timerDisarm_serial_timerEnable (s : State) : (timerDisarm s).serial.timerEnable = false := rfl
@[simp] theorem timerDisarm_serial_timerDue (s : State) : (timerDisarm s).serial.timerDue = s.serial.timerDue := rfl
@[simp] theorem timerDisarm_serial_edgeEnable (s : State) :
    (timerDisarm s).serial.edgeEnable = s.serial.edgeEnable := rfl
@[simp] theorem timerDisarm_serial_txd (s : State) : (timerDisarm s).serial.txd = s.serial.txd := rfl
@[simp] theorem timerDisarm_radio (s : State) : (timerDisarm s).radio = s.radio := rfl
@[simp] theorem timerDisarm_main (s : State) : (timerDisarm s).main = s.main := rfl
@[simp] theorem timerDisarm_env (s : State) : (timerDisarm s).env = s.env := rfl

/-! ### timerReload -/

@[simp] theorem timerReload_params (s : State) : (timerReload s).params = s.params := rfl
@[simp] theorem timerReload_now (s : State) : (timerReload s).now = s.now := rfl
@[simp] theorem timerReload_trace (s : State) : (timerReload s).trace = s.trace := rfl
@[simp] theorem timerReload_serial_txShift (s : State) : (timerReload s).serial.txShift = s.serial.txShift := rfl
@[simp] theorem timerReload_serial_rxReg (s : State) : (timerReload s).serial.rxReg = s.serial.rxReg := rfl
@[simp] theorem timerReload_serial_bitIndex (s : State) : (timerReload s).serial.bitIndex = s.serial.bitIndex := rfl
@[simp] theorem timerReload_serial_receivedFlag (s : State) :
    (timerReload s).serial.receivedFlag = s.serial.receivedFlag := rfl
@[simp] theorem timerReload_serial_txBusy (s : State) : (timerReload s).serial.txBusy = s.serial.txBusy := rfl
@[simp] theorem timerReload_serial_mode (s : State) : (timerReload s).serial.mode = s.serial.mode := rfl
@[simp] theorem timerReload_serial_rxSync (s : State) : (timerReload s).serial.rxSync = s.serial.rxSync := rfl
@[simp] theorem timerReload_serial_timerEnable (s : State) :
    (timerReload s).serial.timerEnable = s.serial.timerEnable := rfl
@[simp] theorem timerReload_serial_timerDue (s : State) :
    (timerReload s).serial.timerDue = s.serial.timerDue + s.params.bitPeriod := rfl
@[simp] theorem timerReload_serial_edgeEnable (s : State) :
    (timerReload s).serial.edgeEnable = s.serial.edgeEnable := rfl
@[simp] theorem timerReload_serial_txd (s : State) : (timerReload s).serial.txd = s.serial.txd := rfl
@[simp] theorem timerReload_radio (s : State) : (timerReload s).radio = s.radio := rfl
@[simp] theorem timerReload_main (s : State) : (timerReload s).main = s.main := rfl
@[simp] theorem timerReload_env (s : State) : (timerReload s).env = s.env := rfl

/-! ### enterInterrupt -/

@[simp] theorem enterInterrupt_params (s : State) : (enterInterrupt s).params = s.params := rfl
@[simp] theorem enterInterrupt_now (s : State) : (enterInterrupt s).now = s.now := rfl
@[simp] theorem enterInterrupt_trace (s : State) : (enterInterrupt s).trace = s.trace := rfl
@[simp] theorem enterInterrupt_serial (s : State) : (enterInterrupt s).serial = s.serial := rfl
@[simp] theorem enterInterrupt_radio (s : State) : (enterInterrupt s).radio = s.radio := rfl
@[simp] theorem enterInterrupt_main_context (s : State) : (enterInterrupt s).main.context = .interrupt := rfl
@[simp] theorem enterInterrupt_main_cont (s : State) : (enterInterrupt s).main.cont = s.main.cont := rfl
@[simp] theorem enterInterrupt_main_stall (s : State) : (enterInterrupt s).main.stall = s.main.stall := rfl
@[simp] theorem enterInterrupt_main_localB (s : State) : (enterInterrupt s).main.localB = s.main.localB := rfl
@[simp] theorem enterInterrupt_main_localX (s : State) : (enterInterrupt s).main.localX = s.main.localX := rfl
@[simp] theorem enterInterrupt_main_script (s : State) : (enterInterrupt s).main.script = s.main.script := rfl
@[simp] theorem enterInterrupt_main_endless (s : State) : (enterInterrupt s).main.endless = s.main.endless := rfl
@[simp] theorem enterInterrupt_main_hostTurns (s : State) :
    (enterInterrupt s).main.hostTurns = s.main.hostTurns := rfl
@[simp] theorem enterInterrupt_main_returns (s : State) : (enterInterrupt s).main.returns = s.main.returns := rfl
@[simp] theorem enterInterrupt_env (s : State) : (enterInterrupt s).env = s.env := rfl

/-! ### returnFromInterrupt -/

@[simp] theorem returnFromInterrupt_params (c : Context) (s : State) :
    (returnFromInterrupt c s).params = s.params := rfl
@[simp] theorem returnFromInterrupt_now (c : Context) (s : State) : (returnFromInterrupt c s).now = s.now := rfl
@[simp] theorem returnFromInterrupt_trace (c : Context) (s : State) : (returnFromInterrupt c s).trace = s.trace := rfl
@[simp] theorem returnFromInterrupt_serial (c : Context) (s : State) :
    (returnFromInterrupt c s).serial = s.serial := rfl
@[simp] theorem returnFromInterrupt_radio (c : Context) (s : State) : (returnFromInterrupt c s).radio = s.radio := rfl
@[simp] theorem returnFromInterrupt_main_context (c : Context) (s : State) :
    (returnFromInterrupt c s).main.context = c := rfl
@[simp] theorem returnFromInterrupt_main_cont (c : Context) (s : State) :
    (returnFromInterrupt c s).main.cont = s.main.cont := rfl
@[simp] theorem returnFromInterrupt_main_stall (c : Context) (s : State) :
    (returnFromInterrupt c s).main.stall = s.main.stall := rfl
@[simp] theorem returnFromInterrupt_main_localB (c : Context) (s : State) :
    (returnFromInterrupt c s).main.localB = s.main.localB := rfl
@[simp] theorem returnFromInterrupt_main_localX (c : Context) (s : State) :
    (returnFromInterrupt c s).main.localX = s.main.localX := rfl
@[simp] theorem returnFromInterrupt_main_script (c : Context) (s : State) :
    (returnFromInterrupt c s).main.script = s.main.script := rfl
@[simp] theorem returnFromInterrupt_main_endless (c : Context) (s : State) :
    (returnFromInterrupt c s).main.endless = s.main.endless := rfl
@[simp] theorem returnFromInterrupt_main_hostTurns (c : Context) (s : State) :
    (returnFromInterrupt c s).main.hostTurns = s.main.hostTurns := rfl
@[simp] theorem returnFromInterrupt_main_returns (c : Context) (s : State) :
    (returnFromInterrupt c s).main.returns = s.main.returns := rfl
@[simp] theorem returnFromInterrupt_env (c : Context) (s : State) : (returnFromInterrupt c s).env = s.env := rfl

/-! ### returnValue -/

@[simp] theorem returnValue_params (r : Ret) (s : State) : (returnValue r s).params = s.params := rfl
@[simp] theorem returnValue_now (r : Ret) (s : State) : (returnValue r s).now = s.now := rfl
@[simp] theorem returnValue_trace (r : Ret) (s : State) : (returnValue r s).trace = s.trace := rfl
@[simp] theorem returnValue_serial (r : Ret) (s : State) : (returnValue r s).serial = s.serial := rfl
@[simp] theorem returnValue_radio (r : Ret) (s : State) : (returnValue r s).radio = s.radio := rfl
@[simp] theorem returnValue_main_context (r : Ret) (s : State) :
    (returnValue r s).main.context = s.main.context := rfl
@[simp] theorem returnValue_main_cont (r : Ret) (s : State) : (returnValue r s).main.cont = s.main.cont := rfl
@[simp] theorem returnValue_main_stall (r : Ret) (s : State) : (returnValue r s).main.stall = s.main.stall := rfl
@[simp] theorem returnValue_main_localB (r : Ret) (s : State) : (returnValue r s).main.localB = s.main.localB := rfl
@[simp] theorem returnValue_main_localX (r : Ret) (s : State) : (returnValue r s).main.localX = s.main.localX := rfl
@[simp] theorem returnValue_main_script (r : Ret) (s : State) : (returnValue r s).main.script = s.main.script := rfl
@[simp] theorem returnValue_main_endless (r : Ret) (s : State) :
    (returnValue r s).main.endless = s.main.endless := rfl
@[simp] theorem returnValue_main_hostTurns (r : Ret) (s : State) :
    (returnValue r s).main.hostTurns = s.main.hostTurns := rfl
@[simp] theorem returnValue_main_returns (r : Ret) (s : State) :
    (returnValue r s).main.returns = s.main.returns ++ [r] := rfl
@[simp] theorem returnValue_env (r : Ret) (s : State) : (returnValue r s).env = s.env := rfl

/-! ### bufferWrite -/

@[simp] theorem bufferWrite_params (i : Nat) (v : Byte) (s : State) : (bufferWrite i v s).params = s.params := rfl
@[simp] theorem bufferWrite_now (i : Nat) (v : Byte) (s : State) : (bufferWrite i v s).now = s.now := rfl
@[simp] theorem bufferWrite_trace (i : Nat) (v : Byte) (s : State) : (bufferWrite i v s).trace = s.trace := rfl
@[simp] theorem bufferWrite_serial (i : Nat) (v : Byte) (s : State) : (bufferWrite i v s).serial = s.serial := rfl
@[simp] theorem bufferWrite_radio_ce (i : Nat) (v : Byte) (s : State) :
    (bufferWrite i v s).radio.ce = s.radio.ce := rfl
@[simp] theorem bufferWrite_radio_cs (i : Nat) (v : Byte) (s : State) :
    (bufferWrite i v s).radio.cs = s.radio.cs := rfl
@[simp] theorem bufferWrite_radio_clk (i : Nat) (v : Byte) (s : State) :
    (bufferWrite i v s).radio.clk = s.radio.clk := rfl
@[simp] theorem bufferWrite_radio_dataOut (i : Nat) (v : Byte) (s : State) :
    (bufferWrite i v s).radio.dataOut = s.radio.dataOut := rfl
@[simp] theorem bufferWrite_radio_ceDir (i : Nat) (v : Byte) (s : State) :
    (bufferWrite i v s).radio.ceDir = s.radio.ceDir := rfl
@[simp] theorem bufferWrite_radio_csDir (i : Nat) (v : Byte) (s : State) :
    (bufferWrite i v s).radio.csDir = s.radio.csDir := rfl
@[simp] theorem bufferWrite_radio_clkDir (i : Nat) (v : Byte) (s : State) :
    (bufferWrite i v s).radio.clkDir = s.radio.clkDir := rfl
@[simp] theorem bufferWrite_radio_drDir (i : Nat) (v : Byte) (s : State) :
    (bufferWrite i v s).radio.drDir = s.radio.drDir := rfl
@[simp] theorem bufferWrite_radio_dataDir (i : Nat) (v : Byte) (s : State) :
    (bufferWrite i v s).radio.dataDir = s.radio.dataDir := rfl
@[simp] theorem bufferWrite_radio_lineDirSet (i : Nat) (v : Byte) (s : State) :
    (bufferWrite i v s).radio.lineDirSet = s.radio.lineDirSet := rfl
@[simp] theorem bufferWrite_radio_configured (i : Nat) (v : Byte) (s : State) :
    (bufferWrite i v s).radio.configured = s.radio.configured := rfl
@[simp] theorem bufferWrite_radio_radioMode (i : Nat) (v : Byte) (s : State) :
    (bufferWrite i v s).radio.radioMode = s.radio.radioMode := rfl
@[simp] theorem bufferWrite_radio_packetBuffer (i : Nat) (v : Byte) (s : State) :
    (bufferWrite i v s).radio.packetBuffer = s.radio.packetBuffer.set i v := rfl
@[simp] theorem bufferWrite_main (i : Nat) (v : Byte) (s : State) : (bufferWrite i v s).main = s.main := rfl
@[simp] theorem bufferWrite_env (i : Nat) (v : Byte) (s : State) : (bufferWrite i v s).env = s.env := rfl

/-! ### enableEdge -/

@[simp] theorem enableEdge_params (s : State) : (enableEdge s).params = s.params := rfl
@[simp] theorem enableEdge_now (s : State) : (enableEdge s).now = s.now := rfl
@[simp] theorem enableEdge_trace (s : State) : (enableEdge s).trace = s.trace := rfl
@[simp] theorem enableEdge_serial_txShift (s : State) : (enableEdge s).serial.txShift = s.serial.txShift := rfl
@[simp] theorem enableEdge_serial_rxReg (s : State) : (enableEdge s).serial.rxReg = s.serial.rxReg := rfl
@[simp] theorem enableEdge_serial_bitIndex (s : State) : (enableEdge s).serial.bitIndex = s.serial.bitIndex := rfl
@[simp] theorem enableEdge_serial_receivedFlag (s : State) :
    (enableEdge s).serial.receivedFlag = s.serial.receivedFlag := rfl
@[simp] theorem enableEdge_serial_txBusy (s : State) : (enableEdge s).serial.txBusy = s.serial.txBusy := rfl
@[simp] theorem enableEdge_serial_mode (s : State) : (enableEdge s).serial.mode = s.serial.mode := rfl
@[simp] theorem enableEdge_serial_rxSync (s : State) : (enableEdge s).serial.rxSync = s.serial.rxSync := rfl
@[simp] theorem enableEdge_serial_timerEnable (s : State) :
    (enableEdge s).serial.timerEnable = s.serial.timerEnable := rfl
@[simp] theorem enableEdge_serial_timerDue (s : State) : (enableEdge s).serial.timerDue = s.serial.timerDue := rfl
@[simp] theorem enableEdge_serial_edgeEnable (s : State) : (enableEdge s).serial.edgeEnable = true := rfl
@[simp] theorem enableEdge_serial_txd (s : State) : (enableEdge s).serial.txd = s.serial.txd := rfl
@[simp] theorem enableEdge_radio (s : State) : (enableEdge s).radio = s.radio := rfl
@[simp] theorem enableEdge_main (s : State) : (enableEdge s).main = s.main := rfl
@[simp] theorem enableEdge_env_rxd (s : State) : (enableEdge s).env.rxd = s.env.rxd := rfl
@[simp] theorem enableEdge_env_rxdFell (s : State) : (enableEdge s).env.rxdFell = false := rfl
@[simp] theorem enableEdge_env_pace (s : State) : (enableEdge s).env.pace = s.env.pace := rfl
@[simp] theorem enableEdge_env_rxdIn (s : State) : (enableEdge s).env.rxdIn = s.env.rxdIn := rfl
@[simp] theorem enableEdge_env_dataIn (s : State) : (enableEdge s).env.dataIn = s.env.dataIn := rfl
@[simp] theorem enableEdge_env_drIn (s : State) : (enableEdge s).env.drIn = s.env.drIn := rfl
@[simp] theorem enableEdge_env_dataReads (s : State) : (enableEdge s).env.dataReads = s.env.dataReads := rfl
@[simp] theorem enableEdge_env_drReads (s : State) : (enableEdge s).env.drReads = s.env.drReads := rfl
@[simp] theorem enableEdge_env_timerFires (s : State) : (enableEdge s).env.timerFires = s.env.timerFires := rfl

/-! ### delay -/

@[simp] theorem delay_params (p : DelayParam) (s : State) : (delay p s).params = s.params := rfl
@[simp] theorem delay_now (p : DelayParam) (s : State) : (delay p s).now = s.now := rfl
@[simp] theorem delay_trace (p : DelayParam) (s : State) : (delay p s).trace = s.trace ++ [⟨s.now, .delay p⟩] := rfl
@[simp] theorem delay_serial (p : DelayParam) (s : State) : (delay p s).serial = s.serial := rfl
@[simp] theorem delay_radio (p : DelayParam) (s : State) : (delay p s).radio = s.radio := rfl
@[simp] theorem delay_main_context (p : DelayParam) (s : State) : (delay p s).main.context = s.main.context := rfl
@[simp] theorem delay_main_cont (p : DelayParam) (s : State) : (delay p s).main.cont = s.main.cont := rfl
@[simp] theorem delay_main_stall (p : DelayParam) (s : State) :
    (delay p s).main.stall = s.main.stall + delayTicks p s := rfl
@[simp] theorem delay_main_localB (p : DelayParam) (s : State) : (delay p s).main.localB = s.main.localB := rfl
@[simp] theorem delay_main_localX (p : DelayParam) (s : State) : (delay p s).main.localX = s.main.localX := rfl
@[simp] theorem delay_main_script (p : DelayParam) (s : State) : (delay p s).main.script = s.main.script := rfl
@[simp] theorem delay_main_endless (p : DelayParam) (s : State) : (delay p s).main.endless = s.main.endless := rfl
@[simp] theorem delay_main_hostTurns (p : DelayParam) (s : State) :
    (delay p s).main.hostTurns = s.main.hostTurns := rfl
@[simp] theorem delay_main_returns (p : DelayParam) (s : State) : (delay p s).main.returns = s.main.returns := rfl
@[simp] theorem delay_env (p : DelayParam) (s : State) : (delay p s).env = s.env := rfl

/-! ### advanceClock -/

@[simp] theorem advanceClock_params (s : State) : (advanceClock s).params = s.params := rfl
@[simp] theorem advanceClock_now (s : State) : (advanceClock s).now = s.now + 1 := rfl
@[simp] theorem advanceClock_trace (s : State) : (advanceClock s).trace = s.trace := rfl
@[simp] theorem advanceClock_serial (s : State) : (advanceClock s).serial = s.serial := rfl
@[simp] theorem advanceClock_radio (s : State) : (advanceClock s).radio = s.radio := rfl
@[simp] theorem advanceClock_main (s : State) : (advanceClock s).main = s.main := rfl
@[simp] theorem advanceClock_env_rxd (s : State) : (advanceClock s).env.rxd = nextRxd s := rfl
@[simp] theorem advanceClock_env_rxdFell (s : State) : (advanceClock s).env.rxdFell = (s.env.rxd && !nextRxd s) := rfl
@[simp] theorem advanceClock_env_pace (s : State) : (advanceClock s).env.pace = s.env.pace := rfl
@[simp] theorem advanceClock_env_rxdIn (s : State) : (advanceClock s).env.rxdIn = s.env.rxdIn.tail := rfl
@[simp] theorem advanceClock_env_dataIn (s : State) : (advanceClock s).env.dataIn = s.env.dataIn := rfl
@[simp] theorem advanceClock_env_drIn (s : State) : (advanceClock s).env.drIn = s.env.drIn := rfl
@[simp] theorem advanceClock_env_dataReads (s : State) : (advanceClock s).env.dataReads = s.env.dataReads := rfl
@[simp] theorem advanceClock_env_drReads (s : State) : (advanceClock s).env.drReads = s.env.drReads := rfl
@[simp] theorem advanceClock_env_timerFires (s : State) : (advanceClock s).env.timerFires = s.env.timerFires := rfl

/-! ### The lines -/

@[simp] theorem setLatch_params (l : OutLine) (v : Bit) (s : State) :
    (setLatch l v s).params = s.params := by cases l <;> rfl
@[simp] theorem setLatch_now (l : OutLine) (v : Bit) (s : State) : (setLatch l v s).now = s.now := by cases l <;> rfl
@[simp] theorem setLatch_trace (l : OutLine) (v : Bit) (s : State) :
    (setLatch l v s).trace = s.trace := by cases l <;> rfl
@[simp] theorem setLatch_main (l : OutLine) (v : Bit) (s : State) :
    (setLatch l v s).main = s.main := by cases l <;> rfl
@[simp] theorem setLatch_env (l : OutLine) (v : Bit) (s : State) : (setLatch l v s).env = s.env := by cases l <;> rfl
@[simp] theorem setLine_params (l : OutLine) (v : Bit) (s : State) :
    (setLine l v s).params = s.params := by cases l <;> rfl
@[simp] theorem setLine_now (l : OutLine) (v : Bit) (s : State) : (setLine l v s).now = s.now := by cases l <;> rfl
@[simp] theorem setLine_main (l : OutLine) (v : Bit) (s : State) : (setLine l v s).main = s.main := by cases l <;> rfl
@[simp] theorem setLine_env (l : OutLine) (v : Bit) (s : State) : (setLine l v s).env = s.env := by cases l <;> rfl
@[simp] theorem setLine_trace (l : OutLine) (v : Bit) (s : State) :
    (setLine l v s).trace = s.trace ++ [⟨s.now, .set l v⟩] := by cases l <;> rfl
@[simp] theorem setLine_txd (v : Bit) (s : State) : (setLine .txd v s).serial = { s.serial with txd := v } := rfl
@[simp] theorem setLine_txd_radio (v : Bit) (s : State) : (setLine .txd v s).radio = s.radio := rfl
@[simp] theorem setLine_ce_radio (v : Bit) (s : State) : (setLine .ce v s).radio = { s.radio with ce := v } := rfl
@[simp] theorem setLine_ce_serial (v : Bit) (s : State) : (setLine .ce v s).serial = s.serial := rfl
@[simp] theorem setLine_cs_radio (v : Bit) (s : State) : (setLine .cs v s).radio = { s.radio with cs := v } := rfl
@[simp] theorem setLine_cs_serial (v : Bit) (s : State) : (setLine .cs v s).serial = s.serial := rfl
@[simp] theorem setLine_clk_radio (v : Bit) (s : State) : (setLine .clk v s).radio = { s.radio with clk := v } := rfl
@[simp] theorem setLine_clk_serial (v : Bit) (s : State) : (setLine .clk v s).serial = s.serial := rfl
@[simp] theorem setLine_data_radio (v : Bit) (s : State) :
    (setLine .data v s).radio = { s.radio with dataOut := v } := rfl
@[simp] theorem setLine_data_serial (v : Bit) (s : State) : (setLine .data v s).serial = s.serial := rfl
@[simp] theorem setDir_params (l : RadioLine) (d : Dir) (s : State) :
    (setDir l d s).params = s.params := by cases l <;> rfl
@[simp] theorem setDir_now (l : RadioLine) (d : Dir) (s : State) : (setDir l d s).now = s.now := by cases l <;> rfl
@[simp] theorem setDir_main (l : RadioLine) (d : Dir) (s : State) : (setDir l d s).main = s.main := by cases l <;> rfl
@[simp] theorem setDir_env (l : RadioLine) (d : Dir) (s : State) : (setDir l d s).env = s.env := by cases l <;> rfl
@[simp] theorem setDir_serial (l : RadioLine) (d : Dir) (s : State) :
    (setDir l d s).serial = s.serial := by cases l <;> rfl
@[simp] theorem setDir_trace (l : RadioLine) (d : Dir) (s : State) :
    (setDir l d s).trace = s.trace ++ [⟨s.now, .dir l d⟩] := by cases l <;> rfl
@[simp] theorem setDir_ce_radio (d : Dir) (s : State) : (setDir .ce d s).radio = { s.radio with ceDir := d } := rfl
@[simp] theorem setDir_cs_radio (d : Dir) (s : State) : (setDir .cs d s).radio = { s.radio with csDir := d } := rfl
@[simp] theorem setDir_clk_radio (d : Dir) (s : State) : (setDir .clk d s).radio = { s.radio with clkDir := d } := rfl
@[simp] theorem setDir_data_radio (d : Dir) (s : State) :
    (setDir .data d s).radio = { s.radio with dataDir := d } := rfl
@[simp] theorem setDir_dr_radio (d : Dir) (s : State) : (setDir .dr d s).radio = { s.radio with drDir := d } := rfl

/-! ### Samples -/

@[simp] theorem answerData_params (s : State) :
    (answerData s).2.params = s.params := by unfold answerData; split <;> rfl
@[simp] theorem answerData_now (s : State) : (answerData s).2.now = s.now := by unfold answerData; split <;> rfl
@[simp] theorem answerData_trace (s : State) : (answerData s).2.trace = s.trace := by unfold answerData; split <;> rfl
@[simp] theorem answerData_main (s : State) : (answerData s).2.main = s.main := by unfold answerData; split <;> rfl
@[simp] theorem answerData_serial (s : State) :
    (answerData s).2.serial = s.serial := by unfold answerData; split <;> rfl
@[simp] theorem answerData_radio (s : State) : (answerData s).2.radio = s.radio := by unfold answerData; split <;> rfl
@[simp] theorem answerData_env_rxd (s : State) :
    (answerData s).2.env.rxd = s.env.rxd := by unfold answerData; split <;> rfl
@[simp] theorem answerData_env_rxdFell (s : State) :
    (answerData s).2.env.rxdFell = s.env.rxdFell := by unfold answerData; split <;> rfl
@[simp] theorem answerData_env_pace (s : State) :
    (answerData s).2.env.pace = s.env.pace := by unfold answerData; split <;> rfl
@[simp] theorem answerData_env_rxdIn (s : State) :
    (answerData s).2.env.rxdIn = s.env.rxdIn := by unfold answerData; split <;> rfl
@[simp] theorem answerData_env_timerFires (s : State) :
    (answerData s).2.env.timerFires = s.env.timerFires := by unfold answerData; split <;> rfl
@[simp] theorem answerData_env_drIn (s : State) :
    (answerData s).2.env.drIn = s.env.drIn := by unfold answerData; split <;> rfl
@[simp] theorem answerData_env_drReads (s : State) :
    (answerData s).2.env.drReads = s.env.drReads := by unfold answerData; split <;> rfl
@[simp] theorem answerDr_params (s : State) : (answerDr s).2.params = s.params := by unfold answerDr; split <;> rfl
@[simp] theorem answerDr_now (s : State) : (answerDr s).2.now = s.now := by unfold answerDr; split <;> rfl
@[simp] theorem answerDr_trace (s : State) : (answerDr s).2.trace = s.trace := by unfold answerDr; split <;> rfl
@[simp] theorem answerDr_main (s : State) : (answerDr s).2.main = s.main := by unfold answerDr; split <;> rfl
@[simp] theorem answerDr_serial (s : State) : (answerDr s).2.serial = s.serial := by unfold answerDr; split <;> rfl
@[simp] theorem answerDr_radio (s : State) : (answerDr s).2.radio = s.radio := by unfold answerDr; split <;> rfl
@[simp] theorem answerDr_env_rxd (s : State) : (answerDr s).2.env.rxd = s.env.rxd := by unfold answerDr; split <;> rfl
@[simp] theorem answerDr_env_rxdFell (s : State) :
    (answerDr s).2.env.rxdFell = s.env.rxdFell := by unfold answerDr; split <;> rfl
@[simp] theorem answerDr_env_pace (s : State) :
    (answerDr s).2.env.pace = s.env.pace := by unfold answerDr; split <;> rfl
@[simp] theorem answerDr_env_rxdIn (s : State) :
    (answerDr s).2.env.rxdIn = s.env.rxdIn := by unfold answerDr; split <;> rfl
@[simp] theorem answerDr_env_timerFires (s : State) :
    (answerDr s).2.env.timerFires = s.env.timerFires := by unfold answerDr; split <;> rfl
@[simp] theorem answerDr_env_dataIn (s : State) :
    (answerDr s).2.env.dataIn = s.env.dataIn := by unfold answerDr; split <;> rfl
@[simp] theorem answerDr_env_dataReads (s : State) :
    (answerDr s).2.env.dataReads = s.env.dataReads := by unfold answerDr; split <;> rfl
@[simp] theorem sampleDr_params (s : State) : (sampleDr s).2.params = s.params := by simp [sampleDr]
@[simp] theorem sampleData_params (s : State) :
    (sampleData s).2.params = s.params := by unfold sampleData; split <;> simp
@[simp] theorem sampleRxd_params (s : State) : (sampleRxd s).2.params = s.params := rfl
@[simp] theorem sampleDr_now (s : State) : (sampleDr s).2.now = s.now := by simp [sampleDr]
@[simp] theorem sampleData_now (s : State) : (sampleData s).2.now = s.now := by unfold sampleData; split <;> simp
@[simp] theorem sampleRxd_now (s : State) : (sampleRxd s).2.now = s.now := rfl
@[simp] theorem sampleDr_main (s : State) : (sampleDr s).2.main = s.main := by simp [sampleDr]
@[simp] theorem sampleData_main (s : State) : (sampleData s).2.main = s.main := by unfold sampleData; split <;> simp
@[simp] theorem sampleRxd_main (s : State) : (sampleRxd s).2.main = s.main := rfl
@[simp] theorem sampleDr_serial (s : State) : (sampleDr s).2.serial = s.serial := by simp [sampleDr]
@[simp] theorem sampleData_serial (s : State) :
    (sampleData s).2.serial = s.serial := by unfold sampleData; split <;> simp
@[simp] theorem sampleRxd_serial (s : State) : (sampleRxd s).2.serial = s.serial := rfl
@[simp] theorem sampleDr_radio (s : State) : (sampleDr s).2.radio = s.radio := by simp [sampleDr]
@[simp] theorem sampleData_radio (s : State) :
    (sampleData s).2.radio = s.radio := by unfold sampleData; split <;> simp
@[simp] theorem sampleRxd_radio (s : State) : (sampleRxd s).2.radio = s.radio := rfl
@[simp] theorem sampleDr_env_pace (s : State) : (sampleDr s).2.env.pace = s.env.pace := by simp [sampleDr]
@[simp] theorem sampleData_env_pace (s : State) :
    (sampleData s).2.env.pace = s.env.pace := by unfold sampleData; split <;> simp

/-! ### Yield points -/

@[simp] theorem yield_params (s : State) : (yield s).params = s.params := by unfold yield; split <;> rfl
@[simp] theorem yield_now (s : State) : (yield s).now = s.now := by unfold yield; split <;> rfl
@[simp] theorem yield_trace (s : State) : (yield s).trace = s.trace := by unfold yield; split <;> rfl
@[simp] theorem yield_serial (s : State) : (yield s).serial = s.serial := by unfold yield; split <;> rfl
@[simp] theorem yield_radio (s : State) : (yield s).radio = s.radio := by unfold yield; split <;> rfl
@[simp] theorem yield_main_context (s : State) :
    (yield s).main.context = s.main.context := by unfold yield; split <;> rfl
@[simp] theorem yield_main_cont (s : State) : (yield s).main.cont = s.main.cont := by unfold yield; split <;> rfl
@[simp] theorem yield_main_localB (s : State) :
    (yield s).main.localB = s.main.localB := by unfold yield; split <;> rfl
@[simp] theorem yield_main_localX (s : State) :
    (yield s).main.localX = s.main.localX := by unfold yield; split <;> rfl
@[simp] theorem yield_main_script (s : State) :
    (yield s).main.script = s.main.script := by unfold yield; split <;> rfl
@[simp] theorem yield_main_endless (s : State) :
    (yield s).main.endless = s.main.endless := by unfold yield; split <;> rfl
@[simp] theorem yield_main_hostTurns (s : State) :
    (yield s).main.hostTurns = s.main.hostTurns := by unfold yield; split <;> rfl
@[simp] theorem yield_main_returns (s : State) :
    (yield s).main.returns = s.main.returns := by unfold yield; split <;> rfl
@[simp] theorem yield_env_rxd (s : State) : (yield s).env.rxd = s.env.rxd := by unfold yield; split <;> rfl
@[simp] theorem yield_env_rxdFell (s : State) :
    (yield s).env.rxdFell = s.env.rxdFell := by unfold yield; split <;> rfl
@[simp] theorem yield_env_rxdIn (s : State) : (yield s).env.rxdIn = s.env.rxdIn := by unfold yield; split <;> rfl
@[simp] theorem yield_env_dataIn (s : State) : (yield s).env.dataIn = s.env.dataIn := by unfold yield; split <;> rfl
@[simp] theorem yield_env_drIn (s : State) : (yield s).env.drIn = s.env.drIn := by unfold yield; split <;> rfl
@[simp] theorem yield_env_dataReads (s : State) :
    (yield s).env.dataReads = s.env.dataReads := by unfold yield; split <;> rfl
@[simp] theorem yield_env_drReads (s : State) :
    (yield s).env.drReads = s.env.drReads := by unfold yield; split <;> rfl
@[simp] theorem yield_env_timerFires (s : State) :
    (yield s).env.timerFires = s.env.timerFires := by unfold yield; split <;> rfl
@[simp] theorem waitTurn_params (s : State) : (waitTurn s).params = s.params := by unfold waitTurn; split <;> rfl
@[simp] theorem waitTurn_now (s : State) : (waitTurn s).now = s.now := by unfold waitTurn; split <;> rfl
@[simp] theorem waitTurn_trace (s : State) : (waitTurn s).trace = s.trace := by unfold waitTurn; split <;> rfl
@[simp] theorem waitTurn_serial (s : State) : (waitTurn s).serial = s.serial := by unfold waitTurn; split <;> rfl
@[simp] theorem waitTurn_radio (s : State) : (waitTurn s).radio = s.radio := by unfold waitTurn; split <;> rfl
@[simp] theorem waitTurn_main_context (s : State) :
    (waitTurn s).main.context = s.main.context := by unfold waitTurn; split <;> rfl
@[simp] theorem waitTurn_main_cont (s : State) :
    (waitTurn s).main.cont = s.main.cont := by unfold waitTurn; split <;> rfl
@[simp] theorem waitTurn_main_localB (s : State) :
    (waitTurn s).main.localB = s.main.localB := by unfold waitTurn; split <;> rfl
@[simp] theorem waitTurn_main_localX (s : State) :
    (waitTurn s).main.localX = s.main.localX := by unfold waitTurn; split <;> rfl
@[simp] theorem waitTurn_main_script (s : State) :
    (waitTurn s).main.script = s.main.script := by unfold waitTurn; split <;> rfl
@[simp] theorem waitTurn_main_endless (s : State) :
    (waitTurn s).main.endless = s.main.endless := by unfold waitTurn; split <;> rfl
@[simp] theorem waitTurn_main_hostTurns (s : State) :
    (waitTurn s).main.hostTurns = s.main.hostTurns := by unfold waitTurn; split <;> rfl
@[simp] theorem waitTurn_main_returns (s : State) :
    (waitTurn s).main.returns = s.main.returns := by unfold waitTurn; split <;> rfl
@[simp] theorem waitTurn_env_rxd (s : State) : (waitTurn s).env.rxd = s.env.rxd := by unfold waitTurn; split <;> rfl
@[simp] theorem waitTurn_env_rxdFell (s : State) :
    (waitTurn s).env.rxdFell = s.env.rxdFell := by unfold waitTurn; split <;> rfl
@[simp] theorem waitTurn_env_rxdIn (s : State) :
    (waitTurn s).env.rxdIn = s.env.rxdIn := by unfold waitTurn; split <;> rfl
@[simp] theorem waitTurn_env_dataIn (s : State) :
    (waitTurn s).env.dataIn = s.env.dataIn := by unfold waitTurn; split <;> rfl
@[simp] theorem waitTurn_env_drIn (s : State) :
    (waitTurn s).env.drIn = s.env.drIn := by unfold waitTurn; split <;> rfl
@[simp] theorem waitTurn_env_dataReads (s : State) :
    (waitTurn s).env.dataReads = s.env.dataReads := by unfold waitTurn; split <;> rfl
@[simp] theorem waitTurn_env_drReads (s : State) :
    (waitTurn s).env.drReads = s.env.drReads := by unfold waitTurn; split <;> rfl
@[simp] theorem waitTurn_env_timerFires (s : State) :
    (waitTurn s).env.timerFires = s.env.timerFires := by unfold waitTurn; split <;> rfl

/-- With no schedule a yield point changes nothing. -/
theorem yield_of_pace_nil {s : State} (h : s.env.pace = []) : yield s = s := by simp [yield, h]

end Sys2Proof.Machine
end

