-- ==== Sys2Proof/Laws/Ops.lean ====
section
/-! SUPPORT. What each shared operation can do, said once: the checks before a call, a micro-step, a run of micro-steps. -/

namespace Sys2Proof.Machine

open Sys2Proof

/-! ### The checks before a call -/

/-- A reported fault is one of the failed checks. -/
theorem firstFault_mem {c : List (Bool × Fault)} {f : Fault} (h : firstFault c = some f) : (true, f) ∈ c := by
  induction c with
  | nil => simp [firstFault] at h
  | cons x xs ih =>
    obtain ⟨b, g⟩ := x
    simp only [firstFault] at h
    split at h
    · next hb => cases h; simp [hb]
    · simp [ih h]

/-- No fault is reported exactly when no check fails. -/
theorem firstFault_none_iff {c : List (Bool × Fault)} : firstFault c = none ↔ ∀ x ∈ c, x.1 = false := by
  induction c with
  | nil => simp [firstFault]
  | cons x xs ih =>
    obtain ⟨b, g⟩ := x
    cases b
    · simpa [firstFault] using ih
    · simp [firstFault]

/-- The outcomes of a host call: the context check, then the types, then the checks in order, then its lines. -/
theorem hostCall_eq {w : Bool} {c : List (Bool × Fault)} {s : State} {b : Host.Outcome State Fault Refusal} :
    hostCall w c s b =
      if s.main.context = .interrupt then .fault .interruptContextCall
      else if w = false then .refused .badOperand
      else match firstFault c with
        | some f => .fault f
        | none => b := by
  unfold hostCall
  split
  · rfl
  · cases w <;> rfl

/-- A call that answers a next state passed every check, and its lines answer that state. -/
theorem hostCall_next {w : Bool} {c : List (Bool × Fault)} {s t : State} {b : Host.Outcome State Fault Refusal}
    (h : hostCall w c s b = .next t) : s.main.context = .main ∧ w = true ∧ firstFault c = none ∧ b = .next t := by
  unfold hostCall at h
  split at h
  · cases h
  · next hc =>
    split at h
    · next hw =>
      split at h
      · cases h
      · next hf => exact ⟨by cases hx : s.main.context <;> simp_all, hw, hf, h⟩
    · cases h

/-- A call whose checks all pass runs its lines. -/
theorem hostCall_runs {w : Bool} {c : List (Bool × Fault)} {s : State} (b : Host.Outcome State Fault Refusal)
    (hc : s.main.context = .main) (hw : w = true) (hf : firstFault c = none) : hostCall w c s b = b := by
  simp [hostCall, hc, hw, hf]

/-! ### The line trace -/

theorem stampAll_append (t : Nat) (a b : List Entry) : stampAll t (a ++ b) = stampAll t a ++ stampAll t b := by
  simp [stampAll]

theorem outEntries_append (a b : List Bit) : outEntries (a ++ b) = outEntries a ++ outEntries b := by simp [outEntries]

theorem inEntries_append (a b : List Bit) : inEntries (a ++ b) = inEntries a ++ inEntries b := by simp [inEntries]

/-- A trace that stays as it is has grown by nothing. -/
theorem grows_none (s : State) : ∃ es, s.trace = s.trace ++ stampAll s.now es := ⟨[], by simp [stampAll]⟩

/-- A trace with one more entry of this tick. -/
theorem grows_one (s : State) (e : Entry) : ∃ es, s.trace ++ [⟨s.now, e⟩] = s.trace ++ stampAll s.now es := ⟨[e], rfl⟩

theorem sampleDr_trace (s : State) : (sampleDr s).2.trace = s.trace ++ [⟨s.now, .sample .dr (answerDr s).1⟩] := by
  simp [sampleDr]

theorem sampleData_trace (s : State) :
    (sampleData s).2.trace = s.trace ++ [⟨s.now, .sample .data (sampleData s).1⟩] := by
  unfold sampleData; split <;> simp

/-! ### A micro-step -/

/-- Only a yield or a wait writes the schedule. -/
theorem yield_env (s : State) : (yield s).env = { s.env with pace := (yield s).env.pace } := by
  unfold yield; split <;> simp

/-- No micro-step changes the parameters, the time, the context, the script or the levels of `RXD`. -/
theorem microStep_frame {m : Micro} {s s' : State} (h : microStep m s = .done s' ∨ microStep m s = .held s') :
    s'.params = s.params ∧ s'.now = s.now ∧ s'.main.context = s.main.context ∧ s'.main.script = s.main.script
      ∧ s'.env.rxd = s.env.rxd ∧ s'.env.rxdIn = s.env.rxdIn ∧ s'.main.endless = s.main.endless
      ∧ s'.main.hostTurns = s.main.hostTurns ∧ s'.env.timerFires = s.env.timerFires := by
  cases m <;> simp only [microStep] at h <;> (try split at h) <;> rcases h with h | h <;> cases h <;>
    simp [sampleDr, sampleData, delay] <;> split <;> simp

/-- A micro-step only appends to the line trace, with the present time. -/
theorem microStep_trace {m : Micro} {s s' : State} (h : microStep m s = .done s' ∨ microStep m s = .held s') :
    ∃ es, s'.trace = s.trace ++ stampAll s.now es := by
  cases m <;> simp only [microStep] at h <;> (try split at h) <;> rcases h with h | h <;> cases h <;>
    simp only [yield_trace, waitTurn_trace, setLine_trace, setDir_trace, delay_trace, bufferWrite_trace,
      returnValue_trace, timerArm_trace, enableEdge_trace, sampleDr_trace, sampleData_trace] <;>
    first | exact grows_none s | exact grows_one s _

/-- Only the lines of an arming and a level on `TXD` write the serial engine. -/
theorem microStep_serial {m : Micro} {s s' : State} (hm : armingLine m = false) (hx : sparesTxd m = true)
    (h : microStep m s = .done s' ∨ microStep m s = .held s') : s'.serial = s.serial := by
  cases m with
  | set l v =>
    cases l <;> simp only [microStep] at h <;> rcases h with h | h <;> cases h <;> simp_all [sparesTxd]
  | _ =>
    simp only [microStep, armingLine, Bool.true_eq_false] at h hm <;> (try split at h) <;> rcases h with h | h <;>
      cases h <;> simp [delay]

/-- Only the last line of an arming sets an enable bit, and no line clears one; no micro-step writes the mailbox. -/
theorem microStep_enables {m : Micro} {s s' : State} (h : microStep m s = .done s' ∨ microStep m s = .held s') :
    s'.serial.rxReg = s.serial.rxReg ∧ s'.serial.receivedFlag = s.serial.receivedFlag
      ∧ (sparesTxd m = true → s'.serial.txd = s.serial.txd)
      ∧ s'.serial.timerEnable = (s.serial.timerEnable || decide (m = .armLead))
      ∧ s'.serial.edgeEnable = (s.serial.edgeEnable || decide (m = .enableEdge)) := by
  cases m with
  | set l v =>
    cases l <;> simp only [microStep] at h <;> rcases h with h | h <;> cases h <;> simp [sparesTxd]
  | _ => simp only [microStep] at h <;> (try split at h) <;> rcases h with h | h <;> cases h <;> simp [delay]

/-- A micro-step that runs does to the radio driver's shape what `shapeStep` says; one that is held does nothing. -/
theorem microStep_shape {m : Micro} {s s' : State} :
    (microStep m s = .done s' → radioShape s'.radio = shapeStep m (radioShape s.radio))
      ∧ (microStep m s = .held s' → radioShape s'.radio = radioShape s.radio) := by
  constructor
  · intro h
    cases m with
    | set l v => cases l <;> cases h <;> simp [radioShape, shapeStep]
    | dir l v => cases l <;> cases h <;> simp [radioShape, shapeStep]
    | _ => simp only [microStep] at h <;> (try split at h) <;> cases h <;> simp [radioShape, shapeStep, delay]
  · intro h
    cases m <;> simp only [microStep] at h <;> (try split at h) <;> cases h <;> simp [radioShape]

/-- No micro-step changes the length of `PacketBuffer`. -/
theorem microStep_bufferLength {m : Micro} {s s' : State}
    (h : microStep m s = .done s' ∨ microStep m s = .held s') :
    s'.radio.packetBuffer.length = s.radio.packetBuffer.length := by
  cases m with
  | set l v => cases l <;> simp only [microStep] at h <;> rcases h with h | h <;> cases h <;> simp
  | setFromBuffer l v => simp only [microStep] at h; rcases h with h | h <;> cases h; simp
  | dir l v => cases l <;> simp only [microStep] at h <;> rcases h with h | h <;> cases h <;> simp
  | _ =>
    simp only [microStep] at h <;> (try split at h) <;> rcases h with h | h <;> cases h <;> simp [delay]

/-- A micro-step that tests a condition and may fault. -/
def isCheck : Micro → Bool
  | .check _ _ => true
  | _ => false

/-- A micro-step that is no check never faults. -/
theorem microStep_no_fault {m : Micro} (s : State) (h : isCheck m = false) : ∀ f, microStep m s ≠ .fault f := by
  intro f
  cases m <;> simp [microStep, isCheck] at * <;> split <;> simp

/-- In the reference time base a micro-step that runs stays in it, and none but a `Delay` makes ticks pass before the
next. -/
theorem microStep_reference {m : Micro} {s s' : State} (hp : s.env.pace = []) (h : microStep m s = .done s') :
    s'.env.pace = [] ∧ ((∀ p, m ≠ .delay p) → s'.main.stall = s.main.stall) := by
  cases m <;> simp only [microStep] at h <;> (try split at h) <;> cases h <;>
    rw [yield_of_pace_nil (by simp [hp, delay])] <;> simp [hp, delay]

/-- Only a check whose condition holds faults. -/
theorem microStep_fault {m : Micro} {s : State} {f : Fault} (h : microStep m s = .fault f) :
    ∃ c, m = .check c f ∧ serialCheckHolds c s = true := by
  cases m <;> simp only [microStep] at h <;> (try split at h) <;> cases h
  exact ⟨_, rfl, ‹_›⟩

/-! ### A run of micro-steps -/

theorem runCall_eq (ms : List Micro) (s : State) : runCall ms s = runMicros s.main.cont ms s := rfl

/-- A micro-step that runs without delay is followed by the rest. -/
theorem runMicros_cons {k ms : List Micro} {m : Micro} {s s' : State} (h : microStep m s = .done s')
    (hs : s'.main.stall = 0) : runMicros k (m :: ms) s = runMicros k ms s' := by
  simp [runMicros, h, hs]

/-- A run that faults did all before a check without ticks, and found the check's condition. -/
theorem runMicros_fault {k ms : List Micro} {s : State} {f : Fault} (hs : s.main.stall = 0)
    (h : runMicros k ms s = .fault f) :
    ∃ (before : List Micro) (c : SerialCheck) (after : List Micro) (u : State), ms = before ++ .check c f :: after
      ∧ runMicros [] before s = .next u ∧ u.main.cont = [] ∧ u.main.stall = 0 ∧ serialCheckHolds c u = true := by
  induction ms generalizing s with
  | nil => cases h
  | cons m ms ih =>
    unfold runMicros at h
    split at h
    · next s' hm =>
      split at h
      · cases h
      · next h0 =>
        have h0 : s'.main.stall = 0 := by omega
        obtain ⟨b, c, a, u, hb, hr, hu⟩ := ih h0 h
        exact ⟨m :: b, c, a, u, by rw [hb, List.cons_append], by rw [runMicros_cons hm h0, hr], hu⟩
    · cases h
    · next g hm =>
      cases h
      obtain ⟨c, rfl, hc⟩ := microStep_fault hm
      exact ⟨[], c, ms, _, rfl, rfl, rfl, hs, by cases c <;> exact hc⟩

/-- A run of micro-steps never refuses. -/
theorem runMicros_not_refused {k ms : List Micro} {s : State} (r : Refusal) : runMicros k ms s ≠ .refused r := by
  induction ms generalizing s with
  | nil => simp [runMicros]
  | cons m ms ih =>
    unfold runMicros
    split
    · split
      · simp
      · exact ih
    · simp
    · simp

/-- A micro-step that runs, and a rest that answers a next state. -/
theorem runMicros_follow {k ms : List Micro} {m : Micro} {s s' : State} (h : microStep m s = .done s')
    (hr : ∃ t, runMicros k ms s' = .next t) : ∃ t, runMicros k (m :: ms) s = .next t := by
  rw [runMicros, h]
  simp only
  split
  · exact ⟨_, rfl⟩
  · exact hr

/-- A property that every micro-step of a run keeps, and that does not look at the micro-steps left, holds after the
run. -/
theorem runMicros_keeps (P : State → Prop) (k : List Micro) {ms : List Micro} {s t : State}
    (hcont : ∀ s c, P s → P { s with main.cont := c })
    (hstep : ∀ m ∈ ms, ∀ s s', P s → (microStep m s = .done s' ∨ microStep m s = .held s') → P s')
    (h0 : P s) (h : runMicros k ms s = .next t) : P t := by
  induction ms generalizing s with
  | nil => cases h; exact hcont _ _ h0
  | cons m ms ih =>
    unfold runMicros at h
    split at h
    · next s' hm =>
      have h1 := hstep m (by simp) s s' h0 (.inl hm)
      split at h
      · cases h; exact hcont _ _ h1
      · exact ih (fun m' hm' => hstep m' (by simp [hm'])) h1 h
    · next s' hm => cases h; exact hcont _ _ (hstep m (by simp) s s' h0 (.inr hm))
    · cases h

/-- The same for a run whose micro-steps all satisfy a test. -/
theorem runMicros_keeps_all (P : State → Prop) (q : Micro → Bool) (k : List Micro) {ms : List Micro} {s t : State}
    (hall : ms.all q = true) (hcont : ∀ s c, P s → P { s with main.cont := c })
    (hstep : ∀ m, q m = true → ∀ s s', P s → (microStep m s = .done s' ∨ microStep m s = .held s') → P s')
    (h0 : P s) (h : runMicros k ms s = .next t) : P t :=
  runMicros_keeps P k hcont (fun m hm => hstep m (List.all_eq_true.mp hall m hm)) h0 h

/-- What a run of micro-steps leaves alone. -/
theorem runMicros_callFrame {k ms : List Micro} {s t : State} (h : runMicros k ms s = .next t) : CallFrame s t := by
  refine runMicros_keeps (CallFrame s) k (ms := ms) (s := s) (fun _ _ h => h) ?_
    ⟨rfl, rfl, rfl, rfl, rfl, rfl, grows_none s⟩ h
  intro m _ a b ⟨h1, h2, h3, h4, h5, h6, es, h7⟩ hm
  obtain ⟨g1, g2, g3, g4, g5, g6, -⟩ := microStep_frame hm
  obtain ⟨es', h8⟩ := microStep_trace hm
  exact ⟨by rw [g1, h1], by rw [g2, h2], by rw [g3, h3], by rw [g4, h4], by rw [g5, h5], by rw [g6, h6], es ++ es',
    by rw [h8, h7, h2]; simp [stampAll]⟩

/-- A run without checks answers a next state. -/
theorem runMicros_next (k : List Micro) {ms : List Micro} (s : State) (h : ∀ m ∈ ms, isCheck m = false) :
    ∃ t, runMicros k ms s = .next t := by
  induction ms generalizing s with
  | nil => exact ⟨_, rfl⟩
  | cons m ms ih =>
    unfold runMicros
    split
    · split
      · exact ⟨_, rfl⟩
      · exact ih _ (fun m' hm => h m' (by simp [hm]))
    · exact ⟨_, rfl⟩
    · next f hf => exact absurd hf (microStep_no_fault s (h m (by simp)) f)

/-- A check faults, or is followed by the rest of the run. -/
theorem runMicros_check (c : SerialCheck) (f : Fault) (k ms : List Micro) (s : State) :
    runMicros k (.check c f :: ms) s =
      if serialCheckHolds c s then .fault f
      else if 0 < (yield s).main.stall then .next { yield s with main.cont := ms ++ k }
      else runMicros k ms (yield s) := by
  rw [runMicros, microStep]
  by_cases h : serialCheckHolds c s = true
  · rw [if_pos h, if_pos h]
  · rw [if_neg h, if_neg h]

/-- A yield point changes nothing a check looks at. -/
theorem serialCheckHolds_yield (c : SerialCheck) (s : State) : serialCheckHolds c (yield s) = serialCheckHolds c s := by
  cases c <;> simp [serialCheckHolds]

/-- A run that begins with two checks ends in the first failing one's fault only, and answers a next state where none
fails and the rest has no check before it is held. -/
theorem runMicros_checks (c d : SerialCheck) (f g : Fault) (k ms : List Micro) (s : State)
    (hrest : ∀ u, ∃ t, runMicros k ms u = .next t) :
    (serialCheckHolds c s = false → serialCheckHolds d s = false →
        ∃ t, runMicros k (.check c f :: .check d g :: ms) s = .next t)
      ∧ (∀ h, runMicros k (.check c f :: .check d g :: ms) s = .fault h →
          (true, h) ∈ [(serialCheckHolds c s, f), (serialCheckHolds d s, g)])
      ∧ ∀ r, runMicros k (.check c f :: .check d g :: ms) s ≠ .refused r := by
  obtain ⟨t, ht⟩ := hrest (yield (yield s))
  simp only [runMicros_check, serialCheckHolds_yield, ht]
  refine ⟨fun hc hd => ?_, fun h => ?_, fun r => ?_⟩
  · simp only [hc, hd, Bool.false_eq_true, if_false]
    split
    · exact ⟨_, rfl⟩
    · split <;> exact ⟨_, rfl⟩
  · split
    · next hc => intro e; cases e; simp [hc]
    · split
      · intro e; cases e
      · split
        · next hd => intro e; cases e; simp [hd]
        · split <;> intro e <;> cases e
  · repeat' split
    all_goals simp

/-- The lines of `transmitByte` after its checks run to the wait, whatever the schedule. -/
theorem runMicros_arming_next (v : Byte) (k ms : List Micro) (s : State) :
    ∃ t, runMicros k (.loadTxShift v :: .clearBitIndex :: .setSerialMode .tx :: .setTxBusy :: .armLead :: .waitTxDone :: ms)
      s = .next t := by
  refine runMicros_follow rfl (runMicros_follow rfl (runMicros_follow rfl (runMicros_follow rfl (runMicros_follow rfl
    ?_))))
  rw [runMicros, microStep, if_pos (by simp)]
  exact ⟨_, rfl⟩

/-- `transmitByte` in the reference time base: a failed check's fault, else armed and held at its wait. -/
theorem runMicros_transmit (v : Byte) (k ms : List Micro) {s : State} (hs : s.main.stall = 0) (hp : s.env.pace = []) :
    runMicros k (transmitByteLines v ++ ms) s =
      match firstFault (transmitByteChecks s) with
      | some f => .fault f
      | none => .next { s with
          serial.txShift := v, serial.bitIndex := 0, serial.mode := .tx, serial.txBusy := true,
          serial.timerDue := s.now + s.params.txLead, serial.timerEnable := true,
          main.cont := .waitTxDone :: ms ++ k, main.stall := 1 } := by
  cases h1 : s.serial.txBusy <;> cases h2 : s.serial.timerEnable <;> cases h3 : s.serial.edgeEnable <;>
    simp [transmitByteLines, runMicros, microStep, serialCheckHolds, yield, waitTurn, transmitByteChecks, firstFault,
      timerArm, hs, hp, h1, h2, h3]

/-- `armReceive` in the reference time base: a failed check's fault, else armed and followed by the rest. -/
theorem runMicros_arm (k ms : List Micro) {s : State} (hs : s.main.stall = 0) (hp : s.env.pace = []) :
    runMicros k (armReceiveLines ++ ms) s =
      match firstFault (armReceiveChecks s) with
      | some f => .fault f
      | none => runMicros k ms { s with
          serial.mode := .rx, serial.bitIndex := 0, serial.rxSync := false, serial.edgeEnable := true,
          env.rxdFell := false } := by
  cases h1 : s.serial.txBusy <;> cases h2 : s.serial.timerEnable <;>
    simp [armReceiveLines, runMicros, microStep, serialCheckHolds, yield, armReceiveChecks, firstFault, enableEdge, hs,
      hp, h1, h2]

end Sys2Proof.Machine
end

