-- ==== Sys2Proof/Laws/Exec.lean ====
section
/-! SUPPORT. One description of every call: its checks and the micro-steps it runs. -/

namespace Sys2Proof.Machine

open Sys2Proof

/-- The micro-steps of a call, and the state its first, atomic part leads to. The two events are no calls. -/
def callBody : Instr → State → List Micro × State
  | .timerArm d, s => ([.ret .done], timerArm d s)
  | .timerDisarm, s => ([.ret .done], timerDisarm s)
  | .transmitByte v, s => (transmitByteLines v ++ [.ret .done], s)
  | .timerEvent, s => ([], s)
  | .armReceive, s => (armReceiveLines ++ [.ret .done], s)
  | .edgeEvent, s => ([], s)
  | .pollReceivedByte, s => ([.ret (.maybeByte (pollMailbox s).1)], (pollMailbox s).2)
  | .writeLine text, s => (text.flatMap transmitByteLines ++ [.ret .done], s)
  | .clockOutBit b, s => (clockOutBit b ++ [.ret .done], s)
  | .clockOutByte b, s => (clockOutByte b ++ [.ret .done], s)
  | .initializeLines, s => (initializeLinesLines ++ [.ret .done], s)
  | .configure w, s => (configureLines w ++ [.ret .done], s)
  | .setMode m, s => (setModeLines m ++ [.ret .done], s)
  | .clockInBit, s => (clockInBit ++ [.retBit], s)
  | .clockInByte, s => (clockInByte ++ [.retByte], s)
  | .transmitPacket b, s => (transmitPacketLines s.params b ++ [.ret .done], s)
  | .hasData, s => ([.ret (.bool (decide ((sampleDr s).1 = Config.drActive)))], (sampleDr s).2)
  | .receivePacket, s => (receivePacketLines s.params ++ [.retBuffer], s)

theorem pollMailbox_main (s : State) : (pollMailbox s).2.main = s.main := by unfold pollMailbox; split <;> rfl

/-- The checks of a call that are made at its entry: those of the serial operations are lines of theirs. -/
def entryChecks (s : State) (i : Instr) : List (Bool × Fault) :=
  match i with
  | .transmitByte _ | .writeLine _ | .armReceive => []
  | .initializeLines | .configure _ | .setMode _ | .transmitPacket _ | .receivePacket | .hasData => callChecks s i
  | .pollReceivedByte | .timerArm _ | .timerDisarm | .timerEvent | .edgeEvent => []
  | .clockOutBit _ | .clockOutByte _ | .clockInBit | .clockInByte => []

/-- A host operation is its entry checks and its micro-steps. -/
theorem exec_host (i : Instr) (s : State) (h : i.isHostOp = true) :
    exec i s = hostCall (i.WellFormed s.params) (entryChecks s i) s
      (runMicros s.main.cont (callBody i s).1 (callBody i s).2) := by
  cases i <;> simp only [Instr.isHostOp, Bool.false_eq_true] at h <;>
    simp only [exec, Instr.WellFormed, entryChecks, callChecks, callBody]
  case writeLine text => rw [execWriteLine, runCall_eq]
  case pollReceivedByte => rw [execPollReceivedByte, runCall_eq, pollMailbox_main]
  case setMode m => rw [execSetMode, runCall_eq]
  case configure m => rw [execConfigure, runCall_eq]
  case transmitPacket m => rw [execTransmitPacket, runCall_eq]
  case transmitByte => rw [execTransmitByte, runCall_eq]
  case armReceive => rw [execArmReceive, runCall_eq]
  case initializeLines => rw [execInitializeLines, runCall_eq]
  case hasData => rw [execHasData, runCall_eq, sampleDr_main]
  case receivePacket => rw [execReceivePacket, runCall_eq]

/-- A primitive that is called is its micro-steps. -/
theorem exec_primitive (i : Instr) (s : State) (h : i.isHostOp = false) (h1 : i ≠ .timerEvent) (h2 : i ≠ .edgeEvent) :
    exec i s =
      if i.WellFormed s.params = true then runMicros s.main.cont (callBody i s).1 (callBody i s).2
      else .refused .badOperand := by
  cases i <;> simp only [Instr.isHostOp, Bool.true_eq_false] at h <;> simp only [exec, Instr.WellFormed, callBody]
  case timerEvent => simp at h1
  case edgeEvent => simp at h2
  case timerArm d =>
    rw [execTimerArm, runCall_eq]
    by_cases hd : d = 0
    · simp [hd]
    · simp [hd, show 1 ≤ d by omega]
  case timerDisarm => rw [execTimerDisarm, runCall_eq]; rfl
  case clockOutBit => rw [execClockOutBit, runCall_eq]; rfl
  case clockOutByte => rw [execClockOutByte, runCall_eq]; rfl
  case clockInBit => rw [execClockInBit, runCall_eq]; rfl
  case clockInByte => rw [execClockInByte, runCall_eq]; rfl

/-- Everything a call that answers a next state can have done. -/
theorem exec_next {i : Instr} {s t : State} (h1 : i ≠ .timerEvent) (h2 : i ≠ .edgeEvent) (h : exec i s = .next t) :
    i.WellFormed s.params = true
      ∧ (i.isHostOp = true → s.main.context = .main ∧ firstFault (entryChecks s i) = none)
      ∧ runMicros s.main.cont (callBody i s).1 (callBody i s).2 = .next t := by
  cases hh : i.isHostOp
  · rw [exec_primitive i s hh h1 h2] at h
    split at h
    · next hw => exact ⟨hw, by simp, h⟩
    · cases h
  · rw [exec_host i s hh] at h
    have := hostCall_next h
    exact ⟨this.2.1, fun _ => ⟨this.1, this.2.2.1⟩, this.2.2.2⟩

/-! ### Tests that hold of all the micro-steps of a call -/

theorem all_flatMap_of {α : Type} {l : List α} {f : α → List Micro} {p : Micro → Bool} (h : ∀ a, (f a).all p = true) :
    (l.flatMap f).all p = true := by
  rw [List.all_flatMap]; simp only [h]; simp

theorem all_bufferWrites {p : Micro → Bool} (h : ∀ i v, p (.bufferWrite i v) = true) (v : List Byte) (i : Nat) :
    (bufferWrites i v).all p = true := by
  induction v generalizing i with
  | nil => rfl
  | cons b bs ih => rw [bufferWrites, List.all_cons, h, ih]; rfl

/-- Every test that the lines of a call pass one by one holds of all of them. -/
theorem callBody_all (p : Micro → Bool) (i : Instr) (s : State)
    (hset : ∀ l v, l ≠ .txd → p (.set l v) = true) (hbuf : ∀ a j, p (.setFromBuffer a j) = true)
    (hdir : ∀ l d, p (.dir l d) = true) (hdelay : ∀ d, p (.delay d) = true) (hmode : ∀ m, p (.setRadioMode m) = true)
    (hwrite : ∀ a v, p (.bufferWrite a v) = true) (htake : ∀ a, p (.bufferTake a) = true)
    (hret : ∀ r, p (.ret r) = true)
    (hplain : ([.setLineDirSet, .setConfigured, .sampleData, .clearX, .shiftX, .waitTxDone, .waitDrInactive, .retBit,
      .retByte, .retBuffer] : List Micro).all p = true)
    (hserial : (∃ v, i = .transmitByte v) ∨ (∃ t, i = .writeLine t) → ∀ v, (transmitByteLines v).all p = true)
    (harm : i = .armReceive → armReceiveLines.all p = true) : (callBody i s).1.all p = true := by
  simp only [List.all_cons, List.all_nil, Bool.and_true, Bool.and_eq_true] at hplain
  have hclk : ∀ v, p (.set .clk v) = true := fun v => hset _ v (by decide)
  have hdata : ∀ v, p (.set .data v) = true := fun v => hset _ v (by decide)
  have hce : ∀ v, p (.set .ce v) = true := fun v => hset _ v (by decide)
  have hcs : ∀ v, p (.set .cs v) = true := fun v => hset _ v (by decide)
  have bit : ∀ x, (clockOutBit x).all p = true := fun x => by simp [clockOutBit, clockPulse, hclk, hdata]
  have out : ∀ x, (clockOutByte x).all p = true := fun x => all_flatMap_of bit
  have buf : ∀ x, (clockOutBuffer x).all p = true := fun x => all_flatMap_of fun j => by simp [clockPulse, hclk, hbuf]
  have inb : clockInBit.all p = true := by simp [clockInBit, clockPulse, hclk, hplain]
  have inp : clockInByte.all p = true := by
    simp [clockInByte, clockInBit, clockPulse, hclk, hplain, List.replicate]
  have take : ∀ x, (clockInByte ++ [Micro.bufferTake x]).all p = true := fun x => by
    rw [List.all_append, inp]; simp [htake]
  cases i
  case transmitByte v => simp [callBody, hserial (.inl ⟨v, rfl⟩) v, hret, -List.all_eq_true]
  case writeLine t => simp [callBody, all_flatMap_of (hserial (.inr ⟨t, rfl⟩)), hret, -List.all_eq_true]
  case armReceive => simp [callBody, harm rfl, hret, -List.all_eq_true]
  case setMode m => cases m <;> simp [callBody, setModeLines, bit, hce, hcs, hdir, hdelay, hmode, hret, -List.all_eq_true]
  case configure w =>
    simp [callBody, configureLines, all_flatMap_of out, hce, hcs, hdelay, hplain, hret, -List.all_eq_true,
      -List.all_flatMap]
  case transmitPacket b =>
    simp [callBody, transmitPacketLines, all_flatMap_of buf, out, all_bufferWrites hwrite, hce, hret, -List.all_eq_true,
      -List.all_flatMap]
  case receivePacket =>
    rw [callBody, receivePacketLines]
    simp only [List.all_append, all_flatMap_of take]
    simp [hce, hplain]
  case initializeLines => simp [callBody, initializeLinesLines, hdir, hplain, hret]
  case clockOutBit b => rw [callBody, List.all_append, bit]; simp [hret]
  case clockOutByte b => rw [callBody, List.all_append, out]; simp [hret]
  case clockInBit => rw [callBody, List.all_append, inb]; simp [hplain]
  case clockInByte => rw [callBody, List.all_append, inp]; simp [hplain]
  all_goals simp [callBody, hret]

/-- No line of a call writes `TXD`. -/
theorem callBody_sparesTxd (i : Instr) (s : State) : (callBody i s).1.all sparesTxd = true := by
  apply callBody_all <;> intros <;> try rfl
  next l _ hl => cases l <;> simp_all [sparesTxd]

/-- Only the serial operations have checks among their lines. -/
theorem callBody_no_checks (i : Instr) (s : State) (h1 : ∀ v, i ≠ .transmitByte v) (h2 : ∀ v, i ≠ .writeLine v)
    (h3 : i ≠ .armReceive) : ∀ m ∈ (callBody i s).1, isCheck m = false := by
  suffices h : (callBody i s).1.all (fun m => !isCheck m) = true by simpa using h
  apply callBody_all <;> intros <;> (try rfl) <;> simp_all

/-- How a run of lines with these checks ends: in a next state where they pass, in a fault only from a failing one, never
in a refusal. -/
def RunsWith (checks : List (Bool × Fault)) (o : Host.Outcome State Fault Refusal) : Prop :=
  (firstFault checks = none → ∃ t, o = .next t) ∧ (∀ f, o = .fault f → (true, f) ∈ checks) ∧ ∀ r, o ≠ .refused r

theorem runsWith_of_no_checks (c : List (Bool × Fault)) {k ms : List Micro} {s : State}
    (h : ∀ m ∈ ms, isCheck m = false) : RunsWith c (runMicros k ms s) := by
  obtain ⟨t, ht⟩ := runMicros_next k s h
  simp [RunsWith, ht]

theorem transmit_runsWith (v : Byte) (k ms : List Micro) (s : State) :
    RunsWith (transmitByteChecks s) (runMicros k (transmitByteLines v ++ ms) s) := by
  have h := runMicros_checks .txBusy .armed .txReentry .serialOverlap k
    (.loadTxShift v :: .clearBitIndex :: .setSerialMode .tx :: .setTxBusy :: .armLead :: .waitTxDone :: ms) s
    (runMicros_arming_next v k ms)
  refine ⟨fun hc => ?_, h.2⟩
  have hc := firstFault_none_iff.mp hc
  simp only [transmitByteChecks, List.mem_cons, List.not_mem_nil, or_false, forall_eq_or_imp, forall_eq] at hc
  exact h.1 hc.1 hc.2

theorem arm_runsWith (k : List Micro) (s : State) :
    RunsWith (armReceiveChecks s) (runMicros k (armReceiveLines ++ [.ret .done]) s) := by
  have h := runMicros_checks .txBusy .timerOn .serialOverlap .rearmMidByte k
    [.setSerialMode .rx, .clearBitIndex, .clearRxSync, .enableEdge, .ret .done] s
    (fun u => runMicros_next k u (by simp [isCheck]))
  refine ⟨fun hc => ?_, h.2⟩
  have hc := firstFault_none_iff.mp hc
  simp only [armReceiveChecks, List.mem_cons, List.not_mem_nil, or_false, forall_eq_or_imp, forall_eq] at hc
  exact h.1 hc.1 hc.2

/-- How the lines of a call end. -/
theorem callBody_runsWith (i : Instr) (s : State) :
    RunsWith (callChecks s i) (runMicros s.main.cont (callBody i s).1 (callBody i s).2) := by
  by_cases h1 : ∃ v, i = .transmitByte v
  · obtain ⟨v, rfl⟩ := h1
    exact transmit_runsWith v _ _ s
  by_cases h2 : ∃ v, i = .writeLine v
  · obtain ⟨v, rfl⟩ := h2
    cases v with
    | nil => exact runsWith_of_no_checks _ (by simp [callBody, isCheck])
    | cons v vs =>
      simpa [callBody, callChecks] using transmit_runsWith v s.main.cont (vs.flatMap transmitByteLines ++ [.ret .done]) s
  by_cases h3 : i = .armReceive
  · subst h3
    exact arm_runsWith _ s
  exact runsWith_of_no_checks _ (callBody_no_checks i s (fun v hv => h1 ⟨v, hv⟩) (fun v hv => h2 ⟨v, hv⟩) h3)

/-- The atomic part of a call leaves the radio driver alone. -/
theorem callBody_radio (i : Instr) (s : State) : (callBody i s).2.radio = s.radio := by
  cases i <;> simp [callBody, pollMailbox] <;> split <;> simp

theorem callFrame_trans {a b c : State} (h : CallFrame a b) (h' : CallFrame b c) : CallFrame a c := by
  obtain ⟨h1, h2, h3, h4, h5, h6, es, h7⟩ := h
  obtain ⟨g1, g2, g3, g4, g5, g6, es', g7⟩ := h'
  exact ⟨by rw [g1, h1], by rw [g2, h2], by rw [g3, h3], by rw [g4, h4], by rw [g5, h5], by rw [g6, h6], es ++ es',
    by rw [g7, h7, h2]; simp [stampAll]⟩

theorem callBody_callFrame (i : Instr) (s : State) : CallFrame s (callBody i s).2 := by
  cases i <;> simp [callBody, CallFrame, pollMailbox, sampleDr] <;> (try split) <;> (try simp) <;>
    first | (refine ⟨[], ?_⟩; simp [stampAll]; done) | exact ⟨[_], rfl⟩

end Sys2Proof.Machine
end

