-- ==== Sys2Proof/Laws/PerInstr.lean ====
section
/-! SUPPORT. One lemma per operation of R90 for the family `CallKey`: the key of a call. -/

namespace Sys2Proof.Laws.CallKey

open Sys2Proof

/-- The bytes of a call begin with its ordinal in R90, which is below 18 and so inside the table's five-bit mask. -/
def Statement (i : Instr) : Prop :=
  ordinal i < 18 ∧ ∀ w, ∃ r, encode w i = BitVec.ofNat 8 (ordinal i) :: r

theorem timerArm (d : Nat) : Statement (.timerArm d) := ⟨by simp [ordinal], fun _ => ⟨_, rfl⟩⟩
theorem timerDisarm : Statement .timerDisarm := ⟨by decide, fun _ => ⟨_, rfl⟩⟩
theorem transmitByte (v : Byte) : Statement (.transmitByte v) := ⟨by simp [ordinal], fun _ => ⟨_, rfl⟩⟩
theorem timerEvent : Statement .timerEvent := ⟨by decide, fun _ => ⟨_, rfl⟩⟩
theorem armReceive : Statement .armReceive := ⟨by decide, fun _ => ⟨_, rfl⟩⟩
theorem edgeEvent : Statement .edgeEvent := ⟨by decide, fun _ => ⟨_, rfl⟩⟩
theorem pollReceivedByte : Statement .pollReceivedByte := ⟨by decide, fun _ => ⟨_, rfl⟩⟩
theorem writeLine (t : List Byte) : Statement (.writeLine t) := ⟨by simp [ordinal], fun _ => ⟨_, rfl⟩⟩
theorem clockOutBit (b : Bit) : Statement (.clockOutBit b) := ⟨by simp [ordinal], fun _ => ⟨_, rfl⟩⟩
theorem clockOutByte (x : Byte) : Statement (.clockOutByte x) := ⟨by simp [ordinal], fun _ => ⟨_, rfl⟩⟩
theorem initializeLines : Statement .initializeLines := ⟨by decide, fun _ => ⟨_, rfl⟩⟩
theorem configure (c : List Byte) : Statement (.configure c) := ⟨by simp [ordinal], fun _ => ⟨_, rfl⟩⟩
theorem setMode (m : RadioMode) : Statement (.setMode m) := ⟨by simp [ordinal], fun _ => ⟨_, rfl⟩⟩
theorem clockInBit : Statement .clockInBit := ⟨by decide, fun _ => ⟨_, rfl⟩⟩
theorem clockInByte : Statement .clockInByte := ⟨by decide, fun _ => ⟨_, rfl⟩⟩
theorem transmitPacket (b : List Byte) : Statement (.transmitPacket b) := ⟨by simp [ordinal], fun _ => ⟨_, rfl⟩⟩
theorem hasData : Statement .hasData := ⟨by decide, fun _ => ⟨_, rfl⟩⟩
theorem receivePacket : Statement .receivePacket := ⟨by decide, fun _ => ⟨_, rfl⟩⟩

end Sys2Proof.Laws.CallKey
end

