-- ==== Sys2Proof/Laws/Radio.lean ====
section
/-! SUPPORT. What a run of micro-steps does to an outbound and to an inbound stream (30 R86, R87), in the reference time
base: no schedule and no ticks to pass. -/

namespace Sys2Proof.Machine

open Sys2Proof

/-- Two states with the same fields are one. -/
theorem state_eq {s t : State} (h1 : s.params = t.params) (h2 : s.now = t.now) (h3 : s.serial = t.serial)
    (h4 : s.radio = t.radio) (h5 : s.main = t.main) (h6 : s.env = t.env) (h7 : s.trace = t.trace) : s = t := by
  cases s; cases t; simp_all

/-! ### Outbound -/

/-- The state after an outbound stream of these cells. -/
def afterOut (cells : List Bit) (s : State) : State :=
  { s with
    radio.dataOut := cells.getLastD s.radio.dataOut
    radio.clk := if cells = [] then s.radio.clk else false
    trace := s.trace ++ stampAll s.now (outEntries cells) }

theorem afterOut_nil (s : State) : afterOut [] s = s := by simp [afterOut, outEntries, stampAll]

theorem afterOut_cons (b : Bit) (bs : List Bit) (s : State) :
    afterOut (b :: bs) s = afterOut bs (setLine .clk false (setLine .clk true (setLine .data b s))) := by
  simp only [afterOut, setLine, setLatch, emit]
  congr 1
  · simp [List.getLast?_cons, List.getLastD_eq_getLast?]
  · simp [outEntries, stampAll]

theorem afterOut_append (a b : List Bit) (s : State) : afterOut (a ++ b) s = afterOut b (afterOut a s) := by
  induction a generalizing s with
  | nil => simp [afterOut_nil]
  | cons c cs ih => rw [List.cons_append, afterOut_cons, ih, ← afterOut_cons]

theorem runMicros_cell {k ms : List Micro} (b : Bit) {s : State} (hs : s.main.stall = 0) (hp : s.env.pace = []) :
    runMicros k (clockOutBit b ++ ms) s
      = runMicros k ms (setLine .clk false (setLine .clk true (setLine .data b s))) := by
  simp [clockOutBit, clockPulse, runMicros, microStep, yield, hs, hp]

theorem runMicros_cells {k ms : List Micro} (cells : List Bit) {s : State} (hs : s.main.stall = 0)
    (hp : s.env.pace = []) :
    runMicros k (cells.flatMap clockOutBit ++ ms) s = runMicros k ms (afterOut cells s) := by
  induction cells generalizing s with
  | nil => simp [afterOut_nil]
  | cons b bs ih =>
    rw [List.flatMap_cons, List.append_assoc, runMicros_cell b hs hp, ih (by simpa) (by simpa), afterOut_cons]

theorem byteCells_cons (b : Byte) (bs : List Byte) : byteCells (b :: bs) = msbBits b ++ byteCells bs := rfl

theorem runMicros_bytes {k ms : List Micro} (bytes : List Byte) {s : State} (hs : s.main.stall = 0)
    (hp : s.env.pace = []) :
    runMicros k (bytes.flatMap clockOutByte ++ ms) s = runMicros k ms (afterOut (byteCells bytes) s) := by
  rw [← runMicros_cells _ hs hp, byteCells, List.flatMap_assoc]; rfl

/-- The copy of an operand into `PacketBuffer`, from index `i` on. -/
theorem runMicros_bufferWrites {k ms : List Micro} (v : List Byte) (i : Nat) {s : State} (hs : s.main.stall = 0)
    (hp : s.env.pace = []) (hl : i + v.length = s.radio.packetBuffer.length) :
    runMicros k (bufferWrites i v ++ ms) s =
      runMicros k ms { s with radio.packetBuffer := s.radio.packetBuffer.take i ++ v } := by
  induction v generalizing s i with
  | nil =>
    have : s.radio.packetBuffer.take i = s.radio.packetBuffer := List.take_of_length_le (by simp at hl; omega)
    simp [bufferWrites, this]
  | cons b bs ih =>
    rw [bufferWrites, List.cons_append,
      runMicros_cons (s' := bufferWrite i b s) (by simp [microStep, yield, hp]) (by simpa),
      ih _ (by simpa) (by simpa) (by simp at *; omega)]
    congr 1
    simp only [List.length_cons] at hl
    have : i < s.radio.packetBuffer.length := by omega
    simp [bufferWrite, List.take_add_one, List.take_set, List.set_eq_of_length_le, this]

theorem runMicros_bufferByte {k ms : List Micro} (i : Nat) {s : State} (hs : s.main.stall = 0)
    (hp : s.env.pace = []) :
    runMicros k (clockOutBuffer i ++ ms) s = runMicros k ms (afterOut (msbBits (bufferRead i s)) s) := by
  rw [← runMicros_cells _ hs hp]
  simp [clockOutBuffer, clockOutBit, msbBits, clockPulse, runMicros, microStep, yield, hp, hs, bufferRead]

theorem runMicros_bufferBytes {k ms : List Micro} (l : List Nat) {s : State} (hs : s.main.stall = 0)
    (hp : s.env.pace = []) :
    runMicros k (l.flatMap clockOutBuffer ++ ms) s =
      runMicros k ms (afterOut (byteCells (l.map fun i => bufferRead i s)) s) := by
  induction l generalizing s with
  | nil => simp [byteCells, afterOut_nil]
  | cons i l ih =>
    rw [List.flatMap_cons, List.append_assoc, runMicros_bufferByte i hs hp,
      ih (by simpa [afterOut]) (by simpa [afterOut]), List.map_cons, byteCells_cons, afterOut_append]
    rfl

theorem map_bufferRead_range {s : State} {w : Nat} (h : s.radio.packetBuffer.length = w) :
    ((List.range w).map fun i => bufferRead i s) = s.radio.packetBuffer := by
  subst h
  apply List.ext_getElem <;> simp +contextual [bufferRead]

/-! ### Inbound -/

/-- What an answer to `Sample(DATA)` depends on. -/
theorem answerData_of_env {a b : State} (h : a.env = b.env) :
    (answerData a).1 = (answerData b).1 ∧ (answerData a).2.env = (answerData b).2.env := by
  unfold answerData; rw [h]; split <;> simp

/-- What an answer to `Sample(DR)` depends on. -/
theorem answerDr_of_env {a b : State} (h : a.env.drIn = b.env.drIn) (h' : a.env.drReads = b.env.drReads) :
    (answerDr a).1 = (answerDr b).1 := by
  unfold answerDr; rw [h, h']; split <;> simp

theorem answers_of_env (m : Nat) {a b : State} (h : a.env = b.env) :
    dataAnswers m a = dataAnswers m b ∧ (afterAnswers m a).env = (afterAnswers m b).env := by
  induction m generalizing a b with
  | zero => exact ⟨rfl, h⟩
  | succ m ih =>
    exact ⟨by rw [dataAnswers, dataAnswers, (answerData_of_env h).1, (ih (answerData_of_env h).2).1],
      (ih (answerData_of_env h).2).2⟩

theorem dataAnswers_add (m n : Nat) (s : State) :
    dataAnswers (m + n) s = dataAnswers m s ++ dataAnswers n (afterAnswers m s)
      ∧ afterAnswers (m + n) s = afterAnswers n (afterAnswers m s) := by
  induction m generalizing s with
  | zero => simp [dataAnswers, afterAnswers]
  | succ m ih => rw [Nat.add_right_comm]; simp [dataAnswers, afterAnswers, ih]

theorem dataAnswers_length (n : Nat) (s : State) : (dataAnswers n s).length = n := by
  induction n generalizing s with
  | zero => rfl
  | succ n ih => simp [dataAnswers, ih]

theorem afterAnswers_env (n : Nat) (s : State) :
    (afterAnswers n s).env.pace = s.env.pace ∧ (afterAnswers n s).env.drIn = s.env.drIn
      ∧ (afterAnswers n s).env.drReads = s.env.drReads := by
  induction n generalizing s with
  | zero => exact ⟨rfl, rfl, rfl⟩
  | succ n ih => simp [afterAnswers, ih]

theorem assemblePayload_length (w : Nat) (l : List Bit) : (assemblePayload w l).length = w := by
  induction w generalizing l with
  | zero => rfl
  | succ w ih => simp [assemblePayload, ih]

/-- The first of eight samples is bit 7 (30 R89). -/
theorem assembleByte_bits {l : List Bit} (h : l.length = 8) :
    ∀ j < 8, (assembleByte l).getLsbD (7 - j) = l.getD j false := by
  match l, h with
  | [a0, a1, a2, a3, a4, a5, a6, a7], _ =>
    revert a0 a1 a2 a3 a4 a5 a6 a7
    decide

/-- The state after an inbound stream of `n` cells, each shifted into `x`; `b` is the last of them. -/
def afterIn (n : Nat) (b : Bit) (s : State) : State :=
  { s with
    radio.clk := if n = 0 then s.radio.clk else false
    main.localB := b
    main.localX := (dataAnswers n s).foldl shiftInBottom s.main.localX
    env := (afterAnswers n s).env
    trace := s.trace ++ stampAll s.now (inEntries (dataAnswers n s)) }

theorem runMicros_inBit {k ms : List Micro} {s : State} (hs : s.main.stall = 0) (hp : s.env.pace = [])
    (hd : s.radio.dataDir = .input) :
    runMicros k (clockInBit ++ .shiftX :: ms) s = runMicros k ms (afterIn 1 (answerData s).1 s) := by
  simp only [clockInBit, clockPulse, List.cons_append, List.nil_append]
  rw [runMicros_cons rfl (by simp [yield, hs, hp]), runMicros_cons rfl (by simp [yield, hs, hp]),
    runMicros_cons rfl (by simp [yield, hs, hp]), runMicros_cons rfl (by simp [yield, hs, hp])]
  congr 1
  simp [yield_of_pace_nil, hp]
  apply state_eq <;>
    simp [afterIn, sampleData, hd, dataAnswers, afterAnswers, inEntries, stampAll, emit]

theorem runMicros_inBits {k ms : List Micro} (n : Nat) {s : State} (hs : s.main.stall = 0) (hp : s.env.pace = [])
    (hd : s.radio.dataDir = .input) :
    ∃ b, runMicros k ((List.replicate n (clockInBit ++ [.shiftX])).flatten ++ ms) s
      = runMicros k ms (afterIn n b s) := by
  induction n generalizing s with
  | zero => exact ⟨s.main.localB, by simp [afterIn, dataAnswers, afterAnswers, stampAll, inEntries]⟩
  | succ n ih =>
    obtain ⟨b, hb⟩ := ih (s := afterIn 1 (answerData s).1 s) (by simpa [afterIn])
      (by simpa [afterIn, afterAnswers_env]) (by simpa [afterIn])
    refine ⟨b, ?_⟩
    rw [List.replicate_succ, List.flatten_cons, List.append_assoc, List.append_assoc, List.singleton_append,
      runMicros_inBit hs hp hd, hb]
    congr 1
    have he := answers_of_env n (a := afterIn 1 (answerData s).1 s) (b := (answerData s).2) rfl
    rw [afterIn, he.1, he.2]
    apply state_eq <;> simp [afterIn, dataAnswers, afterAnswers, inEntries, stampAll]

theorem runMicros_inByte {k ms : List Micro} {s : State} (hs : s.main.stall = 0) (hp : s.env.pace = [])
    (hd : s.radio.dataDir = .input) :
    ∃ b, runMicros k (clockInByte ++ ms) s
      = runMicros k ms { afterIn 8 b s with main.localX := assembleByte (dataAnswers 8 s) } := by
  obtain ⟨b, hb⟩ := runMicros_inBits (k := k) (ms := ms) 8 (s := { s with main.localX := 0 }) (by simpa) (by simpa)
    (by simpa)
  refine ⟨b, ?_⟩
  rw [clockInByte, List.cons_append, runMicros_cons rfl (by simp [yield, hs, hp]), yield_of_pace_nil (by exact hp), hb]
  congr 1
  have he := answers_of_env 8 (a := { s with main.localX := 0 }) (b := s) rfl
  simp only [afterIn, he.1, he.2]
  rfl

/-- What the payload part of an inbound stream does, from index `i` on. -/
theorem runMicros_payload {k ms : List Micro} (n i : Nat) {s : State} (hs : s.main.stall = 0) (hp : s.env.pace = [])
    (hd : s.radio.dataDir = .input) (hl : i + n = s.radio.packetBuffer.length) :
    ∃ b x, runMicros k ((List.range' i n).flatMap (fun i => clockInByte ++ [.bufferTake i]) ++ ms) s
      = runMicros k ms { s with
          radio.clk := if n = 0 then s.radio.clk else false
          radio.packetBuffer := s.radio.packetBuffer.take i ++ assemblePayload n (dataAnswers (8 * n) s)
          main.localB := b
          main.localX := x
          env := (afterAnswers (8 * n) s).env
          trace := s.trace ++ stampAll s.now (inEntries (dataAnswers (8 * n) s)) } := by
  induction n generalizing s i with
  | zero =>
    have : s.radio.packetBuffer.take i = s.radio.packetBuffer := List.take_of_length_le (by omega)
    exact ⟨s.main.localB, s.main.localX,
      by simp [dataAnswers, afterAnswers, stampAll, inEntries, this, assemblePayload]⟩
  | succ n ih =>
    obtain ⟨b, hb⟩ := runMicros_inByte (k := k)
      (ms := .bufferTake i :: ((List.range' (i + 1) n).flatMap (fun i => clockInByte ++ [.bufferTake i]) ++ ms)) hs hp hd
    generalize hx : assembleByte (dataAnswers 8 s) = x at hb
    generalize hu : ({ afterIn 8 b s with main.localX := x } : State) = u at hb
    have hup : u.env = (afterAnswers 8 s).env := by subst hu; rfl
    obtain ⟨b', x', hb'⟩ := ih (i + 1) (s := bufferWrite i x u) (by subst hu; simpa [afterIn])
      (by simp [hup, afterAnswers_env, hp]) (by subst hu; simpa [afterIn]) (by subst hu; simp [afterIn]; omega)
    refine ⟨b', x', ?_⟩
    have hy : microStep (.bufferTake i) u = .done (bufferWrite i x u) := by
      have : yield (bufferWrite i u.main.localX u) = bufferWrite i u.main.localX u :=
        yield_of_pace_nil (by simp [hup, afterAnswers_env, hp])
      rw [microStep, this]; subst hu; rfl
    rw [List.range'_succ, List.flatMap_cons, List.append_assoc, List.append_assoc, List.singleton_append, hb,
      runMicros_cons hy (by subst hu; simpa [afterIn]), hb']
    congr 1
    have he := answers_of_env (8 * n) (a := bufferWrite i x u) (b := afterAnswers 8 s) (by simp [hup])
    rw [he.1, he.2, show 8 * (n + 1) = 8 + 8 * n by omega, (dataAnswers_add 8 (8 * n) s).1,
      (dataAnswers_add 8 (8 * n) s).2]
    have h8 := dataAnswers_length 8 s
    have hi : i < s.radio.packetBuffer.length := by omega
    subst hu
    apply state_eq <;> simp [afterIn, inEntries, stampAll]
    simp only [assemblePayload]
    rw [List.take_left' h8, List.drop_left' h8, List.take_add_one, hx]
    simp [hi, List.take_set, List.set_eq_of_length_le]

end Sys2Proof.Machine
end

