-- ==== Sys2Proof/Laws/Tick.lean ====
section
/-! SUPPORT. What an event, a tick and a step can do, each said once. -/

namespace Sys2Proof.Machine

open Sys2Proof

/-- What a timer event does to the serial engine: the reload (40 R114), then the arm the mode selects (41 R132 to R134). -/
def timerSerial (period : Nat) (level : Bit) (e : Serial) : Serial :=
  let e1 := { e with timerDue := e.timerDue + period }
  match e.mode with
  | .tx =>
    if e.bitIndex = 0 then { e1 with txd := false, bitIndex := 1 }
    else if e.bitIndex ≤ 8 then
      { e1 with txd := e.txShift.getLsbD 0, txShift := shiftOut e.txShift, bitIndex := e.bitIndex + 1 }
    else if e.bitIndex = 9 then { e1 with txd := true, bitIndex := 10 }
    else { e1 with timerEnable := false, txBusy := false }
  | .rx =>
    if e.rxSync then { e1 with rxSync := false }
    else if e.bitIndex ≤ 7 then { e1 with rxReg := shiftInTop level e.rxReg, bitIndex := e.bitIndex + 1 }
    else { e1 with timerEnable := false, receivedFlag := true }

/-- What every timer event does, whichever arm runs: the reload, and the disarming exactly where it completes its
transfer. -/
theorem timerSerial_frame (period : Nat) (level : Bit) (e : Serial) :
    (timerSerial period level e).timerDue = e.timerDue + period
      ∧ (timerSerial period level e).edgeEnable = e.edgeEnable ∧ (timerSerial period level e).mode = e.mode
      ∧ (completesTransfer e → (timerSerial period level e).timerEnable = false)
      ∧ (¬completesTransfer e → (timerSerial period level e).timerEnable = e.timerEnable) := by
  unfold timerSerial completesTransfer
  cases h : e.mode
  · simp only
    split
    · simp [*]
    · split
      · simp; omega
      · split
        · simp [*]
        · simp; omega
  · simp only
    split
    · simp [*]
    · split
      · simp; omega
      · simp_all; omega

theorem transmitArm_serial (s : State) :
    (transmitArm s).serial =
      if s.serial.bitIndex = 0 then { s.serial with txd := false, bitIndex := 1 }
      else if s.serial.bitIndex ≤ 8 then
        { s.serial with
          txd := s.serial.txShift.getLsbD 0, txShift := shiftOut s.serial.txShift, bitIndex := s.serial.bitIndex + 1 }
      else if s.serial.bitIndex = 9 then { s.serial with txd := true, bitIndex := 10 }
      else { s.serial with timerEnable := false, txBusy := false } := by
  unfold transmitArm
  repeat' split
  all_goals rfl

theorem receiveArm_serial (s : State) :
    (receiveArm s).serial =
      if s.serial.rxSync then { s.serial with rxSync := false }
      else if s.serial.bitIndex ≤ 7 then
        { s.serial with rxReg := shiftInTop s.env.rxd s.serial.rxReg, bitIndex := s.serial.bitIndex + 1 }
      else { s.serial with timerEnable := false, receivedFlag := true } := by
  unfold receiveArm
  repeat' split
  all_goals rfl

theorem timerHandler_serial (s : State) :
    (timerHandler s).serial = if s.serial.mode = .tx then (transmitArm s).serial else (receiveArm s).serial := by
  unfold timerHandler; cases s.serial.mode <;> simp

theorem deliverTimer_serial (s : State) :
    (deliverTimer s).serial =
      if timerEventDue s then timerSerial s.params.bitPeriod s.env.rxd s.serial else s.serial := by
  unfold deliverTimer
  split
  · simp only [takeEvent, returnFromInterrupt_serial, timerHandler_serial, transmitArm_serial, receiveArm_serial]
    unfold timerSerial
    cases h : s.serial.mode <;> simp [enterInterrupt, timerReload, h]
  · rfl

theorem deliverEdge_serial (s : State) :
    (deliverEdge s).serial =
      if edgeEventDue s then
        { s.serial with edgeEnable := false, rxSync := true, timerDue := s.now + s.params.halfBit, timerEnable := true }
      else s.serial := by
  unfold deliverEdge
  split <;> rfl

/-- The timer handler writes the serial engine and the line trace and nothing else (60 R242). -/
theorem timerHandler_frame (s : State) :
    (timerHandler s).radio = s.radio ∧ (timerHandler s).main = s.main ∧ (timerHandler s).params = s.params
      ∧ (timerHandler s).now = s.now ∧ (timerHandler s).env = s.env
      ∧ ∃ es, (timerHandler s).trace = s.trace ++ stampAll s.now es := by
  unfold timerHandler
  split
  · unfold transmitArm; repeat' split
    all_goals simp
    all_goals first | exact ⟨[], rfl⟩ | exact ⟨[_], rfl⟩
  · unfold receiveArm; repeat' split
    all_goals simp [sampleRxd]
    all_goals first | exact ⟨[], rfl⟩ | exact ⟨[_], rfl⟩

theorem deliverTimer_frame (s : State) :
    (deliverTimer s).radio = s.radio ∧ (deliverTimer s).main = s.main ∧ (deliverTimer s).params = s.params
      ∧ (deliverTimer s).now = s.now ∧ (deliverTimer s).env = s.env
      ∧ ∃ es, (deliverTimer s).trace = s.trace ++ stampAll s.now es := by
  unfold deliverTimer
  split
  · simp only [takeEvent, returnFromInterrupt]
    have := timerHandler_frame (enterInterrupt (timerReload s))
    simp [this]
    simpa using this.2.2.2.2.2
  · simpa using grows_none s

theorem compareEvent_frame (s : State) :
    (compareEvent s).radio = s.radio ∧ (compareEvent s).main = s.main ∧ (compareEvent s).params = s.params
      ∧ (compareEvent s).now = s.now ∧ (compareEvent s).env = s.env
      ∧ ∃ es, (compareEvent s).trace = s.trace ++ stampAll s.now es := by
  unfold compareEvent
  split
  · exact deliverTimer_frame s
  · simpa using grows_none s

theorem compareEvent_serial (s : State) :
    (compareEvent s).serial =
      if s.env.timerFires && timerEventDue s then timerSerial s.params.bitPeriod s.env.rxd s.serial else s.serial := by
  unfold compareEvent
  cases s.env.timerFires <;> simp [deliverTimer_serial]

theorem deliverEdge_frame (s : State) :
    (deliverEdge s).radio = s.radio ∧ (deliverEdge s).main = s.main ∧ (deliverEdge s).params = s.params
      ∧ (deliverEdge s).now = s.now ∧ (deliverEdge s).trace = s.trace := by
  unfold deliverEdge
  split
  · simp [takeEvent, returnFromInterrupt, edgeHandler, enterInterrupt]
  · simp

/-- What a tick leaves alone, and how the line trace grows at it. -/
theorem tick_frame (s : State) :
    (tick s).radio = s.radio ∧ (tick s).main = s.main ∧ (tick s).params = s.params ∧ (tick s).now = s.now + 1
      ∧ ∃ es, (tick s).trace = s.trace ++ stampAll (s.now + 1) es := by
  have h1 := deliverEdge_frame (compareEvent (advanceClock s))
  have h2 := compareEvent_frame (advanceClock s)
  simp only [tick, h1, h2]
  simpa using h2.2.2.2.2.2

/-- A tick leaves the schedule of the main context alone. -/
theorem tick_pace (s : State) : (tick s).env.pace = s.env.pace := by
  have h : (compareEvent (advanceClock s)).env.pace = s.env.pace := by rw [(compareEvent_frame _).2.2.2.2.1]; rfl
  rw [← h]
  unfold tick deliverEdge
  split <;> rfl

/-- Everything a step that answers a next state can have done: a tick the main context had to let pass, a move of the
operation in progress, a tick of a host with no call to issue, or a call of the script or of a host whose script is
infinite. In the last three only the host's own place in its script changes besides. -/
theorem step_cases {s t : State} (h : step s = .next t) :
    (∃ n, s.main.stall = n + 1 ∧ t = tick { s with main.stall := n })
      ∨ (s.main.stall = 0 ∧ ∃ m ms, s.main.cont = m :: ms ∧ runMicros [] (m :: ms) s = .next t)
      ∨ (s.main.stall = 0 ∧ s.main.cont = [] ∧ s.main.script = [] ∧ nextCall s = none
          ∧ ∃ n, t = tick { s with main.hostTurns := n })
      ∨ (s.main.stall = 0 ∧ s.main.cont = [] ∧ ∃ i rest n, nextCall s = some i
          ∧ exec i { s with main.script := rest, main.hostTurns := n } = .next t) := by
  unfold step at h
  split at h
  · next n hn => cases h; exact .inl ⟨n, hn, rfl⟩
  · next hn =>
    unfold mainMove at h
    split at h
    · next hc =>
      unfold issueCall at h
      split at h
      · next hs =>
        split at h
        · next he =>
          unfold hostTurn at h
          split at h
          · next i hi =>
            refine .inr (.inr (.inr ⟨hn, hc, i, s.main.script, s.main.hostTurns + 1, ?_, h⟩))
            simp [nextCall, hn, hc, hs, he, hi]
          · next hi =>
            cases h
            exact .inr (.inr (.inl ⟨hn, hc, hs, by simp [nextCall, hn, hc, hs, he, hi], _, rfl⟩))
        · next he =>
          cases h
          exact .inr (.inr (.inl ⟨hn, hc, hs, by simp [nextCall, hn, hc, hs, he], s.main.hostTurns, rfl⟩))
      · next hs =>
        split at h
        · next i rest hf =>
          refine .inr (.inr (.inr ⟨hn, hc, i, rest, s.main.hostTurns, ?_, h⟩))
          simp [nextCall, hn, hc, hs, hf]
        · cases h
    · next m ms hc => exact .inr (.inl ⟨hn, m, ms, hc, h⟩)

/-- Everything a step that stops can have done: a move of the operation in progress, a call, or a fetch of bytes that are no
call. -/
theorem step_stops {s : State} {o : Host.Outcome State Fault Refusal} (h : step s = o) (ho : ∀ t, o ≠ .next t) :
    s.main.stall = 0
      ∧ ((∃ m ms, s.main.cont = m :: ms ∧ runMicros [] (m :: ms) s = o)
        ∨ (s.main.cont = [] ∧ ∃ i rest n, nextCall s = some i
            ∧ exec i { s with main.script := rest, main.hostTurns := n } = o)
        ∨ (s.main.cont = [] ∧ s.main.script ≠ [] ∧ ∃ e, fetch s = .error e ∧ o = .refused (decodeRefusal e))) := by
  unfold step at h
  split at h
  · exact absurd h.symm (ho _)
  · next hn =>
    refine ⟨hn, ?_⟩
    unfold mainMove at h
    split at h
    · next hc =>
      unfold issueCall at h
      split at h
      · next hs =>
        split at h
        · next he =>
          unfold hostTurn at h
          split at h
          · next i hi =>
            exact .inr (.inl ⟨hc, i, s.main.script, _, by simp [nextCall, hn, hc, hs, he, hi], h⟩)
          · exact absurd h.symm (ho _)
        · exact absurd h.symm (ho _)
      · next hs =>
        split at h
        · next i rest hf =>
          exact .inr (.inl ⟨hc, i, rest, s.main.hostTurns, by simp [nextCall, hn, hc, hs, hf], h⟩)
        · next e hf => exact .inr (.inr ⟨hc, by simp [hs], e, hf, h.symm⟩)
    · next m ms hc => exact .inl ⟨m, ms, hc, h⟩

end Sys2Proof.Machine
end

