-- ==== Sys2Proof/Tests/Slice0.lean ====
section
/-! SUPPORT. The model's own tests: expected results come from spec/ (vectors of 95_test_vectors, examples of the rules),
worked out by hand where the spec gives none. -/

namespace Sys2Proof.Tests

open Sys2Proof Sys2Proof.Machine

/-! ### Well-formedness: one ill-formed term for each check -/

theorem test_wf_rejects_no_ticks : Instr.WellFormed Params.reference (.timerArm 0) = false := by decide
theorem test_wf_rejects_short_word : Instr.WellFormed Params.reference (.configure [1, 2, 3]) = false := by decide
theorem test_wf_rejects_configure_mode : Instr.WellFormed Params.reference (.setMode .configure) = false := by decide
theorem test_wf_rejects_short_buffer : Instr.WellFormed Params.reference (.transmitPacket [1, 2, 3]) = false := by decide
theorem test_wf_accepts_packet : Instr.WellFormed Params.reference (.transmitPacket [6, 5, 4, 3, 2, 1]) = true := by decide

/-! ### Decoding: the ordinal of 30 R90 in bits 4..0, then the operands (log 5) -/

/-- What the decoder reads at payload width 6, and how many bytes it leaves. -/
def reads (bytes : List Byte) : Option (Instr × Nat) :=
  match decode 6 bytes with
  | .ok (i, rest) => some (i, rest.length)
  | .error _ => none

/-- Why the decoder rejects. -/
def rejects (bytes : List Byte) : Option DecodeError :=
  match decode 6 bytes with
  | .ok _ => none
  | .error e => some e

theorem test_decode_timerArm : reads [0b00000, 1, 0x02, 0] = some (.timerArm 3, 0) := by decide
theorem test_decode_timerDisarm : reads [0b00001] = some (.timerDisarm, 0) := by decide
theorem test_decode_transmitByte : reads [0b00010, 0xA5] = some (.transmitByte 0xA5, 0) := by decide
theorem test_decode_timerEvent : reads [0b00011] = some (.timerEvent, 0) := by decide
theorem test_decode_armReceive : reads [0b00100] = some (.armReceive, 0) := by decide
theorem test_decode_edgeEvent : reads [0b00101] = some (.edgeEvent, 0) := by decide
theorem test_decode_poll : reads [0b00110, 0x55] = some (.pollReceivedByte, 1) := by decide
theorem test_decode_writeLine : reads [0b00111, 1, 0x4F, 1, 0x4B, 0] = some (.writeLine [0x4F, 0x4B], 0) := by decide
theorem test_decode_clockOutBit : reads [0b01000, 1] = some (.clockOutBit true, 0) := by decide
theorem test_decode_clockOutByte : reads [0b01001, 0x06] = some (.clockOutByte 0x06, 0) := by decide
theorem test_decode_initializeLines : reads [0b01010] = some (.initializeLines, 0) := by decide
theorem test_decode_configure :
    reads [0b01011, 0, 0x01, 0x23, 0x45, 0x67, 0x89, 0xAB, 0xCD, 0xEF, 0xFE, 0xDC, 0xBA, 0x98, 0x76, 0x54] =
      some (.configure [0x01, 0x23, 0x45, 0x67, 0x89, 0xAB, 0xCD, 0xEF, 0xFE, 0xDC, 0xBA, 0x98, 0x76, 0x54], 0) := by
  decide
theorem test_decode_configure_other_length : reads [0b01011, 1, 1, 0x30, 0] = some (.configure [0x30], 0) := by decide
theorem test_decode_setMode_transmit : reads [0b01100, 0] = some (.setMode .transmit, 0) := by decide
theorem test_decode_setMode_receive : reads [0b01100, 1] = some (.setMode .receive, 0) := by decide
theorem test_decode_clockInBit : reads [0b01101] = some (.clockInBit, 0) := by decide
theorem test_decode_clockInByte : reads [0b01110] = some (.clockInByte, 0) := by decide
theorem test_decode_transmitPacket :
    reads [0b01111, 0, 6, 5, 4, 3, 2, 1, 0b10000] = some (.transmitPacket [6, 5, 4, 3, 2, 1], 1) := by decide
theorem test_decode_hasData : reads [0b10000] = some (.hasData, 0) := by decide
theorem test_decode_receivePacket : reads [0b10001] = some (.receivePacket, 0) := by decide
theorem test_decode_rejects_ordinal_18 : rejects [0b10010] = some (.noSuchOperation 18) := by decide
theorem test_decode_rejects_ordinal_31 : rejects [0b11111, 0] = some (.noSuchOperation 31) := by decide
theorem test_decode_rejects_cut_packet : rejects [0b01111, 0, 6, 5] = some .truncated := by decide
theorem test_decode_rejects_mode_code : rejects [0b01100, 3] = some .badOperandCode := by decide
theorem test_table_word_setMode : decodeTableWord 8 0x0c = some (.setMode .transmit) := by decide
theorem test_table_word_transmitPacket : decodeTableWord 8 0x0f = some (.transmitPacket [0, 0, 0, 0, 0, 0]) := by decide
theorem test_encode_transmitByte : encode 6 (.transmitByte 0xA5) = [0x02, 0xA5] := by decide
theorem test_encode_timerArm : encode 6 (.timerArm 258) = [0x00, 1, 1, 1, 1, 0] := by decide

/-! ### Small states -/

/-- The state an instruction leads to. -/
def after (o : Host.Outcome State Fault Refusal) : Option State :=
  match o with
  | .next t => some t
  | .fault _ => none
  | .refused _ => none

/-- The fault an instruction ends in. -/
def faultOf (o : Host.Outcome State Fault Refusal) : Option Fault :=
  match o with
  | .next _ => none
  | .fault f => some f
  | .refused _ => none

/-- The refusal an instruction ends in. -/
def refusalOf (o : Host.Outcome State Fault Refusal) : Option Refusal :=
  match o with
  | .next _ => none
  | .fault _ => none
  | .refused r => some r

/-- After `initializeLines` and `configure` (42 R176). -/
def configuredState : State :=
  { State.reset with
    radio := { State.reset.radio with
      ceDir := .output, csDir := .output, clkDir := .output, dataDir := .output, lineDirSet := true, configured := true } }

/-- After `initializeLines` only. -/
def initializedState : State := { configuredState with radio.configured := false }

/-- In Transmit mode. -/
def transmitState : State := { configuredState with radio.radioMode := .transmit }

/-- In Receive mode, with these answers to come. -/
def receiveState (dataIn drIn : List Bit) : State :=
  { configuredState with
    radio := { configuredState.radio with radioMode := .receive, ce := true, dataDir := .input }
    env := { configuredState.env with dataIn := dataIn, drIn := drIn } }

/-- The serial engine of the reset state with its timer event due now. -/
def timerState (m : Mode) (k : Nat) (tx rx : Byte) : State :=
  { State.reset with
    now := 50
    serial := { State.reset.serial with
      mode := m, bitIndex := k, txShift := tx, rxReg := rx, txBusy := decide (m = .tx), timerEnable := true,
      timerDue := 50 } }

/-- The entries of the trace. -/
def entries (t : State) : List Entry := t.trace.map Stamped.entry

/-! ### Bit clock -/

/-- D-CLK-1. -/
theorem test_timerArm_sets_due :
    (after (exec (.timerArm 3) { State.reset with now := 100 })).map (fun t => (t.serial.timerDue, t.serial.timerEnable)) =
      some (103, true) := by decide
/-- D-CLK-3. -/
theorem test_timerDisarm_keeps_due :
    (after (exec .timerDisarm (timerState .rx 3 0 0))).map (fun t => (t.serial.timerDue, t.serial.timerEnable)) =
      some (50, false) := by decide
/-- D-CLK-6: the reload comes before the handler disarms. -/
theorem test_timerEvent_receive_completion :
    (after (exec .timerEvent (timerState .rx 8 0 0xA5))).map
      (fun t => (t.serial.timerDue, t.serial.timerEnable, t.serial.receivedFlag, t.serial.rxReg)) =
      some (58, false, true, 0xA5) := by decide

/-! ### Serial engine -/

/-- D-TX-4, the state after line 7. -/
theorem test_transmitByte_arms :
    (after (exec (.transmitByte 0xA5) State.reset)).map
      (fun t => (t.serial.txShift, t.serial.mode, t.serial.txBusy, t.serial.timerDue, t.main.cont)) =
      some (0xA5, .tx, true, 3, [.waitTxDone, .ret .done]) := by decide
/-- D-TX-12. -/
theorem test_transmitByte_overlap :
    faultOf (exec (.transmitByte 0) { State.reset with serial.edgeEnable := true }) = some .serialOverlap := by decide
/-- The example of R133. -/
theorem test_timerEvent_data_bit :
    (after (exec .timerEvent (timerState .tx 2 0x2A 0))).map
      (fun t => (t.serial.txShift, t.serial.bitIndex, t.serial.txd, entries t)) =
      some (0x15, 3, false, [.set .txd false]) := by decide
/-- The example of R134: sample 0 after 0x80. -/
theorem test_timerEvent_sample :
    (after (exec .timerEvent { timerState .rx 1 0 0x80 with env.rxd := false })).map
      (fun t => (t.serial.rxReg, t.serial.bitIndex, entries t)) =
      some (0x40, 2, [.sample .rxd false]) := by decide
/-- V3 case b: a re-arm keeps the unread byte. -/
theorem test_armReceive_keeps_flag :
    (after (exec .armReceive
      { State.reset with
        serial := { State.reset.serial with receivedFlag := true, rxReg := 0x41, bitIndex := 8, mode := .rx } })).map
      (fun t => (t.serial.bitIndex, t.serial.edgeEnable, t.serial.receivedFlag, t.serial.rxReg)) =
      some (0, true, true, 0x41) := by decide
/-- D26: with a schedule, a tick can pass after any line of `armReceive`; here one is to pass after line 4. -/
theorem test_armReceive_line_by_line :
    (after (exec .armReceive { State.reset with env.pace := [0, 0, 0, 1] })).map
      (fun t => (t.serial.mode, t.serial.edgeEnable, t.main.cont, t.main.stall)) =
      some (.rx, false, [.clearRxSync, .enableEdge, .ret .done], 1) := by decide
/-- D26 and log 10: an edge taken between lines 2 and 3 of a re-arming `armReceive` leaves both sources enabled. -/
theorem test_armReceive_preempted :
    (after (step
      { State.reset with
        serial := { State.reset.serial with mode := .rx, rxSync := true, timerEnable := true, timerDue := 4 }
        main := { State.reset.main with
          cont := [.setSerialMode .rx, .clearBitIndex, .clearRxSync, .enableEdge, .ret .done] } })).map
      (fun t => (t.serial.timerEnable, t.serial.edgeEnable, t.serial.rxSync)) = some (true, true, false) := by decide
/-- D-RX-11. -/
theorem test_armReceive_mid_byte : faultOf (exec .armReceive (timerState .rx 3 0 0)) = some .rearmMidByte := by decide
/-- The example of R136: edge at tick 40, H = 4. -/
theorem test_edgeEvent_starts_sampling :
    (after (exec .edgeEvent
      { State.reset with
        now := 40
        serial := { State.reset.serial with mode := .rx, edgeEnable := true }
        env := { State.reset.env with rxd := false, rxdFell := true } })).map
      (fun t => (t.serial.edgeEnable, t.serial.rxSync, t.serial.timerDue, t.serial.timerEnable)) =
      some (false, true, 44, true) := by decide
/-- D-RX-7. -/
theorem test_poll_takes_byte :
    (after (exec .pollReceivedByte
      { State.reset with serial := { State.reset.serial with receivedFlag := true, rxReg := 0xA5 } })).map
      (fun t => (t.main.returns, t.serial.receivedFlag, t.serial.rxReg)) =
      some ([.maybeByte (some 0xA5)], false, 0xA5) := by decide
/-- D-RX-6. -/
theorem test_poll_none : (after (exec .pollReceivedByte State.reset)).map (fun t => t.main.returns) =
    some [.maybeByte none] := by decide
/-- D-TX-10. -/
theorem test_writeLine_empty :
    (after (exec (.writeLine []) State.reset)).map (fun t => (t.serial.timerEnable, t.main.returns, t.now)) =
      some (false, [.done], 0) := by decide
/-- P1: the first byte of "OK" is armed and the second waits. -/
theorem test_writeLine_first_byte :
    (after (exec (.writeLine [0x4F, 0x4B]) State.reset)).map (fun t => (t.serial.txShift, t.main.cont)) =
      some (0x4F, [.waitTxDone, .check .txBusy .txReentry, .check .armed .serialOverlap, .loadTxShift 0x4B, .clearBitIndex,
        .setSerialMode .tx, .setTxBusy, .armLead, .waitTxDone, .ret .done]) := by decide

/-! ### Radio configuration and mode -/

/-- D-BIT-1. -/
theorem test_clockOutBit_trace :
    (after (exec (.clockOutBit true) configuredState)).map entries =
      some [.set .data true, .set .clk true, .set .clk false] := by decide
/-- D-BYTE-1. -/
theorem test_clockOutByte_cells :
    (after (exec (.clockOutByte 0x06) configuredState)).map entries =
      some (outEntries [false, false, false, false, false, true, true, false]) := by decide
/-- D-INIT-1. -/
theorem test_initializeLines_trace :
    (after (exec .initializeLines State.reset)).map (fun t => (entries t, t.radio.lineDirSet, pinLevel .ce t)) =
      some ([.dir .ce .output, .dir .cs .output, .dir .clk .output, .dir .dr .input, .dir .data .output], true,
        some false) := by decide
/-- D-INIT-3. -/
theorem test_initializeLines_again : faultOf (exec .initializeLines configuredState) = some .radioReinit := by decide
/-- The 112 data levels of D-CFG-1, first cell in the top bit. -/
def cfgLevels : BitVec 112 :=
  0b0000000100100011010001010110011110001001101010111100110111101111111111101101110010111010100110000111011001010100#112

/-- D-CFG-1: 340 entries with these levels. -/
theorem test_configure_trace :
    (after (exec (.configure [0x01, 0x23, 0x45, 0x67, 0x89, 0xAB, 0xCD, 0xEF, 0xFE, 0xDC, 0xBA, 0x98, 0x76, 0x54])
      initializedState)).map entries =
      some ([.set .ce false, .set .cs true, .delay .cfgSetup] ++ outEntries ((List.range 112).map cfgLevels.getMsbD)
        ++ [.set .cs false]) := by decide +kernel
/-- D-CFG-2: 13 bytes. -/
theorem test_configure_short_word :
    refusalOf (exec (.configure (List.replicate 13 0)) initializedState) = some .badOperand := by decide
/-- D-CFG-3. -/
theorem test_configure_uninitialized :
    faultOf (exec (.configure (List.replicate 14 0)) State.reset) = some .radioNotInitialized := by decide
/-- D-MODE-1 and V5. -/
theorem test_setMode_receive_trace :
    (after (exec (.setMode .receive) configuredState)).map (fun t => (entries t, t.radio.radioMode, t.radio.ce)) =
      some ([.set .ce false, .set .cs true, .dir .data .output, .delay .modePre, .set .data true, .set .clk true,
        .set .clk false, .delay .modePost, .set .cs false, .dir .data .input, .set .ce true], .receive, true) := by decide
/-- D-MODE-6. -/
theorem test_setMode_configure : refusalOf (exec (.setMode .configure) configuredState) = some .badOperand := by decide

/-! ### Radio packets -/

/-- D-IN-1. -/
theorem test_clockInBit_trace :
    (after (exec .clockInBit (receiveState [true] []))).map (fun t => (entries t, t.main.returns)) =
      some ([.sample .data true, .set .clk true, .set .clk false], [.bit true]) := by decide
/-- D-IN-2. -/
theorem test_clockInByte_value :
    (after (exec .clockInByte (receiveState [false, false, false, false, false, true, true, false] []))).map
      (fun t => t.main.returns) = some [.byte 0x06] := by decide
/-- D-PKT-2 with W = 1. -/
theorem test_transmitPacket_one_byte :
    (after (exec (.transmitPacket [1])
      { transmitState with params.payloadWidth := 1, radio.packetBuffer := [0] })).map
      (fun t => (entries t, t.radio.packetBuffer)) =
      some ([.set .ce true]
        ++ outEntries [true, false, true, false, false, false, false, true, true, false, true, true, false, false, true,
          false, false, false, false, false, false, false, false, true]
        ++ [.set .ce false], [1]) := by decide
/-- D-PKT-5. -/
theorem test_transmitPacket_wrong_mode :
    faultOf (exec (.transmitPacket [6, 5, 4, 3, 2, 1]) configuredState) = some .radioWrongMode := by decide
/-- D-PKT-6. -/
theorem test_hasData_true :
    (after (exec .hasData (receiveState [] [true]))).map (fun t => (entries t, t.main.returns)) =
      some ([.sample .dr true], [.bool true]) := by decide
/-- D-PKT-7. -/
theorem test_hasData_reset : faultOf (exec .hasData State.reset) = some .radioNotInitialized := by decide
/-- D-PKT-8 with W = 1: the byte 0x06, `DR` inactive at the first sample. -/
theorem test_receivePacket_one_byte :
    (after (exec .receivePacket
      { receiveState [false, false, false, false, false, true, true, false] [false] with
        params.payloadWidth := 1, radio.packetBuffer := [0] })).map
      (fun t => (t.main.returns, t.radio.ce, (entries t).length)) = some ([.buffer [0x06]], true, 27) := by decide
/-- D-PKT-10 with W = 1: held at the wait, `CE` stays 0. -/
theorem test_receivePacket_held :
    (after (exec .receivePacket
      { receiveState [false, false, false, false, false, true, true, false] [true] with
        params.payloadWidth := 1, radio.packetBuffer := [0] })).map
      (fun t => (t.main.cont, t.radio.ce, t.radio.packetBuffer)) =
      some ([.waitDrInactive, .set .ce true, .retBuffer], false, [0x06]) := by decide

/-! ### Contexts, ticks, steps -/

/-- R242: the context check comes first. -/
theorem test_call_from_handler :
    faultOf (exec (.setMode .configure) { State.reset with main.context := .interrupt }) =
      some .interruptContextCall := by decide
/-- D-INT-1: an edge while not armed leaves no event. -/
theorem test_tick_edge_not_armed :
    (tick { State.reset with env.rxdIn := [false] }).serial = State.reset.serial := by decide
/-- D-TX-4 at tick 3: the start cell. -/
theorem test_tick_start_cell :
    (fun t : State => (t.serial.txd, t.serial.bitIndex, t.serial.timerDue))
      (tick { timerState .tx 0 0xA5 0 with now := 49, env.rxdIn := [true] }) = (false, 1, 58) := by decide
/-- R13, D30: a timer that never fires drives no cell. -/
theorem test_tick_dead_timer :
    (fun t : State => (t.serial.txd, t.serial.bitIndex, t.serial.timerDue))
      (tick { timerState .tx 0 0xA5 0 with now := 49, env.rxdIn := [true], env.timerFires := false }) =
        (true, 0, 50) := by decide
/-- R239: a turn of a wait lasts one tick however long a pause the schedule has. -/
theorem test_waitTurn_is_short :
    (fun t : State => (t.main.stall, t.env.pace)) (waitTurn { State.reset with env.pace := [7, 2] }) = (1, [2]) := by decide
/-- R115: a counter of 4 bits exceeds the reach of 8 ticks, one of 3 bits does not. -/
theorem test_widthSuffices :
    { Params.reference with timerWidth := some 4 }.widthSuffices
      ∧ ¬{ Params.reference with timerWidth := some 3 }.widthSuffices := by
  constructor
  · intro w h; cases h; decide
  · intro h; exact absurd (h 3 rfl) (by decide)
/-- A step issues the script's next call. -/
theorem test_step_issues_call :
    (after (step { State.reset with main.script := [0x04, 0x06] })).map
      (fun t => (t.serial.edgeEnable, t.main.script)) = some (true, [0x06]) := by decide
/-- A script that names no operation is refused by name. -/
theorem test_step_refuses_ordinal :
    refusalOf (step { State.reset with main.script := [0x1e] }) = some (.noSuchOperation 30) := by decide
/-- The host's placing of a call. -/
theorem test_withFetchWord_runs :
    (after (step (State.reset.withFetchWord 8 0x02))).map (fun t => (t.serial.txBusy, t.main.script)) =
      some (true, []) := by decide

/-! ### Witnesses: a state and operands that meet the hypotheses of each statement together -/

/-- Armed for reception, the line idle, a falling edge at the next tick. -/
def armedState : State :=
  { State.reset with
    serial := { State.reset.serial with mode := .rx, edgeEnable := true }
    env := { State.reset.env with rxdIn := false :: List.replicate 80 true } }

/-- An edge has just been seen by the armed receiver. -/
def edgeState : State := { armedState with env := { armedState.env with rxd := false, rxdFell := true } }

/-- The wait of `receivePacket`, with `DR` active twice and then inactive. -/
def waitState : State :=
  { receiveState [] [true, true, false] with
    main := { State.reset.main with cont := [.waitDrInactive, .set .ce true, .retBuffer] } }

/-- The receiver of `timerState`, with `RxSync` as given. -/
def syncState (b : Bool) (k : Nat) : State :=
  { timerState .rx k 0 0 with serial := { (timerState .rx k 0 0).serial with rxSync := b } }

/-- A call answers a next state. -/
def answers (i : Instr) (s : State) : Bool := (after (exec i s)).isSome

theorem exists_of_answers {i : Instr} {s : State} (h : answers i s = true) : ∃ t, exec i s = .next t := by
  unfold answers after at h
  split at h
  · next t ht => exact ⟨t, ht⟩
  · cases h
  · cases h

/-- A call answers a next state that passes a test. -/
theorem exists_of_after {i : Instr} {s : State} {p : State → Bool} (h : (after (exec i s)).any p = true) :
    ∃ t, exec i s = .next t ∧ p t = true := by
  unfold after at h
  split at h
  · next t ht => exact ⟨t, ht, by simpa using h⟩
  · cases h
  · cases h

/-- A call and the steps after it answer a next state. -/
def runs (n : Nat) (i : Instr) (s : State) : Bool :=
  match exec i s with
  | .next t => (after (steps n t)).isSome
  | .fault _ => false
  | .refused _ => false

theorem exists_of_runs {n : Nat} {i : Instr} {s : State} (h : runs n i s = true) :
    ∃ t u, exec i s = .next t ∧ steps n t = .next u := by
  unfold runs at h
  split at h
  · next t ht =>
    unfold after at h
    split at h
    · next u hu => exact ⟨t, u, ht, hu⟩
    · cases h
    · cases h
  · cases h
  · cases h

theorem hostKeeps_of_next {i : Instr} {s : State} (h : nextCall s = some i) (hi : i.isHostOp = true) : HostKeeps s := by
  intro j hj
  rw [h] at hj
  cases hj
  exact hi

theorem witness_DecodeOfEncodeIsIdentity :
    Instr.WellFormed Params.reference (.timerArm 1) = true
      ∧ Instr.WellFormed Params.reference (.configure (List.replicate 14 0)) = true
      ∧ Instr.WellFormed Params.reference (.setMode .receive) = true := by decide
theorem witness_UnlistedOrdinalsRefused :
    let s := { State.reset with main.script := [0b10010, 7] }
    18 ≤ (0b10010 : Byte).toNat % 32 ∧ 18 ≤ (0b11111 : Byte).toNat % 32 ∧ s.main.stall = 0 ∧ s.main.cont = []
      ∧ s.main.script = 0b10010 :: [7] := by decide
/-- The first clause, and both ways of the second. -/
theorem witness_StepRunsDecodedCall :
    let s := { State.reset with main.script := [0x04, 0x06] }
    let e := { State.reset with main.endless := true }
    (s.main.stall = 0 ∧ s.main.cont = [] ∧ decode s.params.payloadWidth s.main.script = .ok (.armReceive, [0x06]))
      ∧ (e.main.stall = 0 ∧ e.main.cont = [] ∧ e.main.script = [] ∧ e.main.endless = true)
      ∧ State.reset.main.stall = 0 ∧ State.reset.main.cont = [] ∧ State.reset.main.script = []
      ∧ State.reset.main.endless = false :=
  ⟨⟨rfl, rfl, rfl⟩, ⟨rfl, rfl, rfl, rfl⟩, rfl, rfl, rfl, rfl⟩
theorem witness_TimerArmSetsDueTime : 1 ≤ (1 : Nat) := by decide
/-- The due tick; the tick before it, and a timer that never fires; a due time within reach of a timer of 4 bits. -/
theorem witness_TimerFiresAndReloadsAtDueTick :
    let s := { timerState .tx 0 0xA5 0 with now := 49 }
    let u := { timerState .tx 0 0xA5 0 with now := 48 }
    let w := { s with params.timerWidth := some 4 }
    (s.serial.timerEnable = true ∧ s.serial.edgeEnable = false ∧ s.env.timerFires = true
        ∧ s.now + 1 = s.serial.timerDue)
      ∧ (u.serial.timerEnable = true ∧ u.serial.edgeEnable = false ∧ u.now + 1 ≠ u.serial.timerDue)
      ∧ { s with env.timerFires := false }.env.timerFires = false
      ∧ (w.serial.timerEnable = true ∧ w.serial.edgeEnable = false ∧ TimerWithinReach w ∧ w.params.widthSuffices) := by
  refine ⟨by decide, by decide, rfl, rfl, rfl, fun _ => by decide, ?_⟩
  intro w h; cases h; decide
/-- The four clauses, the second at both ends of its range. -/
theorem witness_TimerEventDrivesFrame :
    ∀ k ∈ [0, 1, 8, 9, 10],
      (timerState .tx k 0xA5 0).serial.timerEnable = true
        ∧ (timerState .tx k 0xA5 0).now = (timerState .tx k 0xA5 0).serial.timerDue
        ∧ (timerState .tx k 0xA5 0).serial.mode = .tx ∧ (timerState .tx k 0xA5 0).serial.bitIndex = k := by decide
/-- The three clauses, the second at both ends of its range. -/
theorem witness_TimerEventSamplesFrame :
    ∀ c ∈ [(true, 0), (false, 0), (false, 7), (false, 8)],
      (syncState c.1 c.2).serial.timerEnable = true ∧ (syncState c.1 c.2).now = (syncState c.1 c.2).serial.timerDue
        ∧ (syncState c.1 c.2).serial.mode = .rx ∧ (syncState c.1 c.2).serial.rxSync = c.1
        ∧ (syncState c.1 c.2).serial.bitIndex = c.2 := by decide
theorem witness_EdgeEventStartsSampling :
    edgeState.serial.edgeEnable = true ∧ edgeState.env.rxdFell = true := by decide
/-- Each way an event is not due. -/
theorem witness_NoEventWithoutItsCondition :
    State.reset.serial.timerEnable = false
      ∧ { timerState .tx 0 0 0 with now := 48 }.now ≠ (timerState .tx 0 0 0).serial.timerDue
      ∧ State.reset.serial.edgeEnable = false ∧ armedState.env.rxdFell = false := by decide
/-- The first clause, and each way of the second. -/
theorem witness_OnlyFallingEdgeWhileArmedStartsReception :
    armedState.serial.timerEnable = false ∧ armedState.serial.edgeEnable = true ∧ armedState.env.rxd = true
      ∧ nextRxd armedState = false ∧ State.reset.serial.timerEnable = false ∧ State.reset.serial.edgeEnable = false
      ∧ edgeState.serial.timerEnable = false ∧ edgeState.env.rxd = false
      ∧ nextRxd { armedState with env.rxdIn := [true] } = true := by decide
/-- With a timer that fires, and with one that never does. -/
theorem witness_TransmitByteArmsAndWaits :
    let d := { State.reset with env.timerFires := false }
    (Ready State.reset ∧ State.reset.serial.txBusy = false ∧ State.reset.serial.timerEnable = false
        ∧ State.reset.serial.edgeEnable = false)
      ∧ Ready d ∧ d.serial.txBusy = false ∧ d.serial.timerEnable = false ∧ d.serial.edgeEnable = false
      ∧ d.env.timerFires = false := by decide
theorem witness_TransmitByteSendsFrameAndReturns :
    State.reset.params.Legal ∧ Ready State.reset ∧ State.reset.env.timerFires = true ∧ State.reset.serial.txBusy = false
      ∧ State.reset.serial.timerEnable = false ∧ State.reset.serial.edgeEnable = false := by decide
theorem witness_WriteLineSendsFramesInOrder :
    State.reset.params.Legal ∧ Ready State.reset ∧ State.reset.env.timerFires = true ∧ State.reset.serial.txBusy = false
      ∧ State.reset.serial.timerEnable = false ∧ State.reset.serial.edgeEnable = false := by decide
theorem witness_ArmReceiveArms :
    State.reset.main.context = .main ∧ State.reset.main.stall = 0 ∧ State.reset.env.pace = []
      ∧ State.reset.serial.txBusy = false ∧ State.reset.serial.timerEnable = false := by decide
theorem witness_RearmIsIdempotent :
    SerialInv armedState.serial ∧ armedState.main.context = .main ∧ armedState.main.stall = 0
      ∧ armedState.env.pace = [] ∧ armedState.serial.edgeEnable = true ∧ armedState.env.rxdFell = false := by decide
/-- Both clauses. -/
theorem witness_PollTakesMailbox :
    { State.reset with serial.receivedFlag := true }.main.context = .main
      ∧ { State.reset with serial.receivedFlag := true }.serial.receivedFlag = true
      ∧ State.reset.main.context = .main ∧ State.reset.serial.receivedFlag = false := by decide
theorem witness_EdgeDeliversSampledByte :
    armedState.params.Legal ∧ SerialInv armedState.serial ∧ armedState.env.timerFires = true
      ∧ armedState.serial.edgeEnable = true
      ∧ armedState.env.rxd = true ∧ armedState.env.rxdIn = false :: List.replicate 80 true
      ∧ armedState.params.halfBit + 9 * armedState.params.bitPeriod ≤ (List.replicate 80 true).length := by decide
theorem witness_SerialRoundTrip :
    ∃ a' b : State, State.reset.params.Legal ∧ Ready State.reset ∧ State.reset.serial.txBusy = false
      ∧ State.reset.serial.timerEnable = false ∧ State.reset.serial.edgeEnable = false
      ∧ State.reset.serial.txd = true ∧ exec (.transmitByte 0xA5) State.reset = .next a'
      ∧ State.reset.env.timerFires = true ∧ b.env.timerFires = true
      ∧ b.params.bitPeriod = State.reset.params.bitPeriod ∧ b.params.halfBit = State.reset.params.halfBit
      ∧ SerialInv b.serial ∧ b.serial.edgeEnable = true ∧ b.env.rxd = true
      ∧ b.env.rxdIn = txdWave
          (State.reset.params.txLead + State.reset.params.halfBit + 9 * State.reset.params.bitPeriod) a' ++ [] := by
  obtain ⟨a', h⟩ := exists_of_answers (i := .transmitByte 0xA5) (s := State.reset) (by decide)
  refine ⟨a', { armedState with
    env.rxdIn := txdWave
      (State.reset.params.txLead + State.reset.params.halfBit + 9 * State.reset.params.bitPeriod) a' ++ [] },
    by decide, by decide, by decide, by decide, by decide, by decide, h, rfl, rfl, rfl, rfl, ?_, rfl, rfl, rfl⟩
  show SerialInv armedState.serial
  decide
theorem witness_MailboxKeepsOnlyLastByte :
    let s := { armedState with serial.receivedFlag := true }
    s.params.Legal ∧ SerialInv s.serial ∧ Ready s ∧ s.env.timerFires = true ∧ s.serial.edgeEnable = true
      ∧ s.serial.receivedFlag = true
      ∧ s.env.rxd = true ∧ s.env.rxdIn = false :: List.replicate 80 true
      ∧ s.params.halfBit + 9 * s.params.bitPeriod ≤ (List.replicate 80 true).length := by decide
theorem witness_SerialShiftsMoveBitsInOrder :
    0 < 8 ∧ 7 < 8 ∧ [true, false, true, false, false, true, false, true].length = 8 := by decide
theorem witness_ClockOutBitPulsesOnce : Ready configuredState := by decide
theorem witness_ClockOutByteSendsMsbFirst : Ready configuredState := by decide
/-- Both directions. -/
theorem witness_ClockInBitSamplesThenPulses :
    Ready (receiveState [true] []) ∧ (receiveState [true] []).radio.dataDir = .input
      ∧ Ready configuredState ∧ configuredState.radio.dataDir = .output := by decide
theorem witness_ClockInByteAssemblesMsbFirst :
    Ready (receiveState [true] []) ∧ (receiveState [true] []).radio.dataDir = .input := by decide
theorem witness_InitializeLinesSetsDirections :
    Ready State.reset ∧ State.reset.radio.configured = false := by decide
theorem witness_InitializeLinesIsIdempotent :
    Ready State.reset ∧ State.reset.radio.configured = false ∧ ∃ t, exec .initializeLines State.reset = .next t :=
  ⟨by decide, by decide, exists_of_answers (by decide)⟩
theorem witness_ConfigureSendsWord :
    Ready initializedState ∧ initializedState.radio.lineDirSet = true ∧ initializedState.radio.configured = false
      ∧ (List.replicate 14 (0x30 : Byte)).length = 14 := by decide
/-- With no delay and with one of two ticks. -/
theorem witness_ConfigureEmits112Pulses :
    let s := { initializedState with params.cfgSetup := 2 }
    Ready initializedState ∧ Ready s
      ∧ (∃ t u, exec (.configure (List.replicate 14 0x30)) initializedState = .next t
          ∧ steps (delaySteps initializedState.params.cfgSetup) t = .next u)
      ∧ ∃ t u, exec (.configure (List.replicate 14 0x30)) s = .next t ∧ steps (delaySteps s.params.cfgSetup) t = .next u :=
  ⟨by decide, by decide, exists_of_runs (by decide +kernel), exists_of_runs (by decide +kernel)⟩
/-- Both roles. -/
theorem witness_SetModeRunsSequence :
    Ready configuredState ∧ configuredState.radio.lineDirSet = true ∧ configuredState.radio.configured = true
      ∧ RadioMode.receive ≠ .configure ∧ RadioMode.transmit ≠ .configure := by decide
theorem witness_TransmitPacketSendsAddressAndPayload :
    Ready transmitState ∧ transmitState.radio.lineDirSet = true ∧ transmitState.radio.configured = true
      ∧ transmitState.radio.radioMode = .transmit
      ∧ ([6, 5, 4, 3, 2, 1] : List Byte).length = transmitState.params.payloadWidth
      ∧ transmitState.radio.packetBuffer.length = transmitState.params.payloadWidth := by decide
theorem witness_HasDataReadsDataReady :
    initializedState.main.context = .main ∧ initializedState.radio.lineDirSet = true := by decide
theorem witness_ReceivePacketReturnsPayload :
    let s := receiveState (List.replicate 48 true) [false]
    Ready s ∧ s.radio.lineDirSet = true ∧ s.radio.configured = true ∧ s.radio.radioMode = .receive
      ∧ s.radio.dataDir = .input ∧ s.radio.clk = false ∧ s.radio.packetBuffer.length = s.params.payloadWidth
      ∧ (answerDr s).1 = false := by decide
theorem witness_ReceivePacketHeldWhileDataReady :
    let s := receiveState (List.replicate 48 true) [true]
    Ready s ∧ s.radio.lineDirSet = true ∧ s.radio.configured = true ∧ s.radio.radioMode = .receive
      ∧ s.radio.dataDir = .input ∧ s.radio.clk = false ∧ s.radio.packetBuffer.length = s.params.payloadWidth
      ∧ (answerDr s).1 = true := by decide
theorem witness_ReceiveWaitEndsWhenDataReadyDrops :
    waitState.main.cont = [.waitDrInactive, .set .ce true, .retBuffer] ∧ waitState.main.stall = 0
      ∧ waitState.env.pace = [] ∧ waitState.env.drIn = List.replicate 2 true ++ false :: [] := by decide
theorem witness_ReceiveWaitIsUnbounded :
    4 ≤ 2 * 2 ∧ waitState.main.cont = .waitDrInactive :: [.set .ce true, .retBuffer] ∧ waitState.main.stall = 0
      ∧ waitState.env.pace = [] ∧ waitState.env.drIn = List.replicate 2 true ++ [false] := by decide
/-- The front-ends of the pair, each in its role; a receiver whose answers to come are its front-end's meets the hypotheses
of the last two clauses. -/
theorem witness_PacketLoopBackThroughReferencePair :
    let payload : List Byte := [6, 5, 4, 3, 2, 1]
    let f := { FrontEnd.start with role := some .transmit }
    let g := { FrontEnd.start with role := some .receive, ce := true }
    let r := receiveState (byteCells payload) [false]
    (transmitState.params.Legal ∧ Ready transmitState
        ∧ transmitState.radio.packetBuffer.length = transmitState.params.payloadWidth)
      ∧ (∃ t, exec (.transmitPacket payload) transmitState = .next t)
      ∧ (f.role = some .transmit ∧ f.ce = false ∧ f.cs = false ∧ f.clk = false ∧ f.txBits = [])
      ∧ (r.params.payloadWidth = transmitState.params.payloadWidth ∧ Ready r ∧ r.radio.lineDirSet = true
        ∧ r.radio.configured = true ∧ r.radio.radioMode = .receive ∧ r.radio.dataDir = .input
        ∧ r.radio.packetBuffer.length = r.params.payloadWidth)
      ∧ (g.role = some .receive ∧ g.ce = true ∧ g.cs = false ∧ g.clk = false ∧ g.rx = none)
      ∧ (∃ q, exec .receivePacket r = .next q
          ∧ frontEndAgrees (frontEndArrive g (byteCells payload)) (newEntries r q) = true)
      ∧ r.env.dataIn = byteCells payload ++ [] ∧ r.env.drIn = false :: [] := by
  refine ⟨by decide, exists_of_answers (by decide +kernel), by decide, by decide, by decide, ?_, by decide, rfl⟩
  refine exists_of_after (p := fun q => frontEndAgrees
    (frontEndArrive { FrontEnd.start with role := some .receive, ce := true } (byteCells [6, 5, 4, 3, 2, 1]))
    (newEntries (receiveState (byteCells [6, 5, 4, 3, 2, 1]) [false]) q)) ?_
  decide +kernel
/-- With a schedule that lets ticks pass. -/
theorem witness_PreemptionLeavesPacketStreamAlone :
    let s := { transmitState with env.pace := [3, 0, 2] }
    s.main.context = .main ∧ s.main.cont = [] ∧ s.main.stall = 0 ∧ s.radio.lineDirSet = true
      ∧ s.radio.configured = true ∧ s.radio.radioMode = .transmit
      ∧ ([6, 5, 4, 3, 2, 1] : List Byte).length = s.params.payloadWidth
      ∧ s.radio.packetBuffer.length = s.params.payloadWidth := by decide
/-- Each clause, the second in both its ways. -/
theorem witness_SerialMisuseFaults :
    { State.reset with serial.txBusy := true }.main.context = .main
      ∧ { State.reset with serial.txBusy := true }.serial.txBusy = true
      ∧ Ready armedState ∧ armedState.serial.txBusy = false ∧ armedState.serial.edgeEnable = true
      ∧ Ready (timerState .rx 3 0 0) ∧ (timerState .rx 3 0 0).serial.txBusy = false
      ∧ (timerState .rx 3 0 0).serial.timerEnable = true := by decide
/-- Each clause: operands inside and outside their types, and the states of each misuse. -/
theorem witness_RadioMisuseFaults :
    (List.replicate 13 (0 : Byte)).length ≠ 14 ∧ (List.replicate 14 (0 : Byte)).length = 14
      ∧ (List.replicate 5 (0 : Byte)).length ≠ State.reset.params.payloadWidth
      ∧ (List.replicate 6 (0 : Byte)).length = State.reset.params.payloadWidth ∧ RadioMode.transmit ≠ .configure
      ∧ State.reset.main.context = .main ∧ State.reset.radio.lineDirSet = false
      ∧ configuredState.main.context = .main ∧ configuredState.radio.lineDirSet = true
      ∧ configuredState.radio.configured = true ∧ configuredState.radio.radioMode ≠ .transmit
      ∧ configuredState.radio.radioMode ≠ .receive
      ∧ initializedState.main.context = .main ∧ initializedState.radio.lineDirSet = true
      ∧ initializedState.radio.configured = false := by decide
theorem witness_HostCallFromHandlerFaults :
    Instr.isHostOp .hasData = true
      ∧ { State.reset with main.context := .interrupt }.main.context = .interrupt := by decide
/-- A fault and a refusal; of a step, the fault of a call, of `armReceive` line 2 after a tick that followed line 1 and of
line 2 of a later byte of `writeLine`, the refusal of an operand and of bytes that are no call. -/
theorem witness_StopsOnlyAsListed :
    (exec .hasData State.reset = .fault .radioNotInitialized
        ∧ exec (.setMode .configure) configuredState = .refused .badOperand)
      ∧ faultOf (step { State.reset with main.script := [0x10] }) = some .radioNotInitialized
      ∧ faultOf (step { timerState .rx 0 0 0 with main.cont := [.check .timerOn .rearmMidByte, .setSerialMode .rx] })
          = some .rearmMidByte
      ∧ faultOf (step { timerState .rx 0 0 0 with main.cont := .waitTxDone :: transmitByteLines 0x4F ++ [.ret .done] })
          = some .serialOverlap
      ∧ refusalOf (step { configuredState with main.script := [0x0c, 0x02] }) = some .badOperand
      ∧ refusalOf (step { State.reset with main.script := [0x1f] }) = some (.noSuchOperation 31) :=
  ⟨⟨rfl, rfl⟩, by decide, by decide, by decide, by decide, by decide⟩
theorem witness_CallsInsideTheContractAnswer :
    Instr.WellFormed transmitState.params (.transmitPacket [6, 5, 4, 3, 2, 1]) = true
      ∧ transmitState.main.context = .main
      ∧ ∀ c ∈ callChecks transmitState (.transmitPacket [6, 5, 4, 3, 2, 1]), c.1 = false := by decide
theorem witness_BitClockFrame :
    (∃ t, exec (.timerArm 3) State.reset = .next t) ∧ ∃ t, exec .timerDisarm State.reset = .next t :=
  ⟨exists_of_answers (by decide), exists_of_answers (by decide)⟩
theorem witness_EventFrame :
    (∃ t, exec .timerEvent (timerState .tx 0 0xA5 0) = .next t) ∧ (timerState .tx 0 0xA5 0).serial.mode = .tx
      ∧ (∃ t, exec .timerEvent (timerState .rx 3 0 0) = .next t) ∧ (timerState .rx 3 0 0).serial.mode = .rx
      ∧ ∃ t, exec .edgeEvent edgeState = .next t :=
  ⟨⟨_, rfl⟩, rfl, ⟨_, rfl⟩, rfl, ⟨_, rfl⟩⟩
theorem witness_SerialOperationFrame :
    (∃ t, exec (.transmitByte 0xA5) State.reset = .next t) ∧ (∃ t, exec (.writeLine [0x4F]) State.reset = .next t)
      ∧ (∃ t, exec .armReceive State.reset = .next t) ∧ ∃ t, exec .pollReceivedByte State.reset = .next t :=
  ⟨exists_of_answers (by decide), exists_of_answers (by decide), exists_of_answers (by decide),
    exists_of_answers (by decide)⟩
theorem witness_RadioConfigFrame :
    (∃ t, exec (.clockOutBit true) configuredState = .next t) ∧ (∃ t, exec (.clockOutByte 6) configuredState = .next t)
      ∧ (∃ t, exec .initializeLines State.reset = .next t)
      ∧ (∃ t, exec (.configure (List.replicate 14 0x30)) initializedState = .next t)
      ∧ ∃ t, exec (.setMode .receive) configuredState = .next t :=
  ⟨exists_of_answers (by decide), exists_of_answers (by decide), exists_of_answers (by decide),
    exists_of_answers (by decide +kernel), exists_of_answers (by decide)⟩
theorem witness_RadioPacketFrame :
    (∃ t, exec .clockInBit (receiveState [true] []) = .next t)
      ∧ (∃ t, exec .clockInByte (receiveState (List.replicate 8 true) []) = .next t)
      ∧ (∃ t, exec .hasData (receiveState [] [true]) = .next t)
      ∧ (∃ t, exec (.transmitPacket [6, 5, 4, 3, 2, 1]) transmitState = .next t)
      ∧ ∃ t, exec .receivePacket (receiveState (List.replicate 48 true) [false]) = .next t :=
  ⟨exists_of_answers (by decide), exists_of_answers (by decide), exists_of_answers (by decide),
    exists_of_answers (by decide +kernel), exists_of_answers (by decide +kernel)⟩
/-- Both clauses. -/
theorem witness_OnlyTimerEventWritesReceiverAndTxd :
    (Instr.armReceive ≠ .timerEvent ∧ ∃ t, exec .armReceive State.reset = .next t)
      ∧ (∀ m ∈ State.reset.main.cont, sparesTxd m = true) ∧ (after (step State.reset)).isSome = true
      ∧ ¬takesTimerEvent State.reset := by
  refine ⟨⟨by decide, exists_of_answers (by decide)⟩, by decide, by decide, ?_⟩
  rintro (⟨_, _, h⟩ | ⟨_, h⟩)
  · exact absurd ((Bool.and_eq_true _ _).mp h).1 (by decide)
  · exact absurd h (by decide)
/-- A reception about to complete at the next tick. -/
def completingState : State := { timerState .rx 8 0 0 with now := 49, env.rxdIn := [true] }

/-- Each of the four changes happens by an operation, and by a step. -/
theorem witness_EnableBitsChangeOnlyAsListed :
    (after (exec .armReceive State.reset)).map (fun t => t.serial.edgeEnable) = some true
      ∧ (after (exec .edgeEvent edgeState)).map (fun t => t.serial.edgeEnable) = some false
      ∧ (after (exec (.timerArm 1) State.reset)).map (fun t => t.serial.timerEnable) = some true
      ∧ (after (exec .timerDisarm (timerState .rx 3 0 0))).map (fun t => t.serial.timerEnable) = some false
      ∧ (after (step { State.reset with main.script := [0x04] })).map (fun t => t.serial.edgeEnable) = some true
      ∧ (after (step armedState)).map (fun t => (t.serial.edgeEnable, t.serial.timerEnable)) = some (false, true)
      ∧ (after (step completingState)).map (fun t => t.serial.timerEnable) = some false := by decide
/-- The premises of the two clauses on events. -/
theorem witness_EnableBitsChangeOnlyAsListed_events :
    takesEdgeEvent armedState ∧ takesTimerEvent completingState ∧ completesTransfer completingState.serial
      ∧ completingState.serial.edgeEnable = false := by
  refine ⟨.inl ⟨.inr ⟨rfl, rfl, rfl⟩, by decide⟩, .inl ⟨.inr ⟨rfl, rfl, rfl⟩, rfl, by decide⟩, ?_, rfl⟩
  exact ⟨rfl, Nat.le_refl 8⟩
/-- Between two operations; and inside an arming, with no edge to be taken. -/
theorem witness_StepKeepsSerialInvariants :
    let s := { State.reset with main.script := [0x04] }
    let u := { State.reset with serial.mode := .rx, main.cont := [.clearBitIndex, .clearRxSync, .enableEdge, .ret .done] }
    (HostKeeps s ∧ (after (step s)).isSome = true ∧ SerialOrder s ∧ outsideArming s ∧ s.env.pace = [] ∧ s.params.Legal
        ∧ s.env.timerFires = true ∧ TimerWithinReach s)
      ∧ HostKeeps u ∧ (after (step u)).isSome = true ∧ SerialOrder u ∧ ¬takesEdgeEvent u := by
  refine ⟨⟨hostKeeps_of_next (i := .armReceive) (by decide) rfl, by decide, ⟨.rest, rfl, ?_⟩, ?_, rfl, by decide,
    rfl, ?_⟩, ?_, by decide, ⟨.rxMode, rfl, ?_⟩, ?_⟩
  · show SerialInv State.reset.serial
    decide
  · intro m h; cases h
  · intro h; cases h
  · intro i h; cases h
  · refine ⟨?_, rfl, rfl, rfl⟩
    show SerialInv { State.reset.serial with mode := .rx }
    decide
  · rintro (⟨_, h⟩ | ⟨h, _⟩)
    · exact absurd ((Bool.and_eq_true _ _).mp h).1 (by decide)
    · cases h
theorem witness_SerialInvariantsGiveAPhase : SerialInv armedState.serial ∧ SerialInv (timerState .tx 10 0 0).serial :=
  ⟨by decide, by decide⟩
theorem witness_StepKeepsRadioInvariant :
    let s := { State.reset with main.script := [0x0a] }
    RadioInv s ∧ HostKeeps s ∧ (after (step s)).isSome = true := by
  refine ⟨?_, hostKeeps_of_next (i := .initializeLines) (by decide) rfl, by decide⟩
  show Settled (radioShape State.reset.radio)
  decide
theorem witness_StepKeepsParametersAndBufferLength : (after (step State.reset)).isSome = true := by decide
theorem witness_TraceGrowsInTimeOrder : (after (step State.reset)).isSome = true := by decide
theorem witness_StepsEndInTheContextTheyBeganIn : (after (step State.reset)).isSome = true := by decide

end Sys2Proof.Tests
end

/-! The statements on what the operations and the steps leave alone (10_state): the frames of the serial operations, the
writers of the receiver, the phase table, the constants of a run and the growth of the line trace. -/

namespace Sys2Proof.Machine

open Sys2Proof

/-! ### Relations between the states before and after a call -/

/-- A relation that chains, and that does not look at the micro-steps left. -/
structure IsFrame (R : State → State → Prop) : Prop where
  trans : ∀ {a b c : State}, R a b → R b c → R a c
  cont : ∀ (s : State) (c : List Micro), R s { s with main.cont := c }

/-- What every micro-step of a run keeps, the run keeps. -/
theorem IsFrame.runMicros {R : State → State → Prop} (hR : IsFrame R) {k ms : List Micro} {s t : State}
    (hstep : ∀ m ∈ ms, ∀ a b, (microStep m a = .done b ∨ microStep m a = .held b) → R a b)
    (h : runMicros k ms s = .next t) : R s t :=
  runMicros_keeps (R s) k (fun _ c ha => hR.trans ha (hR.cont _ c))
    (fun m hm a b ha hab => hR.trans ha (hstep m hm a b hab)) (hR.cont s s.main.cont) h

/-- A call that is no event answers by its run of micro-steps. -/
theorem exec_runMicros {i : Instr} {s t : State} (h1 : i ≠ .timerEvent) (h2 : i ≠ .edgeEvent)
    (h : exec i s = .next t) : runMicros s.main.cont (callBody i s).1 (callBody i s).2 = .next t := by
  obtain ⟨-, -, hrun⟩ := exec_next h1 h2 h
  exact hrun

/-- What the atomic part of a call and each of its micro-steps keep, the call keeps. -/
theorem IsFrame.exec {R : State → State → Prop} (hR : IsFrame R) {i : Instr} {s t : State} (h1 : i ≠ .timerEvent)
    (h2 : i ≠ .edgeEvent) (hbody : R s (callBody i s).2)
    (hstep : ∀ m ∈ (callBody i s).1, ∀ a b, (microStep m a = .done b ∨ microStep m a = .held b) → R a b)
    (h : exec i s = .next t) : R s t :=
  hR.trans hbody (hR.runMicros hstep (exec_runMicros h1 h2 h))

/-- A run leaves the last of its micro-steps still to run, in front of the operation in progress around it. -/
theorem runMicros_cont {k ms : List Micro} {s t : State} (h : runMicros k ms s = .next t) :
    ∃ rest, rest <:+ ms ∧ t.main.cont = rest ++ k := by
  induction ms generalizing s with
  | nil => cases h; exact ⟨[], List.suffix_rfl, rfl⟩
  | cons m ms ih =>
    unfold runMicros at h
    split at h
    · split at h
      · cases h; exact ⟨ms, List.suffix_cons m ms, rfl⟩
      · obtain ⟨rest, hrest, hcont⟩ := ih h
        exact ⟨rest, hrest.trans (List.suffix_cons m ms), hcont⟩
    · cases h; exact ⟨m :: ms, List.suffix_rfl, rfl⟩
    · cases h

/-- A test that holds of a run's micro-steps and of those of the operation around it holds of what is left after it. -/
theorem runMicros_cont_all {p : Micro → Bool} {k ms : List Micro} {s t : State} (hms : ∀ m ∈ ms, p m = true)
    (hk : ∀ m ∈ k, p m = true) (h : runMicros k ms s = .next t) : ∀ m ∈ t.main.cont, p m = true := by
  obtain ⟨rest, hrest, hcont⟩ := runMicros_cont h
  intro m hm
  rw [hcont, List.mem_append] at hm
  exact hm.elim (fun hm => hms m (hrest.mem hm)) (hk m)

/-- A call that only returns a value is over at once, whatever the schedule. -/
theorem runMicros_ret {k : List Micro} {r : Ret} {s t : State} (h : runMicros k [.ret r] s = .next t) :
    t = { yield (returnValue r s) with main.cont := k } := by
  simp only [runMicros, microStep] at h
  split at h <;> cases h <;> rfl

/-! ### The two events -/

theorem deliverTimer_of_not_due {s : State} (h : timerEventDue s ≠ true) : deliverTimer s = s := if_neg h

theorem deliverEdge_env (s : State) :
    (deliverEdge s).env = { s.env with rxdFell := (deliverEdge s).env.rxdFell } := by
  unfold deliverEdge
  split <;> rfl

theorem deliverTimer_main (s : State) : (deliverTimer s).main = s.main := (deliverTimer_frame s).2.1

theorem deliverEdge_main (s : State) : (deliverEdge s).main = s.main := (deliverEdge_frame s).2.1

theorem deliverTimer_callFrame (s : State) : CallFrame s (deliverTimer s) := by
  obtain ⟨-, hmain, hparams, hnow, henv, htrace⟩ := deliverTimer_frame s
  exact ⟨hparams, hnow, by rw [hmain], by rw [hmain], by rw [henv], by rw [henv], htrace⟩

theorem deliverEdge_callFrame (s : State) : CallFrame s (deliverEdge s) := by
  obtain ⟨-, hmain, hparams, hnow, htrace⟩ := deliverEdge_frame s
  have henv := deliverEdge_env s
  exact ⟨hparams, hnow, by rw [hmain], by rw [hmain], by rw [henv], by rw [henv], htrace ▸ grows_none s⟩

/-- What every operation leaves alone, the two events included. -/
theorem exec_callFrame {i : Instr} {s t : State} (h : exec i s = .next t) : CallFrame s t := by
  by_cases h1 : i = .timerEvent
  · subst h1; cases h; exact deliverTimer_callFrame s
  by_cases h2 : i = .edgeEvent
  · subst h2; cases h; exact deliverEdge_callFrame s
  exact callFrame_trans (callBody_callFrame i s) (runMicros_callFrame (exec_runMicros h1 h2 h))

theorem tick_main (s : State) : (tick s).main = s.main := (tick_frame s).2.1

theorem tick_timerFires (s : State) : (tick s).env.timerFires = s.env.timerFires := by
  obtain ⟨-, -, -, -, henv, -⟩ := compareEvent_frame (advanceClock s)
  rw [tick, deliverEdge_env, henv]
  rfl

/-! ### The line trace and the time -/

/-- The time advances by at most a tick, and the line trace grows by entries of the time it then is. -/
def GrowsInTime (s t : State) : Prop :=
  (t.now = s.now ∨ t.now = s.now + 1) ∧ ∃ es, t.trace = s.trace ++ stampAll t.now es

theorem tick_growsInTime (s : State) : GrowsInTime s (tick s) := by
  obtain ⟨-, -, -, hnow, htrace⟩ := tick_frame s
  rw [← hnow] at htrace
  exact ⟨.inr hnow, htrace⟩

theorem growsInTime_of_callFrame {s t : State} (h : CallFrame s t) : GrowsInTime s t := by
  obtain ⟨-, hnow, -, -, -, -, htrace⟩ := h
  rw [← hnow] at htrace
  exact ⟨.inl hnow, htrace⟩

/-- Settles O59: a tick appends at the new time, every other move at the present one. -/
theorem traceGrowsInTimeOrder : Obligations.TraceGrowsInTimeOrder := by
  intro s t h
  rcases step_cases h with ⟨n, -, rfl⟩ | ⟨-, m, ms, -, hrun⟩ | ⟨-, -, -, -, n, rfl⟩ | ⟨-, -, i, rest, n, -, hexec⟩
  · exact tick_growsInTime { s with main.stall := n }
  · exact growsInTime_of_callFrame (runMicros_callFrame hrun)
  · exact tick_growsInTime { s with main.hostTurns := n }
  · exact (growsInTime_of_callFrame (exec_callFrame hexec) :)

/-! ### The constants of a run -/

/-- What is fixed for the life of a block: the parameters, the length of `PacketBuffer`, what the host and the timer
environment are. -/
def KeepsSetup (s t : State) : Prop :=
  t.params = s.params ∧ t.radio.packetBuffer.length = s.radio.packetBuffer.length
    ∧ t.main.endless = s.main.endless ∧ t.env.timerFires = s.env.timerFires

theorem keepsSetup_isFrame : IsFrame KeepsSetup where
  trans := fun ⟨h1, h2, h3, h4⟩ ⟨g1, g2, g3, g4⟩ => ⟨g1.trans h1, g2.trans h2, g3.trans h3, g4.trans h4⟩
  cont := fun _ _ => ⟨rfl, rfl, rfl, rfl⟩

theorem microStep_keepsSetup {m : Micro} {s t : State} (h : microStep m s = .done t ∨ microStep m s = .held t) :
    KeepsSetup s t := by
  obtain ⟨hparams, -, -, -, -, -, hendless, -, hfires⟩ := microStep_frame h
  exact ⟨hparams, microStep_bufferLength h, hendless, hfires⟩

theorem callBody_keepsSetup (i : Instr) (s : State) : KeepsSetup s (callBody i s).2 := by
  refine ⟨(callBody_callFrame i s).1, by rw [callBody_radio], ?_, ?_⟩
  all_goals cases i <;> simp [callBody, pollMailbox_main]
  case refine_2.pollReceivedByte => unfold pollMailbox; split <;> rfl
  case refine_2.hasData => simp [sampleDr]

theorem exec_keepsSetup {i : Instr} {s t : State} (h : exec i s = .next t) : KeepsSetup s t := by
  by_cases h1 : i = .timerEvent
  · subst h1; cases h
    obtain ⟨hradio, hmain, hparams, -, henv, -⟩ := deliverTimer_frame s
    exact ⟨hparams, by rw [hradio], by rw [hmain], by rw [henv]⟩
  by_cases h2 : i = .edgeEvent
  · subst h2; cases h
    obtain ⟨hradio, hmain, hparams, -, -⟩ := deliverEdge_frame s
    exact ⟨hparams, by rw [hradio], by rw [hmain], by rw [deliverEdge_env]⟩
  exact keepsSetup_isFrame.exec h1 h2 (callBody_keepsSetup i s) (fun _ _ _ _ => microStep_keepsSetup) h

theorem tick_keepsSetup (s : State) : KeepsSetup s (tick s) := by
  obtain ⟨hradio, hmain, hparams, -, -⟩ := tick_frame s
  exact ⟨hparams, by rw [hradio], by rw [hmain], tick_timerFires s⟩

/-- Settles O58, over the cases of a step. -/
theorem stepKeepsParametersAndBufferLength : Obligations.StepKeepsParametersAndBufferLength := by
  intro s t h
  rcases step_cases h with ⟨n, -, rfl⟩ | ⟨-, m, ms, -, hrun⟩ | ⟨-, -, -, -, n, rfl⟩ | ⟨-, -, i, rest, n, -, hexec⟩
  · exact tick_keepsSetup { s with main.stall := n }
  · exact keepsSetup_isFrame.runMicros (fun _ _ _ _ => microStep_keepsSetup) hrun
  · exact tick_keepsSetup { s with main.hostTurns := n }
  · exact (exec_keepsSetup hexec :)

/-! ### The writers of the receiver and of `TXD` -/

/-- `RxReg` and `TXD` are not written and `ReceivedFlag` is not set. -/
def SparesReceiver (s t : State) : Prop :=
  t.serial.rxReg = s.serial.rxReg ∧ t.serial.txd = s.serial.txd
    ∧ (t.serial.receivedFlag = true → s.serial.receivedFlag = true)

theorem sparesReceiver_of_serial_eq {s t : State} (h : t.serial = s.serial) : SparesReceiver s t := by
  simp [SparesReceiver, h]

theorem sparesReceiver_isFrame : IsFrame SparesReceiver where
  trans := fun ⟨h1, h2, h3⟩ ⟨g1, g2, g3⟩ => ⟨g1.trans h1, g2.trans h2, h3 ∘ g3⟩
  cont := fun _ _ => sparesReceiver_of_serial_eq rfl

theorem microStep_sparesReceiver {m : Micro} {s t : State} (hm : sparesTxd m = true)
    (h : microStep m s = .done t ∨ microStep m s = .held t) : SparesReceiver s t := by
  obtain ⟨hreg, hflag, htxd, -, -⟩ := microStep_enables h
  exact ⟨hreg, htxd hm, by rw [hflag]; exact id⟩

theorem callBody_spares_all (i : Instr) (s : State) : ∀ m ∈ (callBody i s).1, sparesTxd m = true :=
  List.all_eq_true.mp (callBody_sparesTxd i s)

/-- The atomic part of a call leaves the receiver and `TXD` alone, but for the poll, which may clear `ReceivedFlag`. -/
theorem callBody_sparesReceiver (i : Instr) (s : State) : SparesReceiver s (callBody i s).2 := by
  cases i
  case pollReceivedByte => simp only [callBody, pollMailbox]; split <;> simp [SparesReceiver]
  all_goals simp [callBody, SparesReceiver]

theorem deliverEdge_sparesReceiver (s : State) : SparesReceiver s (deliverEdge s) := by
  rw [SparesReceiver, deliverEdge_serial]
  split <;> simp

theorem exec_sparesReceiver {i : Instr} {s t : State} (hi : i ≠ .timerEvent) (h : exec i s = .next t) :
    SparesReceiver s t := by
  by_cases h2 : i = .edgeEvent
  · subst h2; cases h; exact deliverEdge_sparesReceiver s
  exact sparesReceiver_isFrame.exec hi h2 (callBody_sparesReceiver i s)
    (fun m hm _ _ => microStep_sparesReceiver (callBody_spares_all i s m hm)) h

/-- A tick at which the compare event does not fire. -/
theorem tick_sparesReceiver {s : State} (h : ¬(s.env.timerFires = true ∧ timerEventDue (advanceClock s) = true)) :
    SparesReceiver s (tick s) := by
  have hcompare : (compareEvent (advanceClock s)).serial = s.serial := by
    rw [compareEvent_serial, if_neg (by simpa using h)]
    rfl
  exact sparesReceiver_isFrame.trans (sparesReceiver_of_serial_eq hcompare) (deliverEdge_sparesReceiver _)

/-- A call leaves lines that do not write `TXD`, where there was none in progress that does. -/
theorem exec_cont_sparesTxd {i : Instr} {s t : State} (hs : ∀ m ∈ s.main.cont, sparesTxd m = true)
    (h : exec i s = .next t) : ∀ m ∈ t.main.cont, sparesTxd m = true := by
  by_cases h1 : i = .timerEvent
  · subst h1; cases h; rwa [deliverTimer_main]
  by_cases h2 : i = .edgeEvent
  · subst h2; cases h; rwa [deliverEdge_main]
  exact runMicros_cont_all (callBody_spares_all i s) hs (exec_runMicros h1 h2 h)

/-- A step keeps that no line still to run writes `TXD`. -/
theorem step_cont_sparesTxd {s t : State} (hs : ∀ m ∈ s.main.cont, sparesTxd m = true) (h : step s = .next t) :
    ∀ m ∈ t.main.cont, sparesTxd m = true := by
  rcases step_cases h with ⟨n, -, rfl⟩ | ⟨-, m, ms, hcont, hrun⟩ | ⟨-, -, -, -, n, rfl⟩ | ⟨-, -, i, rest, n, -, hexec⟩
  · rwa [tick_main]
  · exact runMicros_cont_all (hcont ▸ hs) (by simp) hrun
  · rwa [tick_main]
  · exact exec_cont_sparesTxd (s := { s with main.script := rest, main.hostTurns := n }) hs hexec

/-- A step that does not take the timer event leaves the receiver and `TXD` alone. -/
theorem step_sparesReceiver {s t : State} (hs : ∀ m ∈ s.main.cont, sparesTxd m = true) (hn : ¬takesTimerEvent s)
    (h : step s = .next t) : SparesReceiver s t := by
  rcases step_cases h with ⟨n, hstall, rfl⟩ | ⟨-, m, ms, hcont, hrun⟩ | ⟨-, hcont, hscript, hnext, n, rfl⟩ |
    ⟨-, -, i, rest, n, hnext, hexec⟩
  · exact tick_sparesReceiver (s := { s with main.stall := n }) fun hdue => hn (.inl ⟨.inl (by omega), hdue⟩)
  · exact sparesReceiver_isFrame.runMicros (fun m hm _ _ => microStep_sparesReceiver (hs m (hcont ▸ hm))) hrun
  · exact tick_sparesReceiver (s := { s with main.hostTurns := n })
      fun hdue => hn (.inl ⟨.inr ⟨hcont, hscript, hnext⟩, hdue⟩)
  · by_cases hi : i = .timerEvent
    · subst hi; cases hexec
      rw [deliverTimer_of_not_due (s := { s with main.script := rest, main.hostTurns := n })
        fun hdue => hn (.inr ⟨hnext, hdue⟩)]
      exact sparesReceiver_of_serial_eq rfl
    · exact (exec_sparesReceiver hi hexec :)

/-- Settles O53: the micro-steps of every call and of every operation in progress spare the receiver and `TXD`. -/
theorem onlyTimerEventWritesReceiverAndTxd : Obligations.OnlyTimerEventWritesReceiverAndTxd :=
  ⟨fun _ _ _ hi h => exec_sparesReceiver hi h,
    fun _ _ hs h => ⟨step_cont_sparesTxd hs h, fun hn => step_sparesReceiver hs hn h⟩⟩

/-! ### The phase table -/

/-- Settles O56: the busy flag and the two enables pick the rows of the table, and the invariants give `Mode`, `RxSync` and
the bound on `BitIndex` there. -/
theorem serialInvariantsGiveAPhase : Obligations.SerialInvariantsGiveAPhase := by
  rintro e ⟨hone, hbusy, hedge, hsync, hrx, htx⟩
  cases hb : e.txBusy with
  | true => -- TX start, data bits, stop, completion
    obtain ⟨hmode, htimer, hedge⟩ := hbusy hb
    have hsync : e.rxSync = false := by simpa [hmode] using hsync
    have hbits : e.bitIndex ≤ 10 := (htx htimer hmode).1
    simp only [serialPhase, hb, htimer, hedge, hsync, hmode]
    split_ifs
    case neg => omega
    all_goals rfl
  | false =>
    cases he : e.edgeEnable with
    | true => -- RX armed
      obtain ⟨hmode, hbits, hsync⟩ := hedge he
      have htimer : e.timerEnable = false := by simpa [he] using hone
      simp [serialPhase, hb, htimer, he, hsync, hmode, hbits]
    | false =>
      cases ht : e.timerEnable with
      | true =>
        have hmode : e.mode = .rx := by
          cases hm : e.mode with
          | tx => simpa [hb] using (htx ht hm).2
          | rx => rfl
        cases hs : e.rxSync with
        | true => simp [serialPhase, hb, ht, he, hs, hmode, (hsync hs).2.2] -- RX start centre
        | false => -- RX data bit, completion
          have hbits : e.bitIndex ≤ 8 := hrx ht hmode
          simp only [serialPhase, hb, ht, he, hs, hmode]
          split_ifs
          case neg => omega
          all_goals rfl
      | false => -- idle
        have hs : e.rxSync = false := by simpa [ht] using hsync
        simp [serialPhase, hb, ht, he, hs]

/-! ### The serial host operations -/

/-- What the lines of `transmitByte` leave alone (10 R45). -/
def TransmitFrame (s t : State) : Prop :=
  t.trace = s.trace ∧ t.radio = s.radio
    ∧ t.serial = { s.serial with
        txShift := t.serial.txShift, bitIndex := t.serial.bitIndex, mode := t.serial.mode,
        txBusy := t.serial.txBusy, timerEnable := t.serial.timerEnable, timerDue := t.serial.timerDue }
    ∧ t.main = { s.main with cont := t.main.cont, stall := t.main.stall, returns := t.main.returns }
    ∧ t.env = { s.env with pace := t.env.pace }

/-- What the lines of `armReceive` leave alone (10 R45; log 4 for the timer registers). -/
def ArmFrame (s t : State) : Prop :=
  t.trace = s.trace ∧ t.radio = s.radio
    ∧ t.serial = { s.serial with
        mode := t.serial.mode, bitIndex := t.serial.bitIndex, rxSync := t.serial.rxSync,
        edgeEnable := t.serial.edgeEnable }
    ∧ t.main = { s.main with cont := t.main.cont, stall := t.main.stall, returns := t.main.returns }
    ∧ t.env = { s.env with rxdFell := t.env.rxdFell, pace := t.env.pace }

theorem transmitFrame_isFrame : IsFrame TransmitFrame where
  trans := fun ⟨h1, h2, h3, h4, h5⟩ ⟨g1, g2, g3, g4, g5⟩ =>
    ⟨g1.trans h1, g2.trans h2, g3.trans (by rw [h3]), g4.trans (by rw [h4]), g5.trans (by rw [h5])⟩
  cont := fun _ _ => ⟨rfl, rfl, rfl, rfl, rfl⟩

theorem armFrame_isFrame : IsFrame ArmFrame where
  trans := fun ⟨h1, h2, h3, h4, h5⟩ ⟨g1, g2, g3, g4, g5⟩ =>
    ⟨g1.trans h1, g2.trans h2, g3.trans (by rw [h3]), g4.trans (by rw [h4]), g5.trans (by rw [h5])⟩
  cont := fun _ _ => ⟨rfl, rfl, rfl, rfl, rfl⟩

theorem transmitFrame_yield (s : State) : TransmitFrame s (yield s) := by
  unfold yield; split <;> exact ⟨rfl, rfl, rfl, rfl, rfl⟩

theorem transmitFrame_waitTurn (s : State) : TransmitFrame s (waitTurn s) := by
  unfold waitTurn; split <;> exact ⟨rfl, rfl, rfl, rfl, rfl⟩

theorem armFrame_yield (s : State) : ArmFrame s (yield s) := by
  unfold yield; split <;> exact ⟨rfl, rfl, rfl, rfl, rfl⟩

/-- A line of `transmitByte`, or the return of the call. -/
def transmitLine : Micro → Bool
  | .check _ _ | .loadTxShift _ | .clearBitIndex | .setSerialMode _ | .setTxBusy | .armLead | .waitTxDone | .ret _ => true
  | _ => false

/-- A line of `armReceive`, or the return of the call. -/
def armLine : Micro → Bool
  | .check _ _ | .setSerialMode _ | .clearBitIndex | .clearRxSync | .enableEdge | .ret _ => true
  | _ => false

/-- A check that does not fault only yields. -/
theorem microStep_check_eq {c : SerialCheck} {f : Fault} {s t : State}
    (h : microStep (.check c f) s = .done t ∨ microStep (.check c f) s = .held t) : t = yield s := by
  simp only [microStep] at h
  split at h <;> rcases h with h | h <;> cases h
  rfl

/-- A wait for the end of a transmission lets a tick pass or yields. -/
theorem microStep_waitTxDone_eq {s t : State}
    (h : microStep .waitTxDone s = .done t ∨ microStep .waitTxDone s = .held t) : t = waitTurn s ∨ t = yield s := by
  simp only [microStep] at h
  split at h <;> rcases h with h | h <;> cases h
  · exact .inl rfl
  · exact .inr rfl

theorem microStep_transmitFrame {m : Micro} {s t : State} (hm : transmitLine m = true)
    (h : microStep m s = .done t ∨ microStep m s = .held t) : TransmitFrame s t := by
  cases m <;> cases hm
  case check => exact microStep_check_eq h ▸ transmitFrame_yield s
  case waitTxDone =>
    rcases microStep_waitTxDone_eq h with rfl | rfl
    · exact transmitFrame_waitTurn s
    · exact transmitFrame_yield s
  all_goals
    rcases h with h | h <;> cases h
    exact transmitFrame_isFrame.trans ⟨rfl, rfl, rfl, rfl, rfl⟩ (transmitFrame_yield _)

theorem microStep_armFrame {m : Micro} {s t : State} (hm : armLine m = true)
    (h : microStep m s = .done t ∨ microStep m s = .held t) : ArmFrame s t := by
  cases m <;> cases hm
  case check => exact microStep_check_eq h ▸ armFrame_yield s
  all_goals
    rcases h with h | h <;> cases h
    exact armFrame_isFrame.trans ⟨rfl, rfl, rfl, rfl, rfl⟩ (armFrame_yield _)

/-- The lines of `transmitByte`, for one byte or for each byte of a text, keep its frame. -/
theorem runMicros_transmitFrame {k : List Micro} {text : List Byte} {s t : State}
    (h : runMicros k (text.flatMap transmitByteLines ++ [.ret .done]) s = .next t) : TransmitFrame s t := by
  have hlines : ∀ m ∈ text.flatMap transmitByteLines ++ [.ret .done], transmitLine m = true := by
    rw [← List.all_eq_true, List.all_append, all_flatMap_of fun _ => rfl]
    rfl
  exact transmitFrame_isFrame.runMicros (fun m hm _ _ => microStep_transmitFrame (hlines m hm)) h

theorem execTransmitByte_transmitFrame {v : Byte} {s t : State} (h : exec (.transmitByte v) s = .next t) :
    TransmitFrame s t := by
  have hrun := exec_runMicros (by simp) (by simp) h
  exact runMicros_transmitFrame (text := [v]) (by simpa [callBody] using hrun)

theorem execWriteLine_transmitFrame {text : List Byte} {s t : State} (h : exec (.writeLine text) s = .next t) :
    TransmitFrame s t :=
  runMicros_transmitFrame (exec_runMicros (by simp) (by simp) h)

theorem execArmReceive_armFrame {s t : State} (h : exec .armReceive s = .next t) : ArmFrame s t := by
  have hlines : ∀ m ∈ armReceiveLines ++ [.ret .done], armLine m = true := List.all_eq_true.mp rfl
  exact armFrame_isFrame.runMicros (fun m hm _ _ => microStep_armFrame (hlines m hm))
    (exec_runMicros (by simp) (by simp) h)

/-- A poll takes the mailbox and returns at once, whatever the schedule. -/
theorem execPollReceivedByte_next {s t : State} (h : exec .pollReceivedByte s = .next t) :
    t = { yield (returnValue (.maybeByte (pollMailbox s).1) (pollMailbox s).2) with main.cont := s.main.cont } :=
  runMicros_ret (exec_runMicros (by simp) (by simp) h)

theorem execPollReceivedByte_frame {s t : State} (h : exec .pollReceivedByte s = .next t) :
    t.trace = s.trace ∧ t.radio = s.radio
      ∧ t.serial = { s.serial with receivedFlag := t.serial.receivedFlag }
      ∧ t.main = { s.main with stall := t.main.stall, returns := t.main.returns }
      ∧ t.env = { s.env with pace := t.env.pace } := by
  rw [execPollReceivedByte_next h]
  unfold pollMailbox yield
  split <;> split <;> exact ⟨rfl, rfl, rfl, rfl, rfl⟩

/-- Settles O50: the frame of every call, with those of the lines of `transmitByte`, of `armReceive` and of the poll. -/
theorem serialOperationFrame : Obligations.SerialOperationFrame := by
  intro v text s t
  refine ⟨?_, fun h => ⟨exec_callFrame h, execArmReceive_armFrame h⟩,
    fun h => ⟨exec_callFrame h, execPollReceivedByte_frame h⟩⟩
  rintro (h | h)
  · exact ⟨exec_callFrame h, execTransmitByte_transmitFrame h⟩
  · exact ⟨exec_callFrame h, execWriteLine_transmitFrame h⟩

end Sys2Proof.Machine

/-! The statements on the registers and the mailbox (20_memory): the shifts of the serial engine, the calls that answer in
one step, and the refusals and faults of the radio operations. -/

namespace Sys2Proof.Machine

open Sys2Proof

/-! ### The checks before a call -/

/-- A host operation called from the main context with an operand outside its type is refused. -/
theorem exec_host_badOperand {i : Instr} {s : State} (hi : i.isHostOp = true) (hc : s.main.context = .main)
    (hw : i.WellFormed s.params = false) : exec i s = .refused .badOperand := by
  simp [exec_host i s hi, hostCall_eq, hc, hw]

/-- A well-typed host operation called from the main context ends in the fault of its first failed check. -/
theorem exec_host_fault {i : Instr} {s : State} {f : Fault} (hi : i.isHostOp = true) (hc : s.main.context = .main)
    (hw : i.WellFormed s.params = true) (hf : firstFault (entryChecks s i) = some f) : exec i s = .fault f := by
  simp [exec_host i s hi, hostCall_eq, hc, hw, hf]

theorem firstFault_initializeLinesChecks (s : State) :
    firstFault (initializeLinesChecks s) = if s.radio.configured = true then some .radioReinit else none := rfl

theorem firstFault_hasDataChecks (s : State) :
    firstFault (hasDataChecks s) = if s.radio.lineDirSet = false then some .radioNotInitialized else none := by
  simp [hasDataChecks, firstFault]

/-- The outcome of the checks of the two packet operations, in the order of their lines. -/
theorem firstFault_packetChecks (m : RadioMode) (s : State) :
    firstFault (packetChecks m s) =
      if s.radio.lineDirSet = false then some .radioNotInitialized
      else if s.radio.configured = false then some .radioNotConfigured
      else if s.radio.radioMode ≠ m then some .radioWrongMode
      else none := by
  simp [packetChecks, firstFault]

/-- The outcome of the checks of `setMode`, in the order of its lines. -/
theorem firstFault_setModeChecks (s : State) :
    firstFault (setModeChecks s) =
      if s.radio.lineDirSet = false then some .radioNotInitialized
      else if s.radio.configured = false then some .radioNotConfigured
      else none := by
  simp [setModeChecks, firstFault]

/-- The outcome of the checks of `configure`, in the order of its lines. -/
theorem firstFault_configureChecks (s : State) :
    firstFault (configureChecks s) =
      if s.radio.lineDirSet = false then some .radioNotInitialized
      else if s.radio.configured = true then some .radioReconfigure
      else none := by
  simp [configureChecks, firstFault]

theorem execTimerArm_zero (s : State) : exec (.timerArm 0) s = .refused .badOperand := by
  rw [exec_primitive _ s rfl (by simp) (by simp)]
  rfl

/-- Settles O44: the operand types come before the checks, and the checks fault in the order of the lines. -/
theorem radioMisuseFaults : Obligations.RadioMisuseFaults := by
  intro word buffer m s hc
  refine ⟨fun hw => exec_host_badOperand rfl hc (decide_eq_false hw), exec_host_badOperand rfl hc rfl,
    fun hw => exec_host_badOperand rfl hc (decide_eq_false hw), execTimerArm_zero s,
    fun hg => exec_host_fault rfl hc rfl ?_,
    fun hl => ⟨exec_host_fault rfl hc rfl ?_, exec_host_fault rfl hc rfl ?_⟩,
    fun hl => ⟨fun hg => exec_host_fault rfl hc rfl ?_, fun hg hm => exec_host_fault rfl hc rfl ?_⟩,
    fun hw => ⟨fun hl => exec_host_fault rfl hc (decide_eq_true hw) ?_,
      fun hl hg => exec_host_fault rfl hc (decide_eq_true hw) ?_⟩,
    fun hw => ⟨fun hl => exec_host_fault rfl hc (decide_eq_true hw) ?_,
      fun hl hg => exec_host_fault rfl hc (decide_eq_true hw) ?_⟩,
    fun hw => ⟨fun hl => exec_host_fault rfl hc (decide_eq_true hw) ?_,
      fun hl hg => exec_host_fault rfl hc (decide_eq_true hw) ?_,
      fun hl hg hm => exec_host_fault rfl hc (decide_eq_true hw) ?_⟩⟩
  all_goals
    simp [entryChecks, callChecks, firstFault_initializeLinesChecks, firstFault_hasDataChecks,
      firstFault_packetChecks, firstFault_configureChecks, firstFault_setModeChecks, *]

/-! ### The shifts of the serial engine -/

theorem shiftOut_iterate (j : Nat) (v : Byte) : Nat.iterate shiftOut j v = v >>> j := by
  induction j generalizing v with
  | zero => simp
  | succ j ih => rw [Function.iterate_succ_apply, ih, shiftOut, ← BitVec.shiftRight_add, Nat.add_comm]

/-- The receive shift puts the sample on top and moves every other bit one place down. -/
theorem getLsbD_shiftInTop (b : Bit) (r : Byte) (j : Nat) :
    (shiftInTop b r).getLsbD j = if j = 7 then b else r.getLsbD (j + 1) := by
  rw [shiftInTop, BitVec.getLsbD_cons]
  split
  · rfl
  · next h =>
    rw [BitVec.getLsbD_extractLsb', Nat.add_comm 1 j]
    by_cases hj : j < 7
    · simp [hj]
    · simp [hj, BitVec.getLsbD_of_ge r (j + 1) (by omega)]

/-- After any number of receive shifts, the bits of the start value and then the samples stand in a row, and the byte is
the last eight of them. -/
theorem getLsbD_foldl_shiftInTop (samples : List Bit) (r : Byte) {j : Nat} (hj : j < 8) :
    (samples.foldl (fun x b => shiftInTop b x) r).getLsbD j =
      if j + samples.length < 8 then r.getLsbD (j + samples.length)
      else samples.getD (j + samples.length - 8) false := by
  induction samples generalizing r with
  | nil => simp [hj]
  | cons b bs ih =>
    rw [List.foldl_cons, ih, getLsbD_shiftInTop, List.length_cons]
    rcases lt_trichotomy (j + bs.length) 7 with h | h | h
    · rw [if_pos (by omega), if_neg (by omega), if_pos (by omega), Nat.add_assoc]
    · simp [h, ← Nat.add_assoc]
    · rw [if_neg (by omega), if_neg (by omega),
        show j + (bs.length + 1) - 8 = (j + bs.length - 8) + 1 by omega, List.getD_cons_succ]

/-- Settles O25: `j` transmit shifts are one shift by `j`, and eight receive shifts leave no bit of the start value. -/
theorem serialShiftsMoveBitsInOrder : Obligations.SerialShiftsMoveBitsInOrder := by
  refine ⟨fun v j _ => ?_, fun v => ?_, fun r samples hlen j hj => ?_⟩
  · simp [shiftOut_iterate]
  · exact (shiftOut_iterate 8 v).trans (BitVec.ushiftRight_eq_zero (le_refl 8))
  · rw [getLsbD_foldl_shiftInTop samples r hj, hlen, if_neg (by omega), Nat.add_sub_cancel]

/-! ### Calls that answer in one step -/

/-- A call that only returns a value does so whatever the schedule. -/
theorem runMicros_ret_eq (k : List Micro) (r : Ret) (s : State) :
    runMicros k [.ret r] s = .next { yield (returnValue r s) with main.cont := k } := by
  obtain ⟨t, ht⟩ := runMicros_next k (ms := [.ret r]) s (by simp [isCheck])
  rw [ht, runMicros_ret ht]

theorem yield_setCont {s : State} {k : List Micro} (h : s.main.cont = k) :
    { yield s with main.cont := k } = yield s := by
  rw [← h, ← yield_main_cont s]

/-- A host operation whose one micro-step is its return answers at once, the operation in progress around it as before. -/
theorem exec_host_returns {i : Instr} {s u : State} {r : Ret} (hi : i.isHostOp = true) (hc : s.main.context = .main)
    (hw : i.WellFormed s.params = true) (hf : firstFault (entryChecks s i) = none) (hbody : callBody i s = ([.ret r], u))
    (hmain : u.main = s.main) : exec i s = .next (yield (returnValue r u)) := by
  have hcont : (returnValue r u).main.cont = s.main.cont := by simp [hmain]
  rw [exec_host i s hi, hostCall_runs _ hc hw hf, hbody, runMicros_ret_eq, yield_setCont hcont]

theorem execPollReceivedByte_eq {s : State} (hc : s.main.context = .main) :
    exec .pollReceivedByte s = .next (yield (returnValue (.maybeByte (pollMailbox s).1) (pollMailbox s).2)) :=
  exec_host_returns rfl hc rfl rfl rfl (pollMailbox_main s)

theorem execHasData_eq {s : State} (hc : s.main.context = .main) (hl : s.radio.lineDirSet = true) :
    exec .hasData s = .next (yield (returnValue (.bool (answerDr s).1) (sampleDr s).2)) := by
  have hf : firstFault (entryChecks s .hasData) = none := by
    simp [entryChecks, callChecks, firstFault_hasDataChecks, hl]
  have hactive : decide ((sampleDr s).1 = Config.drActive) = (answerDr s).1 := Bool.decide_eq_true
  exact exec_host_returns rfl hc rfl hf (by rw [callBody, hactive]) (sampleDr_main s)

/-- Settles O21: a poll takes the mailbox where the flag is set, and else leaves it. -/
theorem pollTakesMailbox : Obligations.PollTakesMailbox := by
  intro s hc
  rw [execPollReceivedByte_eq hc]
  constructor <;> intro h <;> simp [pollMailbox, h, returnValue]

/-- Settles O36: the answer is the sample, and only its trace entry and the result are new. -/
theorem hasDataReadsDataReady : Obligations.HasDataReadsDataReady := fun s hc hl =>
  ⟨_, execHasData_eq hc hl, by simp, by simp [sampleDr_trace], by simp, by simp, by simp, by simp⟩

end Sys2Proof.Machine

/-! The statements on the operations of 30_encoding: the call a step runs, and the radio operations that are over in the
step that calls them. -/

namespace Sys2Proof.Machine

open Sys2Proof

/-! ### A call of the script -/

/-- Between two operations the main context issues the host's next call. -/
theorem step_issues {s : State} (hs : s.main.stall = 0) (hc : s.main.cont = []) : step s = issueCall s := by
  simp only [step, hs, mainMove, hc]

/-- Settles O4: bytes that decode are not the empty script, and after the script the host's kind decides. -/
theorem stepRunsDecodedCall : Obligations.StepRunsDecodedCall := by
  refine ⟨fun s i rest hs hc hdec => ?_, fun s hs hc hscript => ⟨fun he => ?_, fun he => ?_⟩⟩
  · rw [step_issues hs hc, issueCall]
    split
    · next hnil => rw [hnil] at hdec; cases hdec
    · simp only [fetch, hdec]
  · rw [step_issues hs hc, issueCall, hscript]
    exact if_pos he
  · simp [step_issues hs hc, issueCall, hscript, he]

/-! ### Single lines in the reference time base -/

/-- A host operation that the main context calls between two operations, and whose checks pass, runs its lines. -/
theorem exec_host_runs (i : Instr) {s : State} (hi : i.isHostOp = true) (hc : s.main.context = .main)
    (hcont : s.main.cont = []) (hw : i.WellFormed s.params = true) (hf : firstFault (entryChecks s i) = none) :
    exec i s = runMicros [] (callBody i s).1 (callBody i s).2 := by
  rw [exec_host i s hi, hostCall_runs _ hc hw hf, hcont]

section
variable {k ms : List Micro} {s : State} (hs : s.main.stall = 0) (hp : s.env.pace = [])
include hs hp

theorem runMicros_set (l : OutLine) (v : Bit) :
    runMicros k (.set l v :: ms) s = runMicros k ms (setLine l v s) := by
  rw [runMicros_cons rfl (by simp [yield_of_pace_nil, hs, hp]), yield_of_pace_nil (by simpa)]

theorem runMicros_setConfigured :
    runMicros k (.setConfigured :: ms) s = runMicros k ms { s with radio.configured := true } := by
  rw [runMicros_cons rfl (by simp [yield_of_pace_nil, hs, hp]), yield_of_pace_nil (by simpa)]

/-- The wait of `receivePacket` whose first sample finds `DR` inactive. -/
theorem runMicros_drInactive (h : (answerDr s).1 = false) :
    runMicros k (.waitDrInactive :: ms) s = runMicros k ms (sampleDr s).2 := by
  have hm : microStep .waitDrInactive s = .done (yield (sampleDr s).2) := by
    simp [microStep, sampleDr, h, Config.drActive]
  rw [runMicros_cons hm (by simp [yield_of_pace_nil, hs, hp]), yield_of_pace_nil (by simpa)]

end

/-- The last line of a call without a result. -/
theorem runMicros_done {s : State} (hp : s.env.pace = []) :
    runMicros [] [.ret .done] s = .next { returnValue .done s with main.cont := [] } := by
  rw [runMicros_ret_eq, yield_of_pace_nil (by simpa)]

/-! ### Radio operations in one step -/

/-- Settles O29: the eight samples are taken in turn and shifted into the byte from below. -/
theorem clockInByteAssemblesMsbFirst : Obligations.ClockInByteAssemblesMsbFirst := by
  rintro s ⟨-, hcont, hs, hp⟩ hd
  obtain ⟨b, hrun⟩ := runMicros_inByte (k := []) (ms := [.retByte]) hs hp hd
  have hpace : (afterAnswers 8 s).env.pace = [] := by simp [afterAnswers_env, hp]
  have hexec : exec .clockInByte s = runMicros [] (clockInByte ++ [.retByte]) s := by
    rw [exec_primitive .clockInByte s rfl (by simp) (by simp), if_pos rfl, hcont, callBody]
  rw [hexec, hrun, runMicros_cons rfl (by simp [yield, afterIn, hpace, hs]),
    yield_of_pace_nil (by simp [afterIn, hpace])]
  refine ⟨_, assembleByte (dataAnswers 8 s), rfl, assembleByte_bits (dataAnswers_length 8 s), ?_⟩
  simp [afterIn, hs]

/-- The address and the payload as one stream. -/
theorem runMicros_packet {k ms : List Micro} {s : State} (hs : s.main.stall = 0) (hp : s.env.pace = [])
    (hlen : s.radio.packetBuffer.length = s.params.payloadWidth) :
    runMicros k (clockOutByte s.params.nodeAddr0 ++ clockOutByte s.params.nodeAddr1
      ++ (List.range s.params.payloadWidth).flatMap clockOutBuffer ++ ms) s
      = runMicros k ms (afterOut (packetCells s.params s.radio.packetBuffer) s) := by
  have hlines : clockOutByte s.params.nodeAddr0 ++ clockOutByte s.params.nodeAddr1
      = [s.params.nodeAddr0, s.params.nodeAddr1].flatMap clockOutByte := by simp
  rw [hlines, List.append_assoc, runMicros_bytes _ hs hp, runMicros_bufferBytes _ (by exact hs) (by exact hp),
    map_bufferRead_range (by exact hlen), ← afterOut_append]
  rfl

theorem packetCells_ne_nil (p : Params) (payload : List Byte) : packetCells p payload ≠ [] := by
  simp [packetCells, byteCells, msbBits]

/-- Settles O35: the copy of the operand, then the address and the payload as one stream. -/
theorem transmitPacketSendsAddressAndPayload : Obligations.TransmitPacketSendsAddressAndPayload := by
  rintro buffer s ⟨hctx, hcont, hs, hp⟩ hl hg hm hlen hbuf
  have hf : firstFault (packetChecks .transmit s) = none := by simp [firstFault_packetChecks, hl, hg, hm]
  have hlines : (callBody (.transmitPacket buffer) s).1 = bufferWrites 0 buffer ++ .set .ce true ::
      (clockOutByte s.params.nodeAddr0 ++ clockOutByte s.params.nodeAddr1
        ++ (List.range s.params.payloadWidth).flatMap clockOutBuffer ++ [.set .ce false, .ret .done]) := by
    simp [callBody, transmitPacketLines]
  rw [exec_host_runs (.transmitPacket buffer) rfl hctx hcont (decide_eq_true hlen) hf, hlines]
  simp only [callBody]
  rw [runMicros_bufferWrites buffer 0 hs hp (by simp [hlen, hbuf]), runMicros_set (by exact hs) (by exact hp)]
  have hpkt := runMicros_packet (k := []) (ms := [.set .ce false, .ret .done])
    (s := setLine .ce true { s with radio.packetBuffer := s.radio.packetBuffer.take 0 ++ buffer })
      (by simpa) (by simpa) (by simpa)
  simp only [setLine_params] at hpkt
  rw [hpkt, runMicros_set (by simpa [afterOut]) (by simpa [afterOut]), runMicros_done (by simpa [afterOut])]
  have hlast (d : Bit) : (packetCells s.params buffer).getLastD d = (packetCells s.params buffer).getLastD false := by
    simp [List.getLastD_eq_getLast?, List.getLast?_eq_some_getLast (packetCells_ne_nil _ _)]
  congr 1
  apply state_eq <;>
    simp [afterOut, packetCells_ne_nil, returnValue, hcont, stampAll, hlast, -List.getLastD_eq_getLast?]

/-- `receivePacket` comes to its wait in one step, with the payload in `PacketBuffer` and `CE` = 0. -/
theorem execReceivePacket_atWait {s : State} (hr : Ready s) (hl : s.radio.lineDirSet = true)
    (hg : s.radio.configured = true) (hm : s.radio.radioMode = .receive) (hd : s.radio.dataDir = .input)
    (hclk : s.radio.clk = false) (hbuf : s.radio.packetBuffer.length = s.params.payloadWidth) :
    ∃ u : State, exec .receivePacket s = runMicros [] [.waitDrInactive, .set .ce true, .retBuffer] u
      ∧ u.params = s.params ∧ u.now = s.now ∧ u.serial = s.serial ∧ u.main.stall = 0
      ∧ u.main.returns = s.main.returns ∧ u.env.pace = [] ∧ (answerDr u).1 = (answerDr s).1
      ∧ u.radio = { s.radio with
          ce := false
          packetBuffer := assemblePayload s.params.payloadWidth (dataAnswers (8 * s.params.payloadWidth) s) }
      ∧ u.trace = s.trace ++ stampAll s.now
          (.set .ce false :: inEntries (dataAnswers (8 * s.params.payloadWidth) s)) := by
  obtain ⟨hctx, hcont, hs, hp⟩ := hr
  have hf : firstFault (packetChecks .receive s) = none := by simp [firstFault_packetChecks, hl, hg, hm]
  have hexec : exec .receivePacket s = runMicros [] (.set .ce false ::
      ((List.range' 0 s.params.payloadWidth).flatMap (fun i => clockInByte ++ [.bufferTake i])
        ++ [.waitDrInactive, .set .ce true, .retBuffer])) s := by
    rw [exec_host_runs .receivePacket rfl hctx hcont rfl hf]
    simp [callBody, receivePacketLines, List.range_eq_range']
  obtain ⟨b, x, hrun⟩ := runMicros_payload (k := []) (ms := [.waitDrInactive, .set .ce true, .retBuffer])
    s.params.payloadWidth 0 (s := setLine .ce false s) (by simpa) (by simpa) (by simpa) (by simp [hbuf])
  obtain ⟨hdata, henv⟩ := answers_of_env (8 * s.params.payloadWidth) (setLine_env .ce false s)
  rw [hdata, henv] at hrun
  have hread : ∀ u : State, u.env = (afterAnswers (8 * s.params.payloadWidth) s).env →
      (answerDr u).1 = (answerDr s).1 := fun u hu =>
    answerDr_of_env (by simp [hu, afterAnswers_env]) (by simp [hu, afterAnswers_env])
  exact ⟨_, hexec.trans ((runMicros_set hs hp .ce false).trans hrun), by simp, by simp, by simp, by simpa, by simp,
    by simp [afterAnswers_env, hp], hread _ rfl, by simp [hclk], by simp [stampAll]⟩

/-- Settles O37: the call comes to its wait with the payload taken, and the first test ends it. -/
theorem receivePacketReturnsPayload : Obligations.ReceivePacketReturnsPayload := by
  intro s hr hl hg hm hd hclk hbuf hdr
  obtain ⟨u, hexec, hparams, hnow, hserial, hs, hreturns, hp, hanswer, hradio, htrace⟩ :=
    execReceivePacket_atWait hr hl hg hm hd hclk hbuf
  rw [hdr] at hanswer
  rw [hexec, runMicros_drInactive hs hp hanswer, runMicros_set (by simpa) (by simpa),
    runMicros_cons rfl (by simpa [yield_of_pace_nil, hp]), yield_of_pace_nil (by simpa)]
  refine ⟨_, rfl, ?_⟩
  simp [hparams, hnow, hserial, hs, hreturns, hanswer, hradio, htrace, sampleDr_trace, stampAll, assemblePayload_length,
    List.take_of_length_le]

end Sys2Proof.Machine

/-! The statements on the operations of 30_encoding: runs of steps and of ticks, what they append to the radio driver's
part of the line trace, and `configure` with its delay. -/

namespace Sys2Proof.Machine

open Sys2Proof

/-! ### Runs of steps and of ticks -/

/-- Steps that answer a next state are followed by the rest. -/
theorem steps_add {m : Nat} {s t : State} (n : Nat) (h : steps m s = .next t) : steps (m + n) s = steps n t := by
  induction m generalizing s with
  | zero => cases h; rw [Nat.zero_add]
  | succ m ih =>
    rw [Nat.add_right_comm, steps]
    rw [steps] at h
    split at h
    · exact ih h
    · cases h
    · cases h

theorem step_stalled {s : State} {n : Nat} (h : s.main.stall = n + 1) :
    step s = .next (tick { s with main.stall := n }) := by
  rw [step, h]
  rfl

theorem step_continues {s : State} {m : Micro} {ms : List Micro} (hs : s.main.stall = 0) (hc : s.main.cont = m :: ms) :
    step s = runMicros [] (m :: ms) s := by
  simp only [step, hs, mainMove, hc]

theorem ticks_add (m n : Nat) (s : State) : ticks (m + n) s = ticks n (ticks m s) := by
  induction m generalizing s with
  | zero => rw [Nat.zero_add, ticks]
  | succ m ih => rw [Nat.add_right_comm, ticks, ticks, ih]

theorem ticks_succ (n : Nat) (s : State) : ticks (n + 1) s = tick (ticks n s) := ticks_add n 1 s

/-- What any number of ticks leaves alone. -/
theorem ticks_frame (n : Nat) (s : State) :
    (ticks n s).radio = s.radio ∧ (ticks n s).main = s.main ∧ (ticks n s).params = s.params
      ∧ (ticks n s).now = s.now + n ∧ (ticks n s).env.pace = s.env.pace
      ∧ (ticks n s).env.timerFires = s.env.timerFires := by
  induction n with
  | zero => exact ⟨rfl, rfl, rfl, rfl, rfl, rfl⟩
  | succ n ih =>
    obtain ⟨hradio, hmain, hparams, hnow, hpace, hfires⟩ := ih
    obtain ⟨gradio, gmain, gparams, gnow, -⟩ := tick_frame (ticks n s)
    rw [ticks_succ, tick_pace, tick_timerFires, gradio, gmain, gparams, gnow, hnow]
    exact ⟨hradio, hmain, hparams, rfl, hpace, hfires⟩

/-! ### The radio driver's part of the line trace -/

/-- From `s` to `t` the line trace grew, and the radio driver's part of it by `es`. -/
def AppendsRadio (es : List Entry) (s t : State) : Prop :=
  ∃ new, t.trace = s.trace ++ new ∧ (new.map Stamped.entry).filter isRadioEntry = es

theorem AppendsRadio.trans {es es' : List Entry} {a b c : State} (h : AppendsRadio es a b) (h' : AppendsRadio es' b c) :
    AppendsRadio (es ++ es') a c := by
  obtain ⟨new, ht, rfl⟩ := h
  obtain ⟨new', ht', rfl⟩ := h'
  exact ⟨new ++ new', by rw [ht', ht, List.append_assoc], by simp⟩

theorem AppendsRadio.radioEntries_eq {es : List Entry} {s t : State} (h : AppendsRadio es s t) :
    radioEntries s t = es := by
  obtain ⟨new, ht, rfl⟩ := h
  simp [radioEntries, newEntries, ht]

theorem appendsRadio_of_trace {es : List Entry} {s t : State} (ht : t.trace = s.trace ++ stampAll s.now es)
    (hes : ∀ e ∈ es, isRadioEntry e = true) : AppendsRadio es s t :=
  ⟨_, ht, by simpa [stampAll, Function.comp_def] using hes⟩

/-- The transmit arm's entry, if any, is the level of `TXD` after it. -/
theorem transmitArm_trace (s : State) :
    (transmitArm s).trace = s.trace ++
      if s.serial.bitIndex ≤ 9 then [⟨s.now, .set .txd (transmitArm s).serial.txd⟩] else [] := by
  unfold transmitArm
  split
  · next h => simp [h]
  · split
    · next h => simp [Nat.le_succ_of_le h]
    · split
      · next h => simp [h]
      · next h => simp [show ¬s.serial.bitIndex ≤ 9 by omega]

/-- The receive arm's entry, if any, is the sample. -/
theorem receiveArm_trace (s : State) :
    (receiveArm s).trace = s.trace ++
      if s.serial.rxSync = false ∧ s.serial.bitIndex ≤ 7 then [⟨s.now, .sample .rxd s.env.rxd⟩] else [] := by
  unfold receiveArm
  split
  · next h => simp [h]
  · next h =>
    split
    · next hi => simp [h, hi, sampleRxd]
    · next hi => simp [hi]

/-- The timer handler appends no entry of the radio driver. -/
theorem timerHandler_appendsRadio (s : State) : AppendsRadio [] s (timerHandler s) := by
  unfold timerHandler
  split
  · refine ⟨_, transmitArm_trace s, ?_⟩
    split <;> rfl
  · refine ⟨_, receiveArm_trace s, ?_⟩
    split <;> rfl

/-- The serial engine's events append no entry of the radio driver. -/
theorem tick_appendsRadio (s : State) : AppendsRadio [] s (tick s) := by
  obtain ⟨-, -, -, -, hedge⟩ := deliverEdge_frame (compareEvent (advanceClock s))
  rw [AppendsRadio, tick, hedge, compareEvent, deliverTimer]
  split
  · split
    · exact timerHandler_appendsRadio (enterInterrupt (timerReload (advanceClock s)))
    · exact ⟨[], by simp, rfl⟩
  · exact ⟨[], by simp, rfl⟩

/-- A main context that has ticks to let pass lets them pass one a step. -/
theorem steps_stall {n : Nat} {s : State} (h : s.main.stall = n) :
    ∃ u, steps n s = .next u ∧ u.now = s.now + n ∧ u.main = { s.main with stall := 0 } ∧ u.radio = s.radio
      ∧ u.params = s.params ∧ u.env.pace = s.env.pace ∧ AppendsRadio [] s u := by
  induction n generalizing s with
  | zero => exact ⟨s, rfl, rfl, by rw [← h], rfl, rfl, rfl, [], by simp, rfl⟩
  | succ n ih =>
    obtain ⟨hradio, hmain, hparams, hnow, -⟩ := tick_frame { s with main.stall := n }
    obtain ⟨u, hu, hunow, humain, huradio, huparams, hupace, hutrace⟩ := ih (s := tick { s with main.stall := n })
      (by rw [hmain])
    refine ⟨u, by rw [steps, step_stalled h]; exact hu, ?_, ?_, ?_, ?_, ?_, ?_⟩
    · rw [hunow, hnow]; simp only; omega
    · rw [humain, hmain]
    · rw [huradio, hradio]
    · rw [huparams, hparams]
    · rw [hupace, tick_pace]
    · exact (tick_appendsRadio { s with main.stall := n }).trans hutrace

/-- A `Delay` and what follows it: the state in which the rest of the operation runs, with any run of the rest that ends
in a next state. -/
theorem runMicros_delay (p : DelayParam) {ms : List Micro} {s : State} (hms : ms ≠ []) (hs : s.main.stall = 0)
    (hp : s.env.pace = []) :
    ∃ w : State, w.now = s.now + delayTicks p s ∧ w.main.stall = 0 ∧ w.main.returns = s.main.returns
      ∧ w.radio = s.radio ∧ w.params = s.params ∧ w.env.pace = [] ∧ AppendsRadio [.delay p] s w
      ∧ ∀ u, runMicros [] ms w = .next u →
          ∃ t, runMicros [] (.delay p :: ms) s = .next t ∧ steps (delaySteps (delayTicks p s)) t = .next u := by
  have hstep : microStep (.delay p) s = .done (delay p s) := by
    rw [microStep, yield_of_pace_nil (by simpa)]
  have htrace : AppendsRadio [.delay p] s (delay p s) :=
    appendsRadio_of_trace (delay_trace p s) (by simp [isRadioEntry])
  by_cases hd : delayTicks p s = 0
  · refine ⟨delay p s, by simp [hd], by simp [hs, hd], by simp, by simp, by simp, by simpa, htrace, fun u hu => ?_⟩
    exact ⟨u, by rw [runMicros_cons hstep (by simp [hs, hd])]; exact hu, by rw [hd]; rfl⟩
  · obtain ⟨w, hw, hwnow, hwmain, hwradio, hwparams, hwpace, hwtrace⟩ :=
      steps_stall (n := delayTicks p s) (s := { delay p s with main.cont := ms }) (by simp [hs])
    refine ⟨w, by rw [hwnow]; simp, by rw [hwmain], by rw [hwmain]; simp, by rw [hwradio]; simp, by rw [hwparams]; simp,
      by rw [hwpace]; simpa, htrace.trans hwtrace, fun u hu => ?_⟩
    refine ⟨{ delay p s with main.cont := ms }, ?_, ?_⟩
    · simp [runMicros, hstep, hs, Nat.pos_of_ne_zero hd]
    · obtain ⟨m, ms, rfl⟩ := List.exists_cons_of_ne_nil hms
      rw [delaySteps, if_neg hd, steps_add 1 hw, steps, step_continues (by rw [hwmain]) (by rw [hwmain]), hu]
      rfl

theorem outEntries_isRadio (cells : List Bit) : ∀ e ∈ outEntries cells, isRadioEntry e = true := by
  simp only [outEntries, List.mem_flatMap]
  rintro e ⟨b, -, he⟩
  simp only [List.mem_cons, List.not_mem_nil, or_false] at he
  rcases he with rfl | rfl | rfl <;> rfl

/-- The lines of `configure` after its delay, in one step. -/
theorem runMicros_configureTail (word : List Byte) {s : State} (hs : s.main.stall = 0) (hp : s.env.pace = []) :
    ∃ u, runMicros [] (word.flatMap clockOutByte ++ [.set .cs false, .setConfigured, .ret .done]) s = .next u
      ∧ u.now = s.now ∧ u.main.cont = [] ∧ u.main.stall = 0 ∧ u.main.returns = s.main.returns ++ [.done]
      ∧ u.radio = { s.radio with
          cs := false
          clk := if byteCells word = [] then s.radio.clk else false
          dataOut := (byteCells word).getLastD s.radio.dataOut
          configured := true }
      ∧ AppendsRadio (outEntries (byteCells word) ++ [.set .cs false]) s u := by
  rw [runMicros_bytes word hs hp, runMicros_set (by exact hs) (by exact hp),
    runMicros_setConfigured (by simpa) (by simpa), runMicros_done (by simpa)]
  refine ⟨_, rfl, rfl, rfl, hs, rfl, rfl, appendsRadio_of_trace (by simp [afterOut, stampAll]) ?_⟩
  simpa [or_imp, forall_and, isRadioEntry] using outEntries_isRadio (byteCells word)

theorem byteCells_length (bytes : List Byte) : (byteCells bytes).length = 8 * bytes.length := by
  induction bytes with
  | nil => rfl
  | cons b bs ih => rw [byteCells_cons, List.length_append, ih, List.length_cons, msbBits]; simp; omega

/-- The last cell of a stream is bit 0 of its last byte. -/
theorem byteCells_getLastD {bytes : List Byte} {n : Nat} (h : bytes.length = n + 1) (d : Bit) :
    (byteCells bytes).getLastD d = (bytes.getD n 0).getLsbD 0 := by
  obtain ⟨init, x, rfl⟩ : ∃ init x, bytes = init ++ [x] :=
    ⟨_, _, (List.dropLast_append_getLast (List.ne_nil_of_length_eq_add_one h)).symm⟩
  have hn : init.length = n := by simpa using h
  simp [byteCells, msbBits, hn]

/-- Settles O32: the lines before the delay, the ticks of the delay with what falls in them, and the lines after it. -/
theorem configureSendsWord : Obligations.ConfigureSendsWord := by
  rintro word s ⟨hctx, hcont, hs, hp⟩ hl hg hlen
  have hf : firstFault (configureChecks s) = none := by simp [firstFault_configureChecks, hl, hg]
  obtain ⟨w, hwnow, hwstall, hwreturns, hwradio, -, hwpace, hwtrace, hrest⟩ :=
    runMicros_delay .cfgSetup (ms := word.flatMap clockOutByte ++ [.set .cs false, .setConfigured, .ret .done])
      (s := setLine .cs true (setLine .ce false s)) (by simp) (by simpa) (by simpa)
  obtain ⟨u, hu, hunow, hucont, hustall, hureturns, huradio, hutrace⟩ := runMicros_configureTail word hwstall hwpace
  obtain ⟨t, ht, hsteps⟩ := hrest u hu
  have hexec : exec (.configure word) s = .next t := by
    rw [exec_host_runs (.configure word) rfl hctx hcont (decide_eq_true hlen) hf]
    have hlines : (callBody (.configure word) s).1 = .set .ce false :: .set .cs true :: .delay .cfgSetup ::
        (word.flatMap clockOutByte ++ [.set .cs false, .setConfigured, .ret .done]) := by
      simp [callBody, configureLines]
    rw [hlines]
    exact (runMicros_set hs hp .ce false).trans ((runMicros_set (by simpa) (by simpa) .cs true).trans ht)
  have hstart : AppendsRadio [.set .ce false, .set .cs true] s (setLine .cs true (setLine .ce false s)) :=
    appendsRadio_of_trace (by simp [stampAll]) (by simp [isRadioEntry])
  have hticks : delayTicks .cfgSetup (setLine .cs true (setLine .ce false s)) = s.params.cfgSetup := by
    simp [delayTicks]
  have hcells : byteCells word ≠ [] := List.ne_nil_of_length_pos (by simp [byteCells_length, hlen])
  rw [hticks] at hwnow hsteps
  refine ⟨t, u, hexec, hsteps, ?_, hucont, hustall, ?_, ?_, ?_⟩
  · simp [hunow, hwnow]
  · simp [hureturns, hwreturns]
  · rw [huradio, hwradio, byteCells_getLastD hlen, if_neg hcells]
    simp
  · simpa using ((hstart.trans hwtrace).trans hutrace).radioEntries_eq

/-- A call of `configure` that answers found its checks passed. -/
theorem configure_of_next {word : List Byte} {s t : State} (h : exec (.configure word) s = .next t) :
    word.length = 14 ∧ s.radio.lineDirSet = true ∧ s.radio.configured = false := by
  obtain ⟨hlen, hchecks, -⟩ := exec_next (by simp) (by simp) h
  have hf : firstFault (configureChecks s) = none := (hchecks rfl).2
  rw [firstFault_configureChecks] at hf
  cases hl : s.radio.lineDirSet <;> cases hg : s.radio.configured <;> simp [hl, hg] at hf
  exact ⟨of_decide_eq_true hlen, rfl, rfl⟩

/-- One clock pulse a cell. -/
theorem countP_outEntries (cells : List Bit) :
    (outEntries cells).countP (fun e => decide (e = .set .clk true)) = cells.length := by
  induction cells with
  | nil => rfl
  | cons b bs ih =>
    rw [outEntries, List.flatMap_cons, List.countP_append, ← outEntries, ih, List.length_cons]
    simp [Nat.add_comm]

/-- What `configure` has done at its return, from whatever state it was called in. -/
theorem configure_returned {word : List Byte} {s t u : State} (hr : Ready s) (h : exec (.configure word) s = .next t)
    (hu : steps (delaySteps s.params.cfgSetup) t = .next u) :
    u.main.cont = [] ∧ u.main.returns = s.main.returns ++ [.done]
      ∧ radioEntries s u = [.set .ce false, .set .cs true, .delay .cfgSetup] ++ outEntries (byteCells word)
          ++ [.set .cs false] := by
  obtain ⟨hlen, hl, hg⟩ := configure_of_next h
  obtain ⟨t', u', ht', hu', -, hcont, -, hreturns, -, hentries⟩ := configureSendsWord word s hr hl hg hlen
  cases h.symm.trans ht'
  cases hu.symm.trans hu'
  exact ⟨hcont, hreturns, hentries⟩

/-- Settles O33: the stream is a function of the word alone, with one pulse for each of its 112 cells. -/
theorem configureEmits112Pulses : Obligations.ConfigureEmits112Pulses := by
  intro word s s' t t' u u' hr hr' ht hu ht' hu'
  obtain ⟨hcont, hreturns, hentries⟩ := configure_returned hr ht hu
  obtain ⟨-, -, hentries'⟩ := configure_returned hr' ht' hu'
  refine ⟨hcont, hreturns, ?_, hentries.trans hentries'.symm⟩
  rw [hentries, List.countP_append, List.countP_append, countP_outEntries, byteCells_length, (configure_of_next ht).1]
  rfl

end Sys2Proof.Machine

/-! The statements on the operations of 30_encoding: the ticks of a running timer, and a serial frame on `TXD` cell by
cell. -/

namespace Sys2Proof.Machine

open Sys2Proof

/-! ### The ticks of a running timer -/

/-- The timer runs and fires, and no edge is awaited. -/
structure TimerRuns (s : State) : Prop where
  fires : s.env.timerFires = true
  timer : s.serial.timerEnable = true
  edge : s.serial.edgeEnable = false

theorem tick_rxd (s : State) : (tick s).env.rxd = nextRxd s := by
  obtain ⟨-, -, -, -, henv, -⟩ := compareEvent_frame (advanceClock s)
  rw [tick, deliverEdge_env, henv]
  rfl

/-- With no edge awaited, a tick is the compare event alone. -/
theorem tick_of_edge_disabled {s : State} (h : s.serial.edgeEnable = false) :
    (tick s).serial = (compareEvent (advanceClock s)).serial
      ∧ (tick s).trace = (compareEvent (advanceClock s)).trace := by
  have hedge : (compareEvent (advanceClock s)).serial.edgeEnable = false := by
    rw [compareEvent_serial]
    split
    · obtain ⟨-, hkeeps, -⟩ :=
        timerSerial_frame (advanceClock s).params.bitPeriod (advanceClock s).env.rxd (advanceClock s).serial
      rw [hkeeps, advanceClock_serial, h]
    · exact h
  have hnone : edgeEventDue (compareEvent (advanceClock s)) = false := by simp [edgeEventDue, hedge]
  simp [tick, deliverEdge, hnone]

/-- A tick at which the timer is not due. -/
theorem TimerRuns.tick_quiet {s : State} (h : TimerRuns s) (hd : s.now + 1 ≠ s.serial.timerDue) :
    (tick s).serial = s.serial ∧ (tick s).trace = s.trace := by
  have hnone : timerEventDue (advanceClock s) = false := by simp [timerEventDue, hd]
  obtain ⟨hserial, htrace⟩ := tick_of_edge_disabled h.edge
  simp [hserial, htrace, compareEvent, h.fires, deliverTimer, hnone]

/-- The tick at which the timer is due: in transmit mode the entry, if any, is the level of `TXD` after it. -/
theorem TimerRuns.tick_due {s : State} (h : TimerRuns s) (hd : s.now + 1 = s.serial.timerDue) :
    (tick s).serial = timerSerial s.params.bitPeriod (tick s).env.rxd s.serial
      ∧ (s.serial.mode = .tx → (tick s).trace = s.trace ++
          if s.serial.bitIndex ≤ 9 then [⟨s.now + 1, .set .txd (tick s).serial.txd⟩] else []) := by
  have hdue : timerEventDue (advanceClock s) = true := by simp [timerEventDue, hd, h.timer]
  obtain ⟨hserial, htrace⟩ := tick_of_edge_disabled h.edge
  refine ⟨by simp [hserial, compareEvent_serial, hdue, h.fires, tick_rxd], fun hm => ?_⟩
  rw [hserial, htrace, compareEvent, advanceClock_env_timerFires, if_pos h.fires, deliverTimer, if_pos hdue]
  have harm := transmitArm_trace (enterInterrupt (timerReload (advanceClock s)))
  have hmode : (enterInterrupt (timerReload (advanceClock s))).serial.mode = .tx := hm
  simp only [takeEvent, timerHandler, hmode]
  exact harm

theorem TimerRuns.after_ticks {s : State} (h : TimerRuns s) {n : Nat} (ht : (ticks n s).serial.timerEnable = true)
    (he : (ticks n s).serial.edgeEnable = false) : TimerRuns (ticks n s) := by
  obtain ⟨-, -, -, -, -, hfires⟩ := ticks_frame n s
  exact ⟨hfires.trans h.fires, ht, he⟩

/-- The ticks before the timer is due. -/
theorem TimerRuns.ticks_quiet {s : State} (h : TimerRuns s) {n : Nat} (hn : s.now + n < s.serial.timerDue) :
    (ticks n s).serial = s.serial ∧ (ticks n s).trace = s.trace := by
  induction n with
  | zero => exact ⟨rfl, rfl⟩
  | succ n ih =>
    obtain ⟨hserial, htrace⟩ := ih (by omega)
    obtain ⟨-, -, -, hnow, -⟩ := ticks_frame n s
    have hruns := h.after_ticks (n := n) (by rw [hserial, h.timer]) (by rw [hserial, h.edge])
    obtain ⟨gserial, gtrace⟩ := hruns.tick_quiet (by rw [hserial, hnow]; omega)
    rw [ticks_succ]
    exact ⟨gserial.trans hserial, gtrace.trans htrace⟩

/-- The ticks up to the one at which the timer is due, the event there included. -/
theorem TimerRuns.ticks_due {s : State} (h : TimerRuns s) {d : Nat} (hd : s.serial.timerDue = s.now + d)
    (hpos : 0 < d) :
    (ticks d s).serial = timerSerial s.params.bitPeriod (ticks d s).env.rxd s.serial
      ∧ (s.serial.mode = .tx → (ticks d s).trace = s.trace ++
          if s.serial.bitIndex ≤ 9 then [⟨s.now + d, .set .txd (ticks d s).serial.txd⟩] else []) := by
  obtain ⟨n, rfl⟩ := Nat.exists_eq_succ_of_ne_zero hpos.ne'
  obtain ⟨hserial, htrace⟩ := h.ticks_quiet (n := n) (by omega)
  obtain ⟨-, -, hparams, hnow, -⟩ := ticks_frame n s
  have hruns := h.after_ticks (n := n) (by rw [hserial, h.timer]) (by rw [hserial, h.edge])
  have hdue := hruns.tick_due (by rw [hserial, hnow]; omega)
  rw [hserial, htrace, hparams, hnow] at hdue
  rw [Nat.succ_eq_add_one, ticks_succ]
  exact hdue

/-! ### The frame on `TXD` -/

/-- The engine after the first `k` events of a transmission of `v` whose first event is due at `first` (41 R133, R139):
the level of the last cell driven, and what is left of the byte. -/
def cellsSent (period first : Nat) (v : Byte) (e : Serial) (k : Nat) : Serial :=
  { e with
    txShift := v >>> (k - 1)
    bitIndex := k
    timerDue := first + k * period
    txd := (e.txd :: frameCells v).getD k true }

/-- The cells of a frame: the start cell, the bits of the byte, the stop cell (30 R81). -/
theorem frameCells_getD (v : Byte) {j : Nat} (hj : j < 8) : (frameCells v).getD (j + 1) true = v.getLsbD j := by
  have : j = 0 ∨ j = 1 ∨ j = 2 ∨ j = 3 ∨ j = 4 ∨ j = 5 ∨ j = 6 ∨ j = 7 := by omega
  rcases this with rfl | rfl | rfl | rfl | rfl | rfl | rfl | rfl <;> rfl

theorem timerSerial_cellsSent {period first k : Nat} {v : Byte} {e : Serial} (level : Bit) (hm : e.mode = .tx)
    (hk : k ≤ 9) :
    timerSerial period level (cellsSent period first v e k) = cellsSent period first v e (k + 1) := by
  have hdue : first + k * period + period = first + (k + 1) * period := by rw [Nat.succ_mul, Nat.add_assoc]
  rcases Nat.eq_zero_or_pos k with rfl | hpos
  · simp [timerSerial, cellsSent, hm, frameCells]
  · obtain ⟨j, rfl⟩ := Nat.exists_eq_succ_of_ne_zero hpos.ne'
    rcases Nat.lt_or_ge j 8 with hj | hj
    · have hcell : (frameCells v)[j + 1]?.getD true = v.getLsbD j := by simpa using frameCells_getD v hj
      simp [timerSerial, cellsSent, hm, hdue, hcell, hj, shiftOut, ← BitVec.shiftRight_add]
    · obtain rfl : j = 8 := by omega
      have hshift : v >>> 8 = v >>> 9 :=
        (BitVec.ushiftRight_eq_zero (by omega)).trans (BitVec.ushiftRight_eq_zero (by omega)).symm
      simp [timerSerial, cellsSent, hm, hdue, hshift, frameCells, msbBits]

theorem timerSerial_frameOver {period first : Nat} {v : Byte} {e : Serial} (level : Bit) (hm : e.mode = .tx) :
    timerSerial period level (cellsSent period first v e 10) =
      { e with
        txShift := 0, bitIndex := 10, timerDue := first + 11 * period, txd := true, timerEnable := false,
        txBusy := false } := by
  have hshift : v >>> 9 = 0 := BitVec.ushiftRight_eq_zero (by omega)
  simp [timerSerial, cellsSent, hm, hshift, frameCells, msbBits, Nat.add_assoc, ← Nat.succ_mul]

/-- One more cell of the trace of a frame. -/
theorem frameTrace_take_succ (p : Params) (first : Nat) (v : Byte) (e : Serial) {k : Nat} (hk : k ≤ 9) :
    (frameTrace p first v).take (k + 1) = (frameTrace p first v).take k
      ++ [⟨first + k * p.bitPeriod, .set .txd (cellsSent p.bitPeriod first v e (k + 1)).txd⟩] := by
  have hlt : k < (frameCells v).length := by simp [frameCells, msbBits]; omega
  rw [List.take_add_one]
  simp [frameTrace, cellsSent, hlt]

theorem frameTrace_length (p : Params) (first : Nat) (v : Byte) : (frameTrace p first v).length = 10 := by
  simp [frameTrace, frameCells, msbBits]

/-- The tick of a due event that drives a cell. -/
theorem ticks_nextCell {u : State} (hu : TimerRuns u) {first d k period : Nat} {v : Byte} {e : Serial}
    (hperiod : u.params.bitPeriod = period) (hm : e.mode = .tx) (hk : k ≤ 9)
    (hserial : u.serial = cellsSent period first v e k) (hd : first + k * period = u.now + d) (hpos : 0 < d) :
    (ticks d u).serial = cellsSent period first v e (k + 1)
      ∧ (ticks d u).trace = u.trace ++
          [⟨first + k * period, .set .txd (cellsSent period first v e (k + 1)).txd⟩] := by
  obtain ⟨gserial, gtrace⟩ := hu.ticks_due (by rw [hserial, ← hd]; rfl) hpos
  rw [hserial, hperiod, timerSerial_cellsSent _ hm hk] at gserial
  have hindex : u.serial.bitIndex ≤ 9 := by rw [hserial]; exact hk
  refine ⟨gserial, ?_⟩
  rw [gtrace (by rw [hserial]; exact hm), if_pos hindex, gserial, hd]

/-- A transmission of `v` is armed: its first event is due `lead` ticks from now (41 R131 lines 3 to 7). -/
structure TransmitArmed (v : Byte) (lead : Nat) (s : State) : Prop extends TimerRuns s where
  mode : s.serial.mode = .tx
  index : s.serial.bitIndex = 0
  shift : s.serial.txShift = v
  due : s.serial.timerDue = s.now + lead
  busy : s.serial.txBusy = true

section
variable {v : Byte} {lead : Nat} {s : State} (h : TransmitArmed v lead s)
include h

theorem TransmitArmed.start : s.serial = cellsSent s.params.bitPeriod (s.now + lead) v s.serial 0 :=
  calc s.serial
    _ = { s.serial with
          txShift := s.serial.txShift, bitIndex := s.serial.bitIndex, timerDue := s.serial.timerDue,
          txd := s.serial.txd } := rfl
    _ = cellsSent s.params.bitPeriod (s.now + lead) v s.serial 0 := by
      rw [h.shift, h.index, h.due]; simp [cellsSent]

/-- While its cells are sent, the timer of a transmission runs. -/
theorem TransmitArmed.runs {n k : Nat}
    (hn : (ticks n s).serial = cellsSent s.params.bitPeriod (s.now + lead) v s.serial k) :
    TimerRuns (ticks n s) :=
  h.toTimerRuns.after_ticks (by rw [hn]; exact h.timer) (by rw [hn]; exact h.edge)

/-- The event that drives cell `k` falls `lead + k * T` ticks after the arming. -/
theorem TransmitArmed.ticks_cell (hlead : 0 < lead) (hT : 0 < s.params.bitPeriod) {k : Nat} (hk : k ≤ 9) :
    (ticks (lead + k * s.params.bitPeriod) s).serial
        = cellsSent s.params.bitPeriod (s.now + lead) v s.serial (k + 1)
      ∧ (ticks (lead + k * s.params.bitPeriod) s).trace
        = s.trace ++ (frameTrace s.params (s.now + lead) v).take (k + 1) := by
  induction k with
  | zero =>
    obtain ⟨hserial, htrace⟩ := ticks_nextCell h.toTimerRuns rfl h.mode hk h.start (by omega) hlead
    rw [zero_mul, add_zero, frameTrace_take_succ _ _ _ s.serial hk]
    exact ⟨hserial, htrace⟩
  | succ k ih =>
    obtain ⟨hserial, htrace⟩ := ih (by omega)
    obtain ⟨-, -, hparams, hnow, -⟩ := ticks_frame (lead + k * s.params.bitPeriod) s
    have hnext := ticks_nextCell (h.runs hserial) (by rw [hparams]) h.mode hk hserial (d := s.params.bitPeriod)
      (by rw [hnow, Nat.succ_mul]; omega) hT
    rw [htrace, List.append_assoc, ← frameTrace_take_succ _ _ _ s.serial hk, ← ticks_add] at hnext
    rwa [Nat.succ_mul, ← Nat.add_assoc]

/-- The state of the engine at every tick before the completion: as many cells sent as events were due. -/
theorem TransmitArmed.ticks_serial (hlead : 0 < lead) (hT : 0 < s.params.bitPeriod) {n : Nat}
    (hn : n < lead + 10 * s.params.bitPeriod) :
    (ticks n s).serial = cellsSent s.params.bitPeriod (s.now + lead) v s.serial
      ((n + s.params.bitPeriod - lead) / s.params.bitPeriod) := by
  rcases Nat.lt_or_ge n lead with hlt | hge
  · obtain ⟨hserial, -⟩ := h.ticks_quiet (n := n) (by rw [h.due]; omega)
    rw [hserial, Nat.div_eq_of_lt (by omega)]
    exact h.start
  · obtain ⟨m, rfl⟩ := Nat.exists_eq_add_of_le hge
    have hk : m / s.params.bitPeriod ≤ 9 := by
      have := (Nat.div_lt_iff_lt_mul hT).mpr (show m < 10 * s.params.bitPeriod by omega)
      omega
    obtain ⟨hserial, -⟩ := h.ticks_cell hlead hT hk
    obtain ⟨-, -, hparams, hnow, -⟩ := ticks_frame (lead + m / s.params.bitPeriod * s.params.bitPeriod) s
    have hdiv := Nat.div_add_mod' m s.params.bitPeriod
    have hmod := Nat.mod_lt m hT
    obtain ⟨hquiet, -⟩ := (h.runs hserial).ticks_quiet (n := m % s.params.bitPeriod) (by
      rw [hserial, hnow]
      simp only [cellsSent, Nat.succ_mul]
      omega)
    rw [← ticks_add, Nat.add_assoc, hdiv, hserial] at hquiet
    rw [hquiet, show lead + m + s.params.bitPeriod - lead = m + s.params.bitPeriod by omega, Nat.add_div_right _ hT]

/-- The completion, `lead + 10 * T` ticks after the arming (41 R133; decision D5). -/
theorem TransmitArmed.ticks_frameOver (hlead : 0 < lead) (hT : 0 < s.params.bitPeriod) :
    (ticks (lead + 10 * s.params.bitPeriod) s).serial =
        { s.serial with
          txShift := 0, bitIndex := 10, timerDue := s.now + lead + 11 * s.params.bitPeriod, txd := true,
          timerEnable := false, txBusy := false }
      ∧ (ticks (lead + 10 * s.params.bitPeriod) s).trace = s.trace ++ frameTrace s.params (s.now + lead) v := by
  obtain ⟨hserial, htrace⟩ := h.ticks_cell hlead hT (k := 9) (by omega)
  obtain ⟨-, -, hparams, hnow, -⟩ := ticks_frame (lead + 9 * s.params.bitPeriod) s
  obtain ⟨gserial, gtrace⟩ := (h.runs hserial).ticks_due (d := s.params.bitPeriod)
    (by rw [hserial, hnow]; simp only [cellsSent]; omega) hT
  rw [hparams, hserial, timerSerial_frameOver _ h.mode] at gserial
  have gtrace := gtrace (by rw [hserial]; exact h.mode)
  rw [hserial, if_neg (by simp [cellsSent]), htrace, List.append_nil,
    List.take_of_length_le (by rw [frameTrace_length])] at gtrace
  rw [show lead + 10 * s.params.bitPeriod = lead + 9 * s.params.bitPeriod + s.params.bitPeriod by omega, ticks_add]
  exact ⟨gserial, gtrace⟩

end

end Sys2Proof.Machine

/-! The statements on the operations of 30_encoding: the wait of `transmitByte`, and the frames of a text. -/

namespace Sys2Proof.Machine

open Sys2Proof

/-! ### `transmitByte` and `writeLine` -/

theorem steps_one (s : State) : steps 1 s = step s := by
  unfold steps
  split <;> simp [steps, *]

/-- A turn of the wait of `transmitByte`: a tick, then the test again. -/
theorem steps_waitTurn {k : List Micro} {s : State} (hs : s.main.stall = 0) (hc : s.main.cont = .waitTxDone :: k) :
    steps 2 { s with main.stall := 1 } = runMicros [] (.waitTxDone :: k) (tick s) := by
  have hsame : { s with main.stall := 0 } = s := by rw [← hs]
  have htick : steps 1 { s with main.stall := 1 } = .next (tick s) := by
    rw [steps_one, step_stalled rfl]
    simp only [hsame]
  rw [steps_add 1 htick, steps_one, step_continues (by rw [tick_main, hs]) (by rw [tick_main, hc])]

theorem runMicros_txWait_held {k : List Micro} {s : State} (hp : s.env.pace = []) (hc : s.main.cont = .waitTxDone :: k)
    (hb : s.serial.txBusy = true) : runMicros [] (.waitTxDone :: k) s = .next { s with main.stall := 1 } := by
  simp only [runMicros, microStep, hb, if_true, waitTurn, hp, List.append_nil, ← hc]

theorem runMicros_txWait_over {k : List Micro} {s : State} (hs : s.main.stall = 0) (hp : s.env.pace = [])
    (hb : s.serial.txBusy = false) : runMicros [] (.waitTxDone :: k) s = runMicros [] k s := by
  have hstep : microStep .waitTxDone s = .done s := by simp [microStep, hb, yield_of_pace_nil hp]
  exact runMicros_cons hstep hs

/-- Turns of the wait at whose tests the transmission is still on. -/
theorem steps_txWait {n : Nat} {k : List Micro} {s : State} (hs : s.main.stall = 0) (hp : s.env.pace = [])
    (hc : s.main.cont = .waitTxDone :: k) (hbusy : ∀ i < n, (ticks (i + 1) s).serial.txBusy = true) :
    steps (2 * n) { s with main.stall := 1 } = .next { ticks n s with main.stall := 1 } := by
  induction n with
  | zero => rfl
  | succ n ih =>
    obtain ⟨-, hmain, -⟩ := ticks_frame n s
    obtain ⟨-, hmain', -, -, hpace', -⟩ := ticks_frame (n + 1) s
    rw [Nat.mul_succ, steps_add 2 (ih fun i hi => hbusy i (by omega)),
      steps_waitTurn (by rw [hmain, hs]) (by rw [hmain, hc]), ← ticks_succ,
      runMicros_txWait_held (by rw [hpace', hp]) (by rw [hmain', hc]) (hbusy n (by omega))]

/-- The wait of `transmitByte` is over with the completion, and the rest of the operation goes on at that tick. -/
theorem TransmitArmed.steps_wait {v : Byte} {lead : Nat} {s : State} {k : List Micro} (h : TransmitArmed v lead s)
    (hlead : 0 < lead) (hT : 0 < s.params.bitPeriod) (hs : s.main.stall = 0) (hp : s.env.pace = [])
    (hc : s.main.cont = .waitTxDone :: k) :
    steps (2 * (lead + 10 * s.params.bitPeriod)) { s with main.stall := 1 }
      = runMicros [] k (ticks (lead + 10 * s.params.bitPeriod) s) := by
  obtain ⟨n, hn⟩ : ∃ n, lead + 10 * s.params.bitPeriod = n + 1 := Nat.exists_eq_succ_of_ne_zero (by omega)
  have hbusy : ∀ i < n, (ticks (i + 1) s).serial.txBusy = true := fun i hi => by
    rw [h.ticks_serial hlead hT (by omega)]
    exact h.busy
  obtain ⟨hover, -⟩ := h.ticks_frameOver hlead hT
  obtain ⟨-, hmain, -⟩ := ticks_frame n s
  obtain ⟨-, hmain', -, -, hpace', -⟩ := ticks_frame (n + 1) s
  rw [hn] at hover ⊢
  rw [Nat.mul_succ, steps_add 2 (steps_txWait hs hp hc hbusy), steps_waitTurn (by rw [hmain, hs]) (by rw [hmain, hc]),
    ← ticks_succ, runMicros_txWait_over (by rw [hmain', hs]) (by rw [hpace', hp]) (by rw [hover])]

/-- The state in which `transmitByte` comes to its wait, with `k` to follow (41 R131 lines 3 to 7). -/
def afterArming (v : Byte) (k : List Micro) (s : State) : State :=
  { s with
    serial.txShift := v, serial.bitIndex := 0, serial.mode := .tx, serial.txBusy := true,
    serial.timerDue := s.now + s.params.txLead, serial.timerEnable := true, main.cont := .waitTxDone :: k }

/-- The engine is idle and its timer environment fires: a transmission can be armed, and will end. -/
structure CanTransmit (s : State) : Prop where
  fires : s.env.timerFires = true
  busy : s.serial.txBusy = false
  timer : s.serial.timerEnable = false
  edge : s.serial.edgeEnable = false

/-- An idle engine is armed by the lines of `transmitByte`. -/
theorem CanTransmit.arms {s : State} (h : CanTransmit s) (v : Byte) (k : List Micro) :
    TransmitArmed v s.params.txLead (afterArming v k s) where
  fires := h.fires
  timer := rfl
  edge := h.edge
  mode := rfl
  index := rfl
  shift := rfl
  due := rfl
  busy := rfl

/-- From an idle engine the lines of `transmitByte` run to the wait. -/
theorem CanTransmit.runs_toWait {s : State} (h : CanTransmit s) (hs : s.main.stall = 0) (hp : s.env.pace = [])
    (v : Byte) (k : List Micro) :
    runMicros [] (transmitByteLines v ++ k) s = .next { afterArming v k s with main.stall := 1 } := by
  have hf : firstFault (transmitByteChecks s) = none := by
    simp [firstFault_none_iff, transmitByteChecks, h.busy, h.timer, h.edge]
  rw [runMicros_transmit v [] k hs hp, hf]
  simp [afterArming]

/-- The ticks from the arming of a frame to its completion (R291). -/
def frameTicks (p : Params) : Nat := p.txLead + 10 * p.bitPeriod

/-- One frame of `transmitByte` or `writeLine`, from its first line to the end of its wait: what follows, `k`, runs in a
state in which the frame is on the trace and the engine idle again. -/
theorem CanTransmit.sends {s : State} (h : CanTransmit s) (hlegal : s.params.Legal) (hs : s.main.stall = 0)
    (hp : s.env.pace = []) (v : Byte) (k : List Micro) :
    ∃ t u : State, runMicros [] (transmitByteLines v ++ k) s = .next t
      ∧ steps (2 * frameTicks s.params) t = runMicros [] k u
      ∧ u.now = s.now + frameTicks s.params ∧ u.main = { s.main with cont := .waitTxDone :: k }
      ∧ u.radio = s.radio ∧ u.params = s.params ∧ u.env.pace = [] ∧ CanTransmit u
      ∧ u.serial = { s.serial with
          txShift := 0, bitIndex := 10, txBusy := false, mode := .tx, timerEnable := false,
          timerDue := s.now + s.params.txLead + 11 * s.params.bitPeriod, txd := true }
      ∧ u.trace = s.trace ++ frameTrace s.params (s.now + s.params.txLead) v := by
  obtain ⟨hT, -, -, hlead, -⟩ := hlegal
  have harmed := h.arms v k
  have hT : 0 < s.params.bitPeriod := Nat.zero_lt_of_lt hT
  obtain ⟨hserial, htrace⟩ := harmed.ticks_frameOver hlead hT
  obtain ⟨hradio, hmain, hparams, hnow, hpace, hfires⟩ := ticks_frame (frameTicks s.params) (afterArming v k s)
  have hcan : CanTransmit (ticks (frameTicks s.params) (afterArming v k s)) :=
    ⟨hfires.trans h.fires, congrArg Serial.txBusy hserial, congrArg Serial.timerEnable hserial,
      (congrArg Serial.edgeEnable hserial).trans h.edge⟩
  exact ⟨_, _, h.runs_toWait hs hp v k, harmed.steps_wait hlead hT hs hp rfl, hnow, hmain, hradio, hparams,
    hpace.trans hp, hcan, hserial, htrace⟩

/-- Settles O17: one frame, then the return. -/
theorem transmitByteSendsFrameAndReturns : Obligations.TransmitByteSendsFrameAndReturns := by
  rintro v s hlegal ⟨hctx, hcont, hs, hp⟩ hfires hbusy htimer hedge
  have hcan : CanTransmit s := ⟨hfires, hbusy, htimer, hedge⟩
  obtain ⟨t, u, ht, hu, hnow, hmain, hradio, -, hpace, -, hserial, htrace⟩ := hcan.sends hlegal hs hp v [.ret .done]
  rw [runMicros_done hpace] at hu
  refine ⟨t, _, ?_, hu, ?_, ?_, hserial, hradio, htrace⟩
  · rw [exec_host_runs (.transmitByte v) rfl hctx hcont rfl rfl]
    exact ht
  · rw [Nat.add_assoc]; exact hnow
  · simp [hmain, hcont]

/-- The trace of a text whose first byte has number `i` of a text sent from `start` on (41 R138; 30 R98). -/
def textTrace (p : Params) (start i : Nat) (text : List Byte) : List Stamped :=
  (text.zipIdx i).flatMap fun c => frameTrace p (start + p.txLead + c.2 * frameTicks p) c.1

/-- The rest of a text, from its byte number `i` on, and the return. -/
theorem CanTransmit.sendsText {text : List Byte} {s : State} {start i : Nat} (h : CanTransmit s)
    (hlegal : s.params.Legal) (hs : s.main.stall = 0) (hp : s.env.pace = [])
    (hnow : s.now = start + i * frameTicks s.params) :
    ∃ t u : State, runMicros [] (text.flatMap transmitByteLines ++ [.ret .done]) s = .next t
      ∧ steps (2 * (text.length * frameTicks s.params)) t = .next u
      ∧ u.now = s.now + text.length * frameTicks s.params
      ∧ u.main = { s.main with cont := [], returns := s.main.returns ++ [.done] }
      ∧ u.radio = s.radio ∧ u.serial.rxReg = s.serial.rxReg ∧ u.serial.receivedFlag = s.serial.receivedFlag
      ∧ CanTransmit u ∧ u.trace = s.trace ++ textTrace s.params start i text := by
  induction text generalizing s i with
  | nil =>
    have hnone : 2 * (([] : List Byte).length * frameTicks s.params) = 0 := by simp
    rw [hnone]
    exact ⟨_, _, runMicros_done hp, rfl, by simp, rfl, rfl, rfl, rfl, ⟨h.fires, h.busy, h.timer, h.edge⟩,
      by simp [textTrace]⟩
  | cons v vs ih =>
    obtain ⟨t, w, ht, hw, hwnow, hwmain, hwradio, hwparams, hwpace, hwcan, hwserial, hwtrace⟩ :=
      h.sends hlegal hs hp v (vs.flatMap transmitByteLines ++ [.ret .done])
    have hstart : w.now = start + (i + 1) * frameTicks w.params := by
      rw [hwnow, hnow, hwparams, Nat.succ_mul, Nat.add_assoc]
    obtain ⟨t', u, ht', hu, hunow, humain, huradio, hureg, huflag, hucan, hutrace⟩ :=
      ih hwcan (by rwa [hwparams]) (by rw [hwmain, hs]) hwpace hstart
    have hcount : 2 * ((v :: vs).length * frameTicks s.params)
        = 2 * frameTicks s.params + 2 * (vs.length * frameTicks s.params) := by
      rw [List.length_cons]; ring
    refine ⟨t, u, ?_, ?_, ?_, ?_, ?_, ?_, ?_, hucan, ?_⟩
    · rw [List.flatMap_cons, List.append_assoc]; exact ht
    · rw [hcount, steps_add _ (hw.trans ht'), ← hwparams]; exact hu
    · rw [hunow, hwnow, hwparams, List.length_cons, Nat.succ_mul]; omega
    · rw [humain, hwmain]
    · rw [huradio, hwradio]
    · rw [hureg, hwserial]
    · rw [huflag, hwserial]
    · rw [hutrace, hwtrace, hwparams, hnow]
      simp [textTrace, Nat.add_right_comm]

/-- Settles O18: by induction on the text. -/
theorem writeLineSendsFramesInOrder : Obligations.WriteLineSendsFramesInOrder := by
  rintro text s hlegal ⟨hctx, hcont, hs, hp⟩ hfires hbusy htimer hedge
  have hcan : CanTransmit s := ⟨hfires, hbusy, htimer, hedge⟩
  obtain ⟨t, u, ht, hu, hnow, hmain, hradio, hreg, hflag, hucan, htrace⟩ :=
    hcan.sendsText (text := text) (start := s.now) (i := 0) hlegal hs hp (by simp)
  refine ⟨t, u, ?_, hu, hnow, ?_, hradio, hreg, hflag, hucan.busy, hucan.timer, hucan.edge, htrace⟩
  · rw [exec_host_runs (.writeLine text) rfl hctx hcont rfl rfl]
    exact ht
  · rw [hmain, ← hcont]

end Sys2Proof.Machine

/-! The statements on the operations of 30_encoding: a reception sample by sample, and a byte from one engine to
another. -/

namespace Sys2Proof.Machine

open Sys2Proof

/-! ### The levels of `RXD` -/

theorem tick_rxdIn (s : State) : (tick s).env.rxdIn = s.env.rxdIn.tail := by
  obtain ⟨-, -, -, -, henv, -⟩ := compareEvent_frame (advanceClock s)
  rw [tick, deliverEdge_env, henv]
  rfl

theorem ticks_rxdIn (n : Nat) (s : State) : (ticks n s).env.rxdIn = s.env.rxdIn.drop n := by
  induction n with
  | zero => rfl
  | succ n ih => rw [ticks_succ, tick_rxdIn, ih, List.tail_drop]

/-- The level of `RXD` at a tick is the listed one. -/
theorem ticks_rxd {n : Nat} {s : State} (h : n < s.env.rxdIn.length) :
    (ticks (n + 1) s).env.rxd = s.env.rxdIn[n] := by
  rw [ticks_succ, tick_rxd, nextRxd, ticks_rxdIn, List.drop_eq_getElem_cons h]

theorem txdWave_length (m : Nat) (s : State) : (txdWave m s).length = m := by
  induction m generalizing s with
  | zero => rfl
  | succ m ih => rw [txdWave, List.length_cons, ih]

theorem txdWave_getElem {m n : Nat} {s : State} (h : n < (txdWave m s).length) :
    (txdWave m s)[n] = (ticks (n + 1) s).serial.txd := by
  induction m generalizing n s with
  | zero => simp [txdWave] at h
  | succ m ih =>
    cases n with
    | zero => rfl
    | succ n => exact ih (s := tick s) (by simpa [txdWave] using h)

/-! ### The reception of a byte -/

/-- A tick while the timer is off: only the falling edge awaited does anything to the engine (41 R136; 60 R232). -/
theorem tick_serial_of_timer_disabled {s : State} (h : s.serial.timerEnable = false) :
    (tick s).serial =
      if s.serial.edgeEnable = true ∧ s.env.rxd = true ∧ (tick s).env.rxd = false then
        { s.serial with
          edgeEnable := false, rxSync := true, timerDue := (tick s).now + s.params.halfBit, timerEnable := true }
      else s.serial := by
  obtain ⟨-, -, hparams, hnow, henv, -⟩ := compareEvent_frame (advanceClock s)
  have hserial : (compareEvent (advanceClock s)).serial = s.serial := by
    simp [compareEvent_serial, timerEventDue, h]
  obtain ⟨-, -, -, gnow, -⟩ := tick_frame s
  rw [tick_rxd, gnow, tick, deliverEdge_serial, hserial, hparams, hnow, edgeEventDue, hserial, henv]
  simp

/-- An armed receiver waits while `RXD` stays 1. -/
theorem ticks_armed_idle {n : Nat} {s : State} (h : s.serial.timerEnable = false)
    (hrxd : ∀ i ≤ n, (ticks i s).env.rxd = true) : (ticks n s).serial = s.serial := by
  induction n with
  | zero => rfl
  | succ n ih =>
    have hn := ih fun i hi => hrxd i (by omega)
    rw [ticks_succ, tick_serial_of_timer_disabled (by rw [hn, h]), ← ticks_succ, hrxd (n + 1) le_rfl, hn]
    simp

/-- A reception has begun: its start centre is due `half` ticks from now (41 R136). -/
structure ReceiveStarted (half : Nat) (s : State) : Prop extends TimerRuns s where
  mode : s.serial.mode = .rx
  sync : s.serial.rxSync = true
  index : s.serial.bitIndex = 0
  due : s.serial.timerDue = s.now + half

/-- The engine after the start centre, at tick `centre`, and these samples (41 R134). -/
def samplesTaken (period centre : Nat) (e : Serial) (samples : List Bit) : Serial :=
  { e with
    rxSync := false
    rxReg := samples.foldl (fun r b => shiftInTop b r) e.rxReg
    bitIndex := samples.length
    timerDue := centre + (samples.length + 1) * period }

theorem timerSerial_sample {period centre : Nat} {e : Serial} {samples : List Bit} (level : Bit) (hm : e.mode = .rx)
    (hlen : samples.length ≤ 7) :
    timerSerial period level (samplesTaken period centre e samples)
      = samplesTaken period centre e (samples ++ [level]) := by
  simp [timerSerial, samplesTaken, hm, hlen, Nat.succ_mul, Nat.add_assoc]

theorem timerSerial_receptionOver {period centre : Nat} {e : Serial} {samples : List Bit} (level : Bit)
    (hm : e.mode = .rx) (hlen : samples.length = 8) :
    timerSerial period level (samplesTaken period centre e samples) =
      { e with
        rxSync := false, rxReg := samples.foldl (fun r b => shiftInTop b r) e.rxReg, bitIndex := 8,
        timerDue := centre + 10 * period, timerEnable := false, receivedFlag := true } := by
  simp [timerSerial, samplesTaken, hm, hlen, Nat.add_assoc, ← Nat.succ_mul]

/-- The levels at the first `j` sampling ticks after the start of a reception (41 R140). -/
def samplesAt (period half : Nat) (s : State) (j : Nat) : List Bit :=
  (List.range j).map fun i => (ticks (half + (i + 1) * period) s).env.rxd

section
variable {half : Nat} {s : State} (h : ReceiveStarted half s)
include h

theorem ReceiveStarted.startCentre (level : Bit) :
    timerSerial s.params.bitPeriod level s.serial = samplesTaken s.params.bitPeriod (s.now + half) s.serial [] := by
  simp [timerSerial, samplesTaken, h.mode, h.sync, h.index, h.due]

theorem ReceiveStarted.runs {n : Nat} {samples : List Bit}
    (hn : (ticks n s).serial = samplesTaken s.params.bitPeriod (s.now + half) s.serial samples) :
    TimerRuns (ticks n s) :=
  h.toTimerRuns.after_ticks (by rw [hn]; exact h.timer) (by rw [hn]; exact h.edge)

/-- Each sample is taken one period after the one before, the first one period after the start centre. -/
theorem ReceiveStarted.ticks_sample (hhalf : 0 < half) (hT : 0 < s.params.bitPeriod) {j : Nat} (hj : j ≤ 8) :
    (ticks (half + j * s.params.bitPeriod) s).serial
      = samplesTaken s.params.bitPeriod (s.now + half) s.serial (samplesAt s.params.bitPeriod half s j) := by
  induction j with
  | zero =>
    obtain ⟨hserial, -⟩ := h.ticks_due h.due hhalf
    rw [Nat.zero_mul, Nat.add_zero, hserial, h.startCentre]
    rfl
  | succ j ih =>
    have hserial := ih (by omega)
    obtain ⟨-, -, hparams, hnow, -⟩ := ticks_frame (half + j * s.params.bitPeriod) s
    have hlen : (samplesAt s.params.bitPeriod half s j).length = j := by simp [samplesAt]
    obtain ⟨hnext, -⟩ := (h.runs hserial).ticks_due (d := s.params.bitPeriod)
      (by rw [hserial, hnow]; simp only [samplesTaken, hlen, Nat.succ_mul]; omega) hT
    rw [hparams, hserial, timerSerial_sample _ h.mode (by omega), ← ticks_add, Nat.add_assoc, ← Nat.succ_mul] at hnext
    rw [hnext]
    simp [samplesAt, List.range_succ]

/-- The reception is over one period after its last sample (41 R134, R140; decision D6). -/
theorem ReceiveStarted.ticks_over (hhalf : 0 < half) (hT : 0 < s.params.bitPeriod) :
    (ticks (half + 9 * s.params.bitPeriod) s).serial =
      { s.serial with
        rxSync := false
        rxReg := (samplesAt s.params.bitPeriod half s 8).foldl (fun r b => shiftInTop b r) s.serial.rxReg
        bitIndex := 8, timerDue := s.now + half + 10 * s.params.bitPeriod, timerEnable := false,
        receivedFlag := true } := by
  have hserial := h.ticks_sample hhalf hT (j := 8) le_rfl
  obtain ⟨-, -, hparams, hnow, -⟩ := ticks_frame (half + 8 * s.params.bitPeriod) s
  have hlen : (samplesAt s.params.bitPeriod half s 8).length = 8 := by simp [samplesAt]
  obtain ⟨hover, -⟩ := (h.runs hserial).ticks_due (d := s.params.bitPeriod)
    (by rw [hserial, hnow]; simp only [samplesTaken, hlen]; omega) hT
  rw [hparams, hserial, timerSerial_receptionOver _ h.mode hlen, ← ticks_add, Nat.add_assoc, ← Nat.succ_mul] at hover
  exact hover

end

/-- The first falling edge that an armed receiver sees starts a reception. -/
theorem receiveStarted_of_edge {n : Nat} {s : State} (hinv : SerialInv s.serial) (hedge : s.serial.edgeEnable = true)
    (hfires : s.env.timerFires = true) (hhigh : ∀ i ≤ n, (ticks i s).env.rxd = true)
    (hfall : (ticks (n + 1) s).env.rxd = false) : ReceiveStarted s.params.halfBit (ticks (n + 1) s) := by
  obtain ⟨hone, -, harmed, -⟩ := hinv
  obtain ⟨hmode, hindex, -⟩ := harmed hedge
  have htimer : s.serial.timerEnable = false := by simpa [hedge] using hone
  have hidle := ticks_armed_idle htimer hhigh
  obtain ⟨-, -, hparams, -⟩ := ticks_frame n s
  obtain ⟨-, -, -, -, -, hfires'⟩ := ticks_frame (n + 1) s
  have hserial := tick_serial_of_timer_disabled (s := ticks n s) (by rw [hidle, htimer])
  rw [← ticks_succ, hidle, hparams, if_pos ⟨hedge, hhigh n le_rfl, hfall⟩] at hserial
  exact ⟨⟨hfires'.trans hfires, by rw [hserial], by rw [hserial]⟩, by rw [hserial, hmode], by rw [hserial],
    by rw [hserial, hindex], by rw [hserial]⟩

/-! ### From one engine to another -/

/-- The level of `TXD` at every tick before the completion: that of the last cell that was due. -/
theorem TransmitArmed.ticks_txd {v : Byte} {lead : Nat} {s : State} (h : TransmitArmed v lead s) (hlead : 0 < lead)
    (hT : 0 < s.params.bitPeriod) {n : Nat} (hn : n < lead + 10 * s.params.bitPeriod) :
    (ticks n s).serial.txd =
      (s.serial.txd :: frameCells v).getD ((n + s.params.bitPeriod - lead) / s.params.bitPeriod) true := by
  rw [h.ticks_serial hlead hT hn]
  rfl

/-- Up to the tick `last`, `RXD` carries the frame of `v` at the receiver's own period, its start edge at
tick `lead`. -/
def CarriesFrame (v : Byte) (lead last : Nat) (s : State) : Prop :=
  ∀ n ≤ last, (ticks n s).env.rxd =
    (true :: frameCells v).getD ((n + s.params.bitPeriod - lead) / s.params.bitPeriod) true

/-- What a transmitter with an idle line puts on its `TXD` is what a receiver listening to it finds on its `RXD`. -/
theorem carriesFrame_of_txdWave {v : Byte} {lead last : Nat} {a b : State} {rest : List Bit}
    (h : TransmitArmed v lead a) (hlead : 0 < lead) (hT : 0 < a.params.bitPeriod)
    (hlast : last < lead + 10 * a.params.bitPeriod) (htxd : a.serial.txd = true)
    (hperiod : b.params.bitPeriod = a.params.bitPeriod) (hrxd : b.env.rxd = true)
    (hwave : b.env.rxdIn = txdWave last a ++ rest) : CarriesFrame v lead last b := by
  intro n hn
  cases n with
  | zero => rw [hperiod, Nat.zero_add, Nat.div_eq_of_lt (by omega)]; exact hrxd
  | succ n =>
    have hlt : n < (txdWave last a).length := by rwa [txdWave_length]
    have hlevel : (ticks (n + 1) b).env.rxd = (ticks (n + 1) a).serial.txd := by
      rw [ticks_rxd (by rw [hwave, List.length_append]; omega), ← txdWave_getElem hlt]
      simp only [hwave, List.getElem_append_left hlt]
    rw [hlevel, h.ticks_txd hlead hT (by omega), htxd, hperiod]

/-- An armed receiver on whose `RXD` a frame comes starts at the falling edge of the start cell. -/
theorem CarriesFrame.receiveStarted {v : Byte} {lead last : Nat} {s : State} (h : CarriesFrame v lead last s)
    (hlead : 0 < lead) (hT : 0 < s.params.bitPeriod) (hlast : lead ≤ last) (hinv : SerialInv s.serial)
    (hedge : s.serial.edgeEnable = true) (hfires : s.env.timerFires = true) :
    ReceiveStarted s.params.halfBit (ticks lead s) := by
  obtain ⟨n, rfl⟩ := Nat.exists_eq_succ_of_ne_zero hlead.ne'
  refine receiveStarted_of_edge hinv hedge hfires (fun i hi => ?_) ?_
  · rw [h i (by omega), Nat.div_eq_of_lt (by omega)]
    rfl
  · rw [h _ hlast, Nat.add_sub_cancel_left, Nat.div_self hT]
    rfl

/-- The sample of bit `j` falls `half` ticks after the start of its cell. -/
theorem CarriesFrame.samplesAt_getD {v : Byte} {lead last half j : Nat} {s : State} (h : CarriesFrame v lead last s)
    (hhalf : half < s.params.bitPeriod)
    (hlast : lead + half + 8 * s.params.bitPeriod ≤ last) (hj : j < 8) :
    (samplesAt s.params.bitPeriod half (ticks lead s) 8).getD j false = v.getLsbD j := by
  have hle : (j + 1) * s.params.bitPeriod ≤ 8 * s.params.bitPeriod := Nat.mul_le_mul_right _ hj
  have hcell :
      (lead + (half + (j + 1) * s.params.bitPeriod) + s.params.bitPeriod - lead) / s.params.bitPeriod = j + 2 :=
    Nat.div_eq_of_lt_le (by rw [Nat.succ_mul]; omega) (by simp only [Nat.succ_mul]; omega)
  have hsample : (samplesAt s.params.bitPeriod half (ticks lead s) 8).getD j false
      = (ticks (lead + (half + (j + 1) * s.params.bitPeriod)) s).env.rxd := by
    simp [samplesAt, hj, ticks_add]
  rw [hsample, h _ (by omega), hcell, List.getD_cons_succ, frameCells_getD v hj]

/-- Settles O23: the receiver starts at the falling edge of the start cell and samples within the cells of the bits. -/
theorem serialRoundTrip : Obligations.SerialRoundTrip := by
  rintro v a a' b rest ⟨hT, hH, hHT, hL, -⟩ ⟨hctx, hcont, hs, hp⟩ hbusy htimer hedge htxd hexec hfires hfiresB hperiod
    hhalf hinv harmed hrxd hwave r
  have hcan : CanTransmit a := ⟨hfires, hbusy, htimer, hedge⟩
  rw [exec_host_runs (.transmitByte v) rfl hctx hcont rfl rfl] at hexec
  cases hexec.symm.trans (hcan.runs_toWait hs hp v [.ret .done])
  have hsend : TransmitArmed v a.params.txLead { afterArming v [.ret .done] a with main.stall := 1 } :=
    ⟨⟨hfires, rfl, hedge⟩, rfl, rfl, rfl, rfl, rfl⟩
  have hT : 0 < a.params.bitPeriod := by omega
  have hcarries := carriesFrame_of_txdWave hsend hL hT (by simp only [afterArming]; omega) htxd hperiod hrxd hwave
  have hstart := hcarries.receiveStarted hL (by rwa [hperiod]) (by omega) hinv harmed hfiresB
  obtain ⟨-, -, hparams, -⟩ := ticks_frame a.params.txLead b
  have hover := hstart.ticks_over (by rwa [hhalf]) (by rwa [hparams, hperiod])
  rw [hparams, ← ticks_add, hhalf, hperiod, ← Nat.add_assoc] at hover
  have hbits : ∀ j < 8, (samplesAt a.params.bitPeriod a.params.halfBit (ticks a.params.txLead b) 8).getD j false
      = v.getLsbD j := fun j hj => by
    rw [← hperiod]
    exact hcarries.samplesAt_getD (by rwa [hperiod]) (by rw [hperiod]; omega) hj
  refine ⟨by rw [hover], BitVec.eq_of_getLsbD_eq fun j hj => ?_, by rw [hover]; exact hstart.edge, by rw [hover]⟩
  rw [hover, getLsbD_foldl_shiftInTop _ _ hj, if_neg (by simp [samplesAt]), ← hbits j hj]
  simp [samplesAt]

end Sys2Proof.Machine

/-! The statements on the bit clock (40_bit_clock): arming, disarming and reloading the timer, the arms of its event, and
what the operations of the radio driver leave alone (R116). -/

namespace Sys2Proof.Machine

open Sys2Proof

/-! ### The event of a due timer -/

/-- Entry and return change nothing around the timer handler, which does not look at the context (60 R237, R239). -/
theorem takeEvent_timerHandler (s : State) : takeEvent timerHandler s = timerHandler s := by
  unfold takeEvent timerHandler
  cases hm : s.serial.mode <;> simp only [enterInterrupt_serial, hm]
  · simp only [transmitArm, apply_ite (returnFromInterrupt s.main.context)]
    rfl
  · simp only [receiveArm, apply_ite (returnFromInterrupt s.main.context)]
    rfl

theorem deliverTimer_of_due {s : State} (h : timerEventDue s = true) :
    deliverTimer s = timerHandler (timerReload s) := by
  rw [deliverTimer, if_pos h, takeEvent_timerHandler]

theorem exec_timerEvent_of_due {s : State} (ht : s.serial.timerEnable = true) (hd : s.now = s.serial.timerDue) :
    exec .timerEvent s = .next (timerHandler (timerReload s)) := by
  rw [← deliverTimer_of_due (by simp [timerEventDue, ht, hd])]
  rfl

/-- Settles O10: the arm of the handler that `BitIndex` picks, after the reload. -/
theorem timerEventDrivesFrame : Obligations.TimerEventDrivesFrame := by
  intro s ht hd hm
  have harm : exec .timerEvent s = .next (transmitArm (timerReload s)) := by
    rw [exec_timerEvent_of_due ht hd, timerHandler, timerReload_serial_mode, hm]
  rw [harm]
  refine ⟨fun hi => ?_, fun hlo hhi => ?_, fun hi => ?_, fun hi => ?_⟩
  · simp only [transmitArm, timerReload_serial_bitIndex, hi, if_true]
    rfl
  · simp only [transmitArm, timerReload_serial_bitIndex, hhi, if_true, if_neg (Nat.ne_of_gt hlo)]
    rfl
  · simp [transmitArm, hi]
  · simp [transmitArm, hi]

/-- Settles O11: the arm of the handler that `RxSync` and `BitIndex` pick, after the reload. -/
theorem timerEventSamplesFrame : Obligations.TimerEventSamplesFrame := by
  intro s ht hd hm
  have harm : exec .timerEvent s = .next (receiveArm (timerReload s)) := by
    rw [exec_timerEvent_of_due ht hd, timerHandler, timerReload_serial_mode, hm]
  rw [harm]
  refine ⟨fun hs => ?_, fun hs hi => ?_, fun hs hi => ?_⟩
  · simp only [receiveArm, timerReload_serial_rxSync, hs, if_true]
    rfl
  · refine ⟨shiftInTop s.env.rxd s.serial.rxReg, ?_, fun j hj => ?_, ?_⟩
    · rw [getLsbD_shiftInTop, if_pos rfl]
    · rw [getLsbD_shiftInTop, if_neg hj.ne]
    · simp [receiveArm, hs, hi, sampleRxd]
  · simp [receiveArm, hs, hi]

/-! ### A tick and its compare -/

/-- A tick at which the compare event does not fire, with no edge awaited. -/
theorem tick_of_no_event {s : State} (he : s.serial.edgeEnable = false)
    (h : s.now + 1 ≠ s.serial.timerDue ∨ s.env.timerFires = false) :
    (tick s).serial = s.serial ∧ (tick s).trace = s.trace := by
  have hcompare : compareEvent (advanceClock s) = advanceClock s := by
    rcases h with h | h
    · simp [compareEvent, deliverTimer_of_not_due, timerEventDue, h]
    · simp [compareEvent, h]
  rw [(tick_of_edge_disabled he).1, (tick_of_edge_disabled he).2, hcompare]
  exact ⟨rfl, rfl⟩

/-- Two times less than `m` apart are the same time where they are the same modulo `m`. -/
theorem mod_eq_iff_of_near {a b m : Nat} (hab : a ≤ b) (hb : b < a + m) : a % m = b % m ↔ a = b := by
  refine ⟨fun h => ?_, fun h => by rw [h]⟩
  have hdvd : m ∣ b - a := (Nat.modEq_iff_dvd' hab).mp h
  have hzero : b - a = 0 := Nat.eq_zero_of_dvd_of_lt hdvd (by omega)
  omega

/-- The compare of a timer wider than the reach of the parameters finds the due tick and no other (40 R115). -/
theorem wrappedCompare_iff {s : State} (ht : s.serial.timerEnable = true) (hr : TimerWithinReach s)
    (hw : s.params.widthSuffices) : wrappedCompare (advanceClock s) ↔ s.now + 1 = s.serial.timerDue := by
  obtain ⟨hahead, hreach⟩ := hr ht
  rw [wrappedCompare]
  split
  · rfl
  · next w hwidth =>
    have hlt : s.params.reach < 2 ^ w := hw w hwidth
    exact mod_eq_iff_of_near hahead (by simp only [advanceClock_serial, advanceClock_now]; omega)

/-- Settles O9: the tick is its compare event, which is the handler after the reload where the timer is due. -/
theorem timerFiresAndReloadsAtDueTick : Obligations.TimerFiresAndReloadsAtDueTick := by
  intro s ht he
  refine ⟨fun hf hd => ?_, tick_of_no_event he, wrappedCompare_iff ht⟩
  have hhandler : (tick s).serial = (timerHandler (timerReload (advanceClock s))).serial := by
    rw [(tick_of_edge_disabled he).1, compareEvent, advanceClock_env_timerFires, if_pos hf,
      deliverTimer_of_due (by simp [timerEventDue, ht, hd])]
  have hserial := (TimerRuns.tick_due ⟨hf, ht, he⟩ hd).1
  obtain ⟨hdue, -⟩ := timerSerial_frame s.params.bitPeriod (tick s).env.rxd s.serial
  obtain ⟨-, -, -, hnow, -⟩ := tick_frame s
  exact ⟨by rw [hserial, hdue], hhandler, by rw [hnow, hd]⟩

/-! ### `TimerArm` and `TimerDisarm` -/

theorem exec_timerArm_eq {d : Nat} (hd : 1 ≤ d) (s : State) :
    exec (.timerArm d) s = .next (yield (returnValue .done (timerArm d s))) := by
  have hw : Instr.WellFormed s.params (.timerArm d) = true := decide_eq_true hd
  rw [exec_primitive (.timerArm d) s rfl (by simp) (by simp), if_pos hw, callBody, runMicros_ret_eq,
    yield_setCont (by simp)]

theorem exec_timerDisarm_eq (s : State) :
    exec .timerDisarm s = .next (yield (returnValue .done (timerDisarm s))) := by
  rw [exec_primitive .timerDisarm s rfl (by simp) (by simp), if_pos rfl, callBody, runMicros_ret_eq,
    yield_setCont (by simp)]

/-- Settles O7: the call is over at once, with its write. -/
theorem timerArmSetsDueTime : Obligations.TimerArmSetsDueTime := fun d s hd =>
  ⟨_, exec_timerArm_eq hd s, by simp [timerArm], by simp, by simp, by simp⟩

/-- A tick while the timer is off does the same whatever `TimerDue` holds, and only the edge's arming overwrites it. -/
theorem tick_setTimerDue_of_timer_disabled {s : State} (h : s.serial.timerEnable = false) (d : Nat) :
    (tick { s with serial.timerDue := d }).serial =
      if edgeEventDue (advanceClock s) then (tick s).serial else { (tick s).serial with timerDue := d } := by
  obtain ⟨-, -, -, hnow, -⟩ := tick_frame s
  obtain ⟨-, -, -, hnow', -⟩ := tick_frame { s with serial.timerDue := d }
  have hrxd : nextRxd { s with serial.timerDue := d } = nextRxd s := rfl
  rw [tick_serial_of_timer_disabled h, tick_serial_of_timer_disabled (s := { s with serial.timerDue := d }) h,
    hnow, hnow', tick_rxd, tick_rxd, hrxd]
  by_cases hedge : s.serial.edgeEnable = true ∧ s.env.rxd = true ∧ nextRxd s = false
  · simp [edgeEventDue, hedge]
  · have hnone : edgeEventDue (advanceClock s) = false := by simpa [edgeEventDue] using hedge
    simp [hedge, hnone]

/-- Settles O8: the call is over at once, and with the timer off a tick is at most the edge's arming. -/
theorem timerDisarmClearsEnable : Obligations.TimerDisarmClearsEnable := fun s =>
  ⟨_, exec_timerDisarm_eq s, by simp [timerDisarm], fun h => by simp [timerDisarm, ← h],
    tick_setTimerDue_of_timer_disabled (by simp), by simp, by simp, by simp⟩

/-- What the return of an atomic operation leaves alone. -/
theorem yield_returnValue_frame (r : Ret) (s : State) :
    (yield (returnValue r s)).main =
        { s.main with
          stall := (yield (returnValue r s)).main.stall, returns := (yield (returnValue r s)).main.returns }
      ∧ (yield (returnValue r s)).env = { s.env with pace := (yield (returnValue r s)).env.pace } := by
  unfold yield
  split <;> exact ⟨rfl, rfl⟩

/-- Settles O48: both are over at once, with their write and the return. -/
theorem bitClockFrame : Obligations.BitClockFrame := by
  rintro d s t (h | h)
  · obtain ⟨hd, -, -⟩ := exec_next (by simp) (by simp) h
    refine ⟨exec_callFrame h, ?_⟩
    cases h.symm.trans (exec_timerArm_eq (of_decide_eq_true hd) s)
    exact ⟨by simp, by simp, by simp [timerArm], yield_returnValue_frame .done (timerArm d s)⟩
  · refine ⟨exec_callFrame h, ?_⟩
    cases h.symm.trans (exec_timerDisarm_eq s)
    exact ⟨by simp, by simp, by simp [timerDisarm], yield_returnValue_frame .done (timerDisarm s)⟩

end Sys2Proof.Machine

/-! The statements on what the operations of the radio driver leave alone (42_radio_config_mode, 43_radio_packet_io; R116):
one table of what each may write, and one frame that follows from it. -/

namespace Sys2Proof.Machine

open Sys2Proof

/-! ### What an operation may write -/

/-- What an operation of the radio driver may write, besides the line trace, the results and the main context's own
progress (10 R45). -/
structure RadioWrites where
  ce : Bool := false
  cs : Bool := false
  clk : Bool := false
  dataOut : Bool := false
  /-- the directions of the four lines but `DATA` -/
  lineDirs : Bool := false
  dataDir : Bool := false
  lineDirSet : Bool := false
  configured : Bool := false
  radioMode : Bool := false
  packetBuffer : Bool := false
  /-- the locals `b` and `x`, and the environment's answers to `Sample` -/
  input : Bool := false

/-- Whether a micro-step keeps to what may be written. -/
def RadioWrites.allows (w : RadioWrites) : Micro → Bool
  | .set .ce _ => w.ce
  | .set .cs _ => w.cs
  | .set .clk _ => w.clk
  | .set .data _ | .setFromBuffer _ _ => w.dataOut
  | .dir .data _ => w.dataDir
  | .dir _ _ => w.lineDirs
  | .setLineDirSet => w.lineDirSet
  | .setConfigured => w.configured
  | .setRadioMode _ => w.radioMode
  | .bufferWrite _ _ | .bufferTake _ => w.packetBuffer
  | .sampleData | .clearX | .shiftX | .waitDrInactive => w.input
  | .delay _ | .ret _ | .retBit | .retByte | .retBuffer => true
  | _ => false

/-- The state `t` with everything that may not be written as in `s`. -/
def RadioWrites.overlay (w : RadioWrites) (s t : State) : State :=
  { t with
    serial := s.serial
    radio :=
      { ce := bif w.ce then t.radio.ce else s.radio.ce
        cs := bif w.cs then t.radio.cs else s.radio.cs
        clk := bif w.clk then t.radio.clk else s.radio.clk
        dataOut := bif w.dataOut then t.radio.dataOut else s.radio.dataOut
        ceDir := bif w.lineDirs then t.radio.ceDir else s.radio.ceDir
        csDir := bif w.lineDirs then t.radio.csDir else s.radio.csDir
        clkDir := bif w.lineDirs then t.radio.clkDir else s.radio.clkDir
        drDir := bif w.lineDirs then t.radio.drDir else s.radio.drDir
        dataDir := bif w.dataDir then t.radio.dataDir else s.radio.dataDir
        lineDirSet := bif w.lineDirSet then t.radio.lineDirSet else s.radio.lineDirSet
        configured := bif w.configured then t.radio.configured else s.radio.configured
        radioMode := bif w.radioMode then t.radio.radioMode else s.radio.radioMode
        packetBuffer := bif w.packetBuffer then t.radio.packetBuffer else s.radio.packetBuffer }
    main :=
      { s.main with
        cont := t.main.cont, stall := t.main.stall, returns := t.main.returns
        localB := bif w.input then t.main.localB else s.main.localB
        localX := bif w.input then t.main.localX else s.main.localX }
    env :=
      { s.env with
        pace := t.env.pace
        dataIn := bif w.input then t.env.dataIn else s.env.dataIn
        drIn := bif w.input then t.env.drIn else s.env.drIn
        dataReads := bif w.input then t.env.dataReads else s.env.dataReads
        drReads := bif w.input then t.env.drReads else s.env.drReads } }

/-- From `s` to `t` nothing was written that may not be. -/
def RadioWrites.Frame (w : RadioWrites) (s t : State) : Prop := t = w.overlay s t

theorem cond_cond_same {α : Type} (c : Bool) (x y z : α) :
    (bif c then x else bif c then y else z) = bif c then x else z := by
  cases c <;> rfl

theorem RadioWrites.overlay_overlay (w : RadioWrites) (a b c : State) :
    w.overlay (w.overlay a b) c = w.overlay a c := by
  simp only [overlay, cond_cond_same]

theorem RadioWrites.frame_isFrame (w : RadioWrites) : IsFrame w.Frame where
  trans {a b c} h h' := by
    rw [Frame] at h
    rw [Frame, ← w.overlay_overlay a b c, ← h]
    exact h'
  cont s c := by simp [Frame, overlay]

theorem RadioWrites.frame_refl (w : RadioWrites) (s : State) : w.Frame s s := w.frame_isFrame.cont s s.main.cont

theorem RadioWrites.frame_yield (w : RadioWrites) (s : State) : w.Frame s (yield s) := by
  unfold yield
  split <;> simp [Frame, overlay]

theorem RadioWrites.frame_waitTurn (w : RadioWrites) (s : State) : w.Frame s (waitTurn s) := by
  unfold waitTurn
  split <;> simp [Frame, overlay]

theorem RadioWrites.frame_sampleData {w : RadioWrites} (hw : w.input = true) (s : State) :
    w.Frame s { (sampleData s).2 with main.localB := (sampleData s).1 } := by
  unfold sampleData answerData
  split
  · simp [Frame, overlay, emit, hw]
  · split <;> simp [Frame, overlay, emit, hw]

theorem RadioWrites.frame_sampleDr {w : RadioWrites} (hw : w.input = true) (s : State) :
    w.Frame s (sampleDr s).2 := by
  unfold sampleDr answerDr
  split <;> simp [Frame, overlay, emit, hw]

theorem RadioWrites.frame_setLine {w : RadioWrites} {l : OutLine} {v : Bit} (hw : w.allows (.set l v) = true)
    (s : State) : w.Frame s (setLine l v s) := by
  cases l <;> simp only [allows, Bool.false_eq_true] at hw <;> simp [Frame, overlay, setLine, setLatch, emit, hw]

theorem RadioWrites.frame_setDir {w : RadioWrites} {l : RadioLine} {d : Dir} (hw : w.allows (.dir l d) = true)
    (s : State) : w.Frame s (setDir l d s) := by
  cases l <;> simp only [allows] at hw <;> simp [Frame, overlay, setDir, setDirection, emit, hw]

/-- The wait of `receivePacket` takes a sample, and then lets a tick pass or yields. -/
theorem microStep_waitDrInactive_eq {s t : State}
    (h : microStep .waitDrInactive s = .done t ∨ microStep .waitDrInactive s = .held t) :
    t = waitTurn (sampleDr s).2 ∨ t = yield (sampleDr s).2 := by
  simp only [microStep] at h
  split at h <;> rcases h with h | h <;> cases h
  · exact .inl rfl
  · exact .inr rfl

/-- A micro-step that keeps to what may be written leaves the rest alone. -/
theorem RadioWrites.microStep_frame {w : RadioWrites} {m : Micro} {s t : State} (hw : w.allows m = true)
    (h : microStep m s = .done t ∨ microStep m s = .held t) : w.Frame s t := by
  have yields {u : State} (hu : w.Frame s u) : w.Frame s (yield u) := w.frame_isFrame.trans hu (w.frame_yield u)
  cases m <;> simp only [allows, Bool.false_eq_true] at hw
  case waitDrInactive =>
    rcases microStep_waitDrInactive_eq h with rfl | rfl
    · exact w.frame_isFrame.trans (w.frame_sampleDr hw s) (w.frame_waitTurn _)
    · exact yields (w.frame_sampleDr hw s)
  all_goals
    rcases h with h | h <;> cases h
    apply yields
  case set => exact w.frame_setLine hw s
  case setFromBuffer i j => exact frame_setLine (l := .data) hw s
  case dir => exact w.frame_setDir hw s
  case sampleData => exact w.frame_sampleData hw s
  all_goals simp [Frame, overlay, delay, emit, bufferWrite, returnValue, *]

/-! ### What each operation may write -/

/-- What each operation of the radio driver may write (42 R171 to R175, 43 R201 to R205; 10 R45); for `configure` the lines
of R174 are followed (log 32). -/
def radioWrites : Instr → Option RadioWrites
  | .clockOutBit _ | .clockOutByte _ => some { clk := true, dataOut := true }
  | .initializeLines => some { lineDirs := true, dataDir := true, lineDirSet := true }
  | .configure _ => some { ce := true, cs := true, clk := true, dataOut := true, configured := true }
  | .setMode _ => some { ce := true, cs := true, clk := true, dataOut := true, dataDir := true, radioMode := true }
  | .clockInBit | .clockInByte => some { clk := true, input := true }
  | .hasData => some { input := true }
  | .transmitPacket _ => some { ce := true, clk := true, dataOut := true, packetBuffer := true }
  | .receivePacket => some { ce := true, clk := true, packetBuffer := true, input := true }
  | .timerArm _ | .timerDisarm | .transmitByte _ | .timerEvent | .armReceive | .edgeEvent => none
  | .pollReceivedByte | .writeLine _ => none

/-- The lines of an operation keep to its row of the table. -/
theorem callBody_allows {i : Instr} {w : RadioWrites} (hi : radioWrites i = some w) (s : State) :
    (callBody i s).1.all w.allows = true := by
  cases i <;> cases hi
  case configure word =>
    rw [callBody, configureLines, List.all_append, List.all_append, List.all_append, all_flatMap_of fun _ => rfl]
    rfl
  case setMode m => cases m <;> rfl
  case transmitPacket buffer =>
    simp only [callBody, transmitPacketLines, List.all_append]
    rw [all_bufferWrites fun _ _ => rfl, all_flatMap_of fun _ => rfl]
    rfl
  case receivePacket =>
    rw [callBody, receivePacketLines, List.all_append, List.all_append, List.all_append, all_flatMap_of fun _ => rfl]
    rfl
  all_goals rfl

/-- The atomic part of an operation of the radio driver is at most the sample of `hasData`. -/
theorem callBody_frame {i : Instr} {w : RadioWrites} (hi : radioWrites i = some w) (s : State) :
    w.Frame s (callBody i s).2 := by
  cases i <;> cases hi
  case hasData => exact RadioWrites.frame_sampleDr rfl s
  all_goals exact RadioWrites.frame_refl _ s

/-- An operation of the radio driver leaves everything alone that its row of the table does not have. -/
theorem exec_radioFrame {i : Instr} {w : RadioWrites} {s t : State} (hi : radioWrites i = some w)
    (h : exec i s = .next t) : w.Frame s t :=
  w.frame_isFrame.exec (by rintro rfl; cases hi) (by rintro rfl; cases hi) (callBody_frame hi s)
    (fun _ hm _ _ => RadioWrites.microStep_frame (List.all_eq_true.mp (callBody_allows hi s) _ hm)) h

/-- The registers of the radio driver after an operation. -/
theorem exec_radio {i : Instr} {w : RadioWrites} {s t : State} (hi : radioWrites i = some w) (h : exec i s = .next t) :
    t.radio = (w.overlay s t).radio := congrArg State.radio (exec_radioFrame hi h)

/-- What every operation of the radio driver leaves alone outside it (R116). -/
theorem exec_outside_radio {i : Instr} {w : RadioWrites} {s t : State} (hi : radioWrites i = some w)
    (h : exec i s = .next t) :
    CallFrame s t ∧ t.serial = s.serial ∧ t.main = (w.overlay s t).main ∧ t.env = (w.overlay s t).env :=
  have hf : t = w.overlay s t := exec_radioFrame hi h
  ⟨exec_callFrame h, (congrArg State.serial hf :), congrArg State.main hf, congrArg State.env hf⟩

/-- Settles O51: each operation by its row of the table. -/
theorem radioConfigFrame : Obligations.RadioConfigFrame := by
  intro b x word m s t
  refine ⟨?_, fun h => (exec_radio rfl h :), fun h => (exec_radio rfl h :), fun h => (exec_radio rfl h :), ?_⟩
  · rintro (h | h)
    all_goals exact (exec_radio rfl h :)
  · rintro (h | h | h | h | h)
    all_goals exact (exec_outside_radio rfl h :)

/-- Settles O52: each operation by its row of the table. -/
theorem radioPacketFrame : Obligations.RadioPacketFrame := by
  intro buffer s t
  refine ⟨?_, fun h => (exec_radio rfl h :), fun h => ?_, fun h => (exec_radio rfl h :), ?_⟩
  · rintro (h | h)
    all_goals exact (exec_radio rfl h :)
  · obtain ⟨-, -, -, henv⟩ := exec_outside_radio rfl h
    exact ⟨(exec_radio rfl h :), henv⟩
  · rintro (h | h | h | h | h)
    case inr.inr.inr.inl => -- `transmitPacket`, which takes no input
      obtain ⟨hcall, hserial, hmain, henv⟩ := exec_outside_radio rfl h
      exact ⟨hcall, hserial, by rw [hmain]; rfl, by rw [henv]; rfl⟩
    all_goals exact (exec_outside_radio rfl h :)

end Sys2Proof.Machine

/-! The statements on the serial engine (41_serial_engine): what the two event handlers write and leave alone, and the
byte that an armed falling edge delivers to the mailbox. -/

namespace Sys2Proof.Machine

open Sys2Proof

/-! ### The two event handlers -/

theorem deliverEdge_of_due {s : State} (h : edgeEventDue s = true) :
    (deliverEdge s).serial =
      { s.serial with
        edgeEnable := false, rxSync := true, timerDue := s.now + s.params.halfBit, timerEnable := true } := by
  rw [deliverEdge_serial, if_pos h]

/-- Settles O12: the operation is the delivery of its event, which is due. -/
theorem edgeEventStartsSampling : Obligations.EdgeEventStartsSampling := by
  intro s hedge hfell
  obtain ⟨hradio, hmain, -, hnow, htrace⟩ := deliverEdge_frame s
  exact ⟨deliverEdge s, rfl, deliverEdge_of_due (by simp [edgeEventDue, hedge, hfell]), hnow, hradio, hmain, htrace⟩

/-- What the timer event leaves alone of the serial engine: `EdgeEnable`, `Mode` and the half of the other mode. -/
structure TimerEventKeeps (e e' : Serial) : Prop where
  edge : e'.edgeEnable = e.edgeEnable
  mode : e'.mode = e.mode
  receiver : e.mode = .tx → e'.rxReg = e.rxReg ∧ e'.receivedFlag = e.receivedFlag ∧ e'.rxSync = e.rxSync
  transmitter : e.mode = .rx → e'.txShift = e.txShift ∧ e'.txBusy = e.txBusy ∧ e'.txd = e.txd

theorem timerEventKeeps_refl (e : Serial) : TimerEventKeeps e e :=
  ⟨rfl, rfl, fun _ => ⟨rfl, rfl, rfl⟩, fun _ => ⟨rfl, rfl, rfl⟩⟩

theorem timerSerial_keeps (period : Nat) (level : Bit) (e : Serial) :
    TimerEventKeeps e (timerSerial period level e) := by
  obtain ⟨-, hedge, hmode, -, -⟩ := timerSerial_frame period level e
  refine ⟨hedge, hmode, fun htx => ?_, fun hrx => ?_⟩
  · simp only [timerSerial, htx]
    repeat' split
    all_goals exact ⟨rfl, rfl, rfl⟩
  · simp only [timerSerial, hrx]
    repeat' split
    all_goals exact ⟨rfl, rfl, rfl⟩

theorem deliverTimer_keeps (s : State) : TimerEventKeeps s.serial (deliverTimer s).serial := by
  rw [deliverTimer_serial]
  split
  · exact timerSerial_keeps _ _ _
  · exact timerEventKeeps_refl _

/-- Every register but `EdgeEnable` and `Mode` may be new. -/
theorem TimerEventKeeps.eq_overlay {e e' : Serial} (h : TimerEventKeeps e e') :
    e' = { e with
      txShift := e'.txShift, rxReg := e'.rxReg, bitIndex := e'.bitIndex, receivedFlag := e'.receivedFlag,
      txBusy := e'.txBusy, rxSync := e'.rxSync, timerEnable := e'.timerEnable, timerDue := e'.timerDue,
      txd := e'.txd } := by
  rw [← h.edge, ← h.mode]

/-- The edge event writes its own enable, `RxSync` and the timer registers. -/
theorem deliverEdge_eq_overlay (s : State) :
    (deliverEdge s).serial = { s.serial with
      edgeEnable := (deliverEdge s).serial.edgeEnable, rxSync := (deliverEdge s).serial.rxSync,
      timerEnable := (deliverEdge s).serial.timerEnable, timerDue := (deliverEdge s).serial.timerDue } := by
  rw [deliverEdge_serial]
  split <;> rfl

/-- Settles O49: each operation is the delivery of its event. -/
theorem eventFrame : Obligations.EventFrame := by
  refine fun s t => ⟨fun h => ?_, fun h => ?_⟩
  · cases h
    obtain ⟨hradio, hmain, hparams, hnow, henv, htrace⟩ := deliverTimer_frame s
    have hkeeps := deliverTimer_keeps s
    exact ⟨hparams, hnow, hradio, hmain, henv, htrace, hkeeps.eq_overlay, hkeeps.receiver, hkeeps.transmitter⟩
  · cases h
    obtain ⟨hradio, hmain, hparams, hnow, htrace⟩ := deliverEdge_frame s
    exact ⟨hparams, hnow, hradio, hmain, htrace, deliverEdge_env s, deliverEdge_eq_overlay s⟩

/-! ### The byte after an armed falling edge -/

/-- While the timer is off, no tick completes a byte. -/
theorem tick_receivedFlag_of_timer_disabled {s : State} (h : s.serial.timerEnable = false) :
    (tick s).serial.receivedFlag = s.serial.receivedFlag := by
  rw [tick_serial_of_timer_disabled h]
  split <;> rfl

section
variable {half : Nat} {s : State} (h : ReceiveStarted half s) (hhalf : 0 < half) (hT : 0 < s.params.bitPeriod)
include h hhalf hT

/-- Until the tick of the completion the timer runs and the mailbox is as before. -/
theorem ReceiveStarted.ticks_beforeOver :
    (ticks (half + 9 * s.params.bitPeriod - 1) s).serial.receivedFlag = s.serial.receivedFlag
      ∧ (ticks (half + 9 * s.params.bitPeriod - 1) s).serial.timerEnable = true := by
  have hserial := h.ticks_sample hhalf hT (j := 8) le_rfl
  obtain ⟨-, -, -, hnow, -⟩ := ticks_frame (half + 8 * s.params.bitPeriod) s
  have hlen : (samplesAt s.params.bitPeriod half s 8).length = 8 := by simp [samplesAt]
  obtain ⟨hquiet, -⟩ := (h.runs hserial).ticks_quiet (n := s.params.bitPeriod - 1)
    (by rw [hserial, hnow]; simp only [samplesTaken, hlen]; omega)
  have hsplit : half + 9 * s.params.bitPeriod - 1 = half + 8 * s.params.bitPeriod + (s.params.bitPeriod - 1) := by omega
  rw [hsplit, ticks_add, hquiet, hserial]
  exact ⟨rfl, h.timer⟩

/-- Each bit of the byte is the level of `RXD` at its sampling tick; nothing of the old `RxReg` is left. -/
theorem ReceiveStarted.rxReg_getLsbD {j : Nat} (hj : j < 8) :
    (ticks (half + 9 * s.params.bitPeriod) s).serial.rxReg.getLsbD j
      = (ticks (half + (j + 1) * s.params.bitPeriod) s).env.rxd := by
  rw [h.ticks_over hhalf hT, getLsbD_foldl_shiftInTop _ _ hj, if_neg (by simp [samplesAt])]
  simp [samplesAt, hj]

end

/-- An armed receiver, `RXD` at 1, to which the peer presents a falling edge and then these levels, enough for a
frame. -/
structure EdgeAhead (levels : List Bit) (s : State) : Prop where
  legal : s.params.Legal
  inv : SerialInv s.serial
  fires : s.env.timerFires = true
  edge : s.serial.edgeEnable = true
  high : s.env.rxd = true
  rxdIn : s.env.rxdIn = false :: levels
  enough : s.params.halfBit + 9 * s.params.bitPeriod ≤ levels.length

section
variable {levels : List Bit} {s : State} (h : EdgeAhead levels s)
include h

/-- The level at a tick counted from the edge, which is at the first tick. -/
theorem EdgeAhead.rxd_afterEdge {n : Nat} (hpos : 0 < n) (hn : n ≤ levels.length) :
    (ticks n (tick s)).env.rxd = levels.getD (n - 1) false := by
  obtain ⟨k, rfl⟩ := Nat.exists_eq_succ_of_ne_zero hpos.ne'
  have hin : (tick s).env.rxdIn = levels := by rw [tick_rxdIn, h.rxdIn, List.tail_cons]
  rw [Nat.succ_eq_add_one, ticks_rxd (by rw [hin]; exact hn), Nat.add_sub_cancel, List.getD_eq_getElem _ _ hn]
  simp only [hin]

theorem EdgeAhead.receiveStarted : ReceiveStarted s.params.halfBit (tick s) := by
  have hfall : (tick s).env.rxd = false := by rw [tick_rxd, nextRxd, h.rxdIn]
  refine receiveStarted_of_edge (n := 0) h.inv h.edge h.fires (fun i hi => ?_) hfall
  rw [Nat.le_zero.mp hi]
  exact h.high

theorem EdgeAhead.halfBit_pos : 0 < s.params.halfBit := by
  obtain ⟨-, hhalf, -⟩ := h.legal
  exact hhalf

theorem EdgeAhead.bitPeriod_pos : 0 < (tick s).params.bitPeriod := by
  obtain ⟨-, -, hparams, -⟩ := tick_frame s
  obtain ⟨hT, -⟩ := h.legal
  rw [hparams]
  omega

/-- At the completion the byte is in the mailbox and the receiver is disarmed (decision D6). -/
theorem EdgeAhead.ticks_over :
    (ticks (1 + s.params.halfBit + 9 * s.params.bitPeriod) s).serial.receivedFlag = true
      ∧ (ticks (1 + s.params.halfBit + 9 * s.params.bitPeriod) s).serial.timerEnable = false
      ∧ (ticks (1 + s.params.halfBit + 9 * s.params.bitPeriod) s).serial.edgeEnable = false
      ∧ (ticks (1 + s.params.halfBit + 9 * s.params.bitPeriod) s).serial.bitIndex = 8 := by
  have hover := h.receiveStarted.ticks_over h.halfBit_pos h.bitPeriod_pos
  obtain ⟨-, -, hparams, -⟩ := tick_frame s
  rw [hparams] at hover
  rw [Nat.add_assoc, ticks_add, ticks, ticks, hover]
  exact ⟨rfl, rfl, h.receiveStarted.edge, rfl⟩

theorem EdgeAhead.rxReg_getLsbD {j : Nat} (hj : j < 8) :
    (ticks (1 + s.params.halfBit + 9 * s.params.bitPeriod) s).serial.rxReg.getLsbD j
      = levels.getD (s.params.halfBit + (j + 1) * s.params.bitPeriod - 1) false := by
  have hbit := h.receiveStarted.rxReg_getLsbD h.halfBit_pos h.bitPeriod_pos hj
  obtain ⟨-, -, hparams, -⟩ := tick_frame s
  have hle : (j + 1) * s.params.bitPeriod ≤ 9 * s.params.bitPeriod := Nat.mul_le_mul_right _ (by omega)
  have hpos := h.halfBit_pos
  have henough := h.enough
  rw [hparams, h.rxd_afterEdge (by omega) (by omega)] at hbit
  rw [Nat.add_assoc, ticks_add]
  exact hbit

/-- One tick earlier nothing is delivered yet. -/
theorem EdgeAhead.ticks_beforeOver :
    (ticks (s.params.halfBit + 9 * s.params.bitPeriod) s).serial.receivedFlag = s.serial.receivedFlag
      ∧ (ticks (s.params.halfBit + 9 * s.params.bitPeriod) s).serial.timerEnable = true := by
  obtain ⟨hflag, htimer⟩ := h.receiveStarted.ticks_beforeOver h.halfBit_pos h.bitPeriod_pos
  obtain ⟨-, -, hparams, -⟩ := tick_frame s
  obtain ⟨hone, -⟩ := h.inv
  have hoff : s.serial.timerEnable = false := by simpa [h.edge] using hone
  have hpos := h.halfBit_pos
  have hsplit : s.params.halfBit + 9 * s.params.bitPeriod
      = 1 + (s.params.halfBit + 9 * s.params.bitPeriod - 1) := by omega
  rw [hparams] at hflag htimer
  rw [hsplit, ticks_add]
  exact ⟨hflag.trans (tick_receivedFlag_of_timer_disabled hoff), htimer⟩

end

/-- Settles O22: the edge starts a reception at the first tick, and its samples are the listed levels. -/
theorem edgeDeliversSampledByte : Obligations.EdgeDeliversSampledByte := by
  intro s levels hlegal hinv hfires hedge hhigh hin henough u u'
  have h : EdgeAhead levels s := ⟨hlegal, hinv, hfires, hedge, hhigh, hin, henough⟩
  obtain ⟨hflag, htimer, hoff, hindex⟩ := h.ticks_over
  exact ⟨hflag, htimer, hoff, hindex, fun _ hj => h.rxReg_getLsbD hj, h.ticks_beforeOver⟩

/-- A poll of a full mailbox returns its byte, and the next poll finds it empty. -/
theorem exec_poll_twice {s : State} (hc : s.main.context = .main) (hf : s.serial.receivedFlag = true) :
    ∃ t t' : State, exec .pollReceivedByte s = .next t
      ∧ t.main.returns = s.main.returns ++ [.maybeByte (some s.serial.rxReg)]
      ∧ exec .pollReceivedByte t = .next t'
      ∧ t'.main.returns = t.main.returns ++ [.maybeByte none] := by
  obtain ⟨hfull, -⟩ := pollTakesMailbox s hc
  obtain ⟨t, ht, hctx, hempty, hret⟩ : ∃ t, exec .pollReceivedByte s = .next t ∧ t.main.context = .main
      ∧ t.serial.receivedFlag = false ∧ t.main.returns = s.main.returns ++ [.maybeByte (some s.serial.rxReg)] :=
    ⟨_, hfull hf, by simp [hc], by simp, by simp⟩
  obtain ⟨-, hnone⟩ := pollTakesMailbox t hctx
  exact ⟨t, _, ht, hret, hnone hempty, by simp⟩

/-- Settles O24: the first poll takes the byte that the reception left, whatever was unread before it. -/
theorem mailboxKeepsOnlyLastByte : Obligations.MailboxKeepsOnlyLastByte := by
  rintro s levels hlegal hinv ⟨hctx, -⟩ hfires hedge - hhigh hin henough
  have h : EdgeAhead levels s := ⟨hlegal, hinv, hfires, hedge, hhigh, hin, henough⟩
  obtain ⟨hflag, -⟩ := h.ticks_over
  obtain ⟨-, hmain, -⟩ := ticks_frame (1 + s.params.halfBit + 9 * s.params.bitPeriod) s
  obtain ⟨t, t', ht, hret, ht', hret'⟩ := exec_poll_twice (by rw [hmain, hctx]) hflag
  exact ⟨_, t, t', fun _ hj => h.rxReg_getLsbD hj, ht, by rw [hret, hmain], ht', hret'⟩

end Sys2Proof.Machine

/-! The statements on the radio configuration and mode driver (42_radio_config_mode): the invariant of its lines and
directions over every step. -/

namespace Sys2Proof.Machine

open Sys2Proof

/-! ### Segments of an operation that give the radio driver's shape back -/

/-- Put in front of orderly lines, the segment leaves them orderly: it keeps the windows and the directions, and gives
the shape back. -/
def Passes (r : RadioShape) (seg : List Micro) : Prop := ∀ ms, Orderly r ms → Orderly r (seg ++ ms)

theorem Passes.append {r : RadioShape} {a b : List Micro} (ha : Passes r a) (hb : Passes r b) : Passes r (a ++ b) := by
  intro ms h
  rw [List.append_assoc]
  exact ha _ (hb _ h)

theorem Passes.flatMap {α : Type} {r : RadioShape} {f : α → List Micro} (hf : ∀ a, Passes r (f a)) (l : List α) :
    Passes r (l.flatMap f) := by
  induction l with
  | nil => exact fun _ h => h
  | cons a l ih => exact (hf a).append ih

/-- Lines that write no part of the shape, and find `DATA` in the direction they need. -/
theorem passes_of_neutral {r : RadioShape} (hw : Windowed r) {seg : List Micro}
    (h : ∀ m ∈ seg, shapeStep m r = r ∧ directionOk m r) : Passes r seg := by
  induction seg with
  | nil => exact fun _ h => h
  | cons m seg ih =>
    intro ms hms
    obtain ⟨hshape, hdir⟩ := h m (by simp)
    refine ⟨hw, hdir, ?_⟩
    rw [hshape]
    exact ih (fun m' hm' => h m' (by simp [hm'])) ms hms

theorem Windowed.of_settled {r : RadioShape} (h : Settled r) : Windowed r := by
  obtain ⟨-, hcs, -⟩ := h
  simp [hcs]

/-- A call that never touches the radio lines leaves them settled. -/
theorem Settled.orderly_of_neutral {r : RadioShape} (hr : Settled r) {ms : List Micro}
    (h : ∀ m ∈ ms, shapeStep m r = r ∧ directionOk m r) : Orderly r ms := by
  simpa using passes_of_neutral (.of_settled hr) h [] hr

theorem neutral_transmitByteLines (r : RadioShape) (v : Byte) :
    ∀ m ∈ transmitByteLines v, shapeStep m r = r ∧ directionOk m r := by
  simp [transmitByteLines, shapeStep, directionOk]

theorem neutral_bufferWrites (r : RadioShape) (v : List Byte) (i : Nat) :
    ∀ m ∈ bufferWrites i v, shapeStep m r = r ∧ directionOk m r := by
  induction v generalizing i with
  | nil => simp [bufferWrites]
  | cons b bs ih => simpa [bufferWrites, shapeStep, directionOk] using ih (i + 1)

section
variable {r : RadioShape} (hw : Windowed r) (hclk : r.clk = false)
include hw hclk

theorem passes_clockPulse : Passes r clockPulse := by
  intro ms h
  have hshape : shapeStep (.set .clk false) (shapeStep (.set .clk true) r) = r := by
    cases r
    simpa [shapeStep] using hclk.symm
  refine ⟨hw, trivial, hw, trivial, ?_⟩
  rwa [hshape]

/-- A cell: one line on `DATA` in its direction, then the pulse. -/
theorem passes_cell {m : Micro} (hm : shapeStep m r = r) (hdir : directionOk m r) : Passes r (m :: clockPulse) :=
  (passes_of_neutral hw (seg := [m]) (by simpa using ⟨hm, hdir⟩)).append (passes_clockPulse hw hclk)

theorem passes_clockOutByte (hd : r.dataDir = .output) (x : Byte) : Passes r (clockOutByte x) :=
  .flatMap (fun _ => passes_cell (m := .set .data _) hw hclk rfl hd) _

theorem passes_clockOutBuffer (hd : r.dataDir = .output) (i : Nat) : Passes r (clockOutBuffer i) :=
  .flatMap (fun _ => passes_cell (m := .setFromBuffer i _) hw hclk rfl hd) _

theorem passes_clockInByte (hd : r.dataDir = .input) : Passes r clockInByte := by
  have hcell : Passes r (clockInBit ++ [.shiftX]) :=
    (passes_cell (m := .sampleData) hw hclk rfl hd).append (passes_of_neutral hw (by simp [shapeStep, directionOk]))
  have hcells : ∀ n, Passes r (List.replicate n (clockInBit ++ [.shiftX])).flatten := by
    intro n
    induction n with
    | zero => exact fun _ h => h
    | succ n ih => exact hcell.append ih
  exact (passes_of_neutral hw (seg := [.clearX]) (by simp [shapeStep, directionOk])).append (hcells 8)

end

/-! ### The lines of each radio operation, from settled lines -/

section
variable {r : RadioShape} (hr : Settled r)
include hr

theorem Settled.mode_of_unconfigured (hg : r.configured = false) : r.radioMode = .configure := by
  obtain ⟨-, -, -, -, -, -, hmode⟩ := hr
  by_contra hm
  simp [hmode hm] at hg

theorem Settled.dataDir_output (hl : r.lineDirSet = true) (hm : r.radioMode ≠ .receive) : r.dataDir = .output := by
  obtain ⟨-, -, -, hdata, -⟩ := hr
  cases hd : r.dataDir with
  | input => exact absurd ((hdata hl).mp hd) hm
  | output => rfl

theorem Settled.dataDir_input (hl : r.lineDirSet = true) (hm : r.radioMode = .receive) : r.dataDir = .input := by
  obtain ⟨-, -, -, hdata, -⟩ := hr
  exact (hdata hl).mpr hm

/-- The directions of the four fixed lines and of `DATA` are those of the Configure mode (42 R173). -/
theorem Settled.orderly_initializeLines (hg : r.configured = false) :
    Orderly r (initializeLinesLines ++ [.ret .done]) := by
  have hm := hr.mode_of_unconfigured hg
  obtain ⟨hclk, hcs, hce, -, -, -, -⟩ := hr
  simp_all [initializeLinesLines, Orderly, shapeStep, directionOk]

/-- Before `configure` the mode is Configure, so that `DATA` is an output already (42 R174). -/
theorem Settled.orderly_configure (hl : r.lineDirSet = true) (hg : r.configured = false) (word : List Byte) :
    Orderly r (configureLines word ++ [.ret .done]) := by
  have hm := hr.mode_of_unconfigured hg
  have hd := hr.dataDir_output hl (by simp [hm])
  obtain ⟨hclk, hcs, hce, -, hdirs, -, -⟩ := hr
  have hwin : Windowed (shapeStep (.set .cs true) (shapeStep (.set .ce false) r)) := fun _ => rfl
  have hstream := Passes.flatMap (passes_clockOutByte hwin (by exact hclk) (by exact hd)) word
    [.set .cs false, .setConfigured, .ret .done] (by simp_all [Orderly, shapeStep, directionOk])
  have hstart : Windowed r := by simp [hcs]
  simp only [configureLines, List.append_assoc, List.cons_append, List.nil_append]
  exact ⟨hstart, trivial, fun _ => rfl, trivial, hwin, trivial, hstream⟩

/-- Whatever the mode before, the two roles differ only in the last lines (42 R175). -/
theorem Settled.orderly_setMode {m : RadioMode} (hl : r.lineDirSet = true) (hg : r.configured = true)
    (hm : m ≠ .configure) : Orderly r (setModeLines m ++ [.ret .done]) := by
  obtain ⟨hclk, hcs, -, -, hdirs, -, -⟩ := hr
  cases m with
  | configure => exact absurd rfl hm
  | transmit | receive =>
    simp_all [setModeLines, clockOutBit, clockPulse, Orderly, shapeStep, directionOk]

/-- In Transmit mode `CE` is 0 before and after the packet and `DATA` an output (43 R203). -/
theorem Settled.orderly_transmitPacket (hl : r.lineDirSet = true) (hm : r.radioMode = .transmit) (p : Params)
    (buffer : List Byte) : Orderly r (transmitPacketLines p buffer ++ [.ret .done]) := by
  have hd := hr.dataDir_output hl (by simp [hm])
  have hw := Windowed.of_settled hr
  have hwrites := passes_of_neutral hw (neutral_bufferWrites r buffer 0)
  obtain ⟨hclk, hcs, hce, -, hdirs, -, hconf⟩ := hr
  have hwin : Windowed (shapeStep (.set .ce true) r) := by simp [shapeStep, hcs]
  have hout := passes_clockOutByte hwin (by exact hclk) (by exact hd)
  have hstream := ((hout p.nodeAddr0).append (hout p.nodeAddr1)).append
    (.flatMap (passes_clockOutBuffer hwin (by exact hclk) (by exact hd)) (List.range p.payloadWidth))
    [.set .ce false, .ret .done] (by simp_all [Orderly, shapeStep, directionOk])
  simp only [transmitPacketLines, List.append_assoc] at hstream ⊢
  exact hwrites _ ⟨hw, trivial, hstream⟩

/-- In Receive mode `CE` is 1 before and after the packet and `DATA` an input (43 R205). -/
theorem Settled.orderly_receivePacket (hl : r.lineDirSet = true) (hm : r.radioMode = .receive) (p : Params) :
    Orderly r (receivePacketLines p ++ [.retBuffer]) := by
  have hd := hr.dataDir_input hl hm
  obtain ⟨hclk, hcs, hce, -, hdirs, -, hconf⟩ := hr
  have hstart : Windowed r := by simp [hcs]
  have hwin : Windowed (shapeStep (.set .ce false) r) := fun _ => rfl
  have hbyte (i : Nat) : Passes (shapeStep (.set .ce false) r) (clockInByte ++ [.bufferTake i]) :=
    (passes_clockInByte hwin (by exact hclk) (by exact hd)).append
      (passes_of_neutral hwin (by simp [shapeStep, directionOk]))
  have hstream := Passes.flatMap hbyte (List.range p.payloadWidth) [.waitDrInactive, .set .ce true, .retBuffer]
    (by simp_all [Orderly, shapeStep, directionOk])
  simp only [receivePacketLines, List.append_assoc, List.cons_append, List.nil_append]
  exact ⟨hstart, trivial, hstream⟩

end

/-! ### The radio invariant -/

/-- The lines of every host operation that its checks let through are orderly. -/
theorem callBody_orderly {i : Instr} {s : State} (hi : i.isHostOp = true) (hw : i.WellFormed s.params = true)
    (hf : firstFault (entryChecks s i) = none) (hr : Settled (radioShape s.radio)) :
    Orderly (radioShape s.radio) (callBody i s).1 := by
  have hpass := firstFault_none_iff.mp hf
  cases i with
  | timerArm | timerDisarm | timerEvent | edgeEvent | clockOutBit | clockOutByte | clockInBit | clockInByte => cases hi
  | pollReceivedByte | hasData | armReceive =>
    exact hr.orderly_of_neutral (by simp [callBody, armReceiveLines, shapeStep, directionOk])
  | transmitByte v =>
    exact passes_of_neutral (.of_settled hr) (neutral_transmitByteLines _ v) _
      (hr.orderly_of_neutral (by simp [shapeStep, directionOk]))
  | writeLine text =>
    exact Passes.flatMap (fun v => passes_of_neutral (.of_settled hr) (neutral_transmitByteLines _ v)) text _
      (hr.orderly_of_neutral (by simp [shapeStep, directionOk]))
  | initializeLines =>
    have hg : s.radio.configured = false := by simpa [entryChecks, callChecks, initializeLinesChecks] using hpass
    exact hr.orderly_initializeLines hg
  | configure word =>
    obtain ⟨hl, hg⟩ : s.radio.lineDirSet = true ∧ s.radio.configured = false := by
      simpa [entryChecks, callChecks, configureChecks] using hpass
    exact hr.orderly_configure hl hg word
  | setMode m =>
    obtain ⟨hl, hg⟩ : s.radio.lineDirSet = true ∧ s.radio.configured = true := by
      simpa [entryChecks, callChecks, setModeChecks] using hpass
    exact hr.orderly_setMode hl hg (of_decide_eq_true hw)
  | transmitPacket buffer =>
    obtain ⟨hl, -, hm⟩ : s.radio.lineDirSet = true ∧ s.radio.configured = true ∧ s.radio.radioMode = .transmit := by
      simpa [entryChecks, callChecks, packetChecks] using hpass
    exact hr.orderly_transmitPacket hl hm s.params buffer
  | receivePacket =>
    obtain ⟨hl, -, hm⟩ : s.radio.lineDirSet = true ∧ s.radio.configured = true ∧ s.radio.radioMode = .receive := by
      simpa [entryChecks, callChecks, packetChecks] using hpass
    exact hr.orderly_receivePacket hl hm s.params

/-- A run of orderly lines, however far it gets, leaves orderly lines. -/
theorem runMicros_radioInv {k ms : List Micro} {s t : State} (ho : Orderly (radioShape s.radio) (ms ++ k))
    (h : runMicros k ms s = .next t) : RadioInv t := by
  induction ms generalizing s with
  | nil => cases h; exact ho
  | cons m ms ih =>
    have ⟨_, _, hrest⟩ := ho
    unfold runMicros at h
    split at h
    · next s' hm =>
      rw [← microStep_shape.1 hm] at hrest
      split at h
      · cases h; exact hrest
      · exact ih hrest h
    · next s' hm =>
      rw [← microStep_shape.2 hm] at ho
      cases h
      exact ho
    · cases h

theorem tick_radioInv {s : State} (h : RadioInv s) : RadioInv (tick s) := by
  obtain ⟨hradio, hmain, -⟩ := tick_frame s
  rwa [RadioInv, hradio, hmain]

/-- A host operation called between two operations. -/
theorem exec_radioInv {i : Instr} {s t : State} (hi : i.isHostOp = true) (hc : s.main.cont = []) (hinv : RadioInv s)
    (h : exec i s = .next t) : RadioInv t := by
  have hr : Settled (radioShape s.radio) := by rwa [RadioInv, hc] at hinv
  obtain ⟨hw, hchecks, hrun⟩ := exec_next (by rintro rfl; cases hi) (by rintro rfl; cases hi) h
  obtain ⟨-, hf⟩ := hchecks hi
  have ho := callBody_orderly hi hw hf hr
  refine runMicros_radioInv ?_ hrun
  rwa [callBody_radio, hc, List.append_nil]

/-- Settles O57: ticks leave the driver alone, lines in progress are orderly, and a call's lines are orderly from
settled lines. -/
theorem stepKeepsRadioInvariant : Obligations.StepKeepsRadioInvariant := by
  intro s t hinv hkeeps h
  rcases step_cases h with ⟨n, -, rfl⟩ | ⟨-, m, ms, hc, hrun⟩ | ⟨-, -, -, -, n, rfl⟩ | ⟨-, hc, i, rest, n, hi, hexec⟩
  · exact tick_radioInv (s := { s with main.stall := n }) hinv
  · rw [RadioInv, hc] at hinv
    exact runMicros_radioInv (by rwa [List.append_nil]) hrun
  · exact tick_radioInv (s := { s with main.hostTurns := n }) hinv
  · exact exec_radioInv (s := { s with main.script := rest, main.hostTurns := n }) (hkeeps i hi) hc hinv hexec

end Sys2Proof.Machine

/-! The statements on the radio configuration and mode driver (42_radio_config_mode): the two outbound primitives and
the sequence of `setMode`. -/

namespace Sys2Proof.Machine

open Sys2Proof

/-! ### The outbound primitives -/

theorem afterOut_main (cells : List Bit) (s : State) : (afterOut cells s).main = s.main := rfl

theorem afterOut_env (cells : List Bit) (s : State) : (afterOut cells s).env = s.env := rfl

/-- An outbound stream of cells as a call of its own. -/
theorem runMicros_cells_done (cells : List Bit) {s : State} (hs : s.main.stall = 0) (hp : s.env.pace = []) :
    runMicros [] (cells.flatMap clockOutBit ++ [.ret .done]) s
      = .next { returnValue .done (afterOut cells s) with main.cont := [] } := by
  rw [runMicros_cells cells hs hp, runMicros_done (by rw [afterOut_env, hp])]

/-- Settles O26: a stream of one cell. -/
theorem clockOutBitPulsesOnce : Obligations.ClockOutBitPulsesOnce := by
  rintro b s ⟨-, hcont, hs, hp⟩
  have hexec : exec (.clockOutBit b) s = runMicros [] ([b].flatMap clockOutBit ++ [.ret .done]) s := by
    rw [exec_primitive (.clockOutBit b) s rfl (by simp) (by simp), if_pos rfl, hcont, callBody, List.flatMap_singleton]
  rw [hexec, runMicros_cells_done [b] hs hp]
  exact ⟨_, rfl, rfl, rfl, rfl, rfl, rfl, hs⟩

/-- Settles O27: the byte is the stream of its bits, most significant first. -/
theorem clockOutByteSendsMsbFirst : Obligations.ClockOutByteSendsMsbFirst := by
  rintro x s ⟨-, hcont, hs, hp⟩
  have hexec : exec (.clockOutByte x) s = runMicros [] ((msbBits x).flatMap clockOutBit ++ [.ret .done]) s := by
    rw [exec_primitive (.clockOutByte x) s rfl (by simp) (by simp), if_pos rfl, hcont, callBody, clockOutByte]
  rw [hexec, runMicros_cells_done (msbBits x) hs hp]
  exact ⟨_, rfl, rfl, rfl, rfl, rfl, rfl, hs⟩

/-! ### The sequence of `setMode` -/

section
variable {k ms : List Micro} {s : State} (hs : s.main.stall = 0) (hp : s.env.pace = [])
include hs hp

theorem runMicros_dir (l : RadioLine) (d : Dir) :
    runMicros k (.dir l d :: ms) s = runMicros k ms (setDir l d s) := by
  rw [runMicros_cons rfl (by simp [yield_of_pace_nil, hs, hp]), yield_of_pace_nil (by simpa)]

theorem runMicros_setRadioMode (m : RadioMode) :
    runMicros k (.setRadioMode m :: ms) s = runMicros k ms { s with radio.radioMode := m } := by
  rw [runMicros_cons rfl (by simp [yield_of_pace_nil, hs, hp]), yield_of_pace_nil (by simpa)]

end

/-- The lines of `setMode` after its second delay: `CS` = 0, and for the receive role `DATA` an input and `CE` = 1
(42 R175 lines 11 to 14). -/
def setModeTail (m : RadioMode) : List Micro :=
  if m = .receive then [.set .cs false, .dir .data .input, .set .ce true, .setRadioMode m, .ret .done]
  else [.set .cs false, .setRadioMode m, .ret .done]

/-- What `setModeTail` appends to the line trace. -/
def setModeTailEntries (m : RadioMode) : List Entry :=
  if m = .receive then [.set .cs false, .dir .data .input, .set .ce true] else [.set .cs false]

/-- The lines of `setMode`, cut at its two delays. -/
theorem callBody_setMode (m : RadioMode) (s : State) :
    callBody (.setMode m) s = (.set .ce false :: .set .cs true :: .dir .data .output :: .delay .modePre ::
      (clockOutBit (roleBit m) ++ .delay .modePost :: setModeTail m), s) := by
  by_cases hm : m = .receive <;> simp [callBody, setModeLines, setModeTail, hm]

/-- The lines after the second delay, in one step. -/
theorem runMicros_setModeTail (m : RadioMode) {s : State} (hs : s.main.stall = 0) (hp : s.env.pace = []) :
    ∃ u, runMicros [] (setModeTail m) s = .next u
      ∧ u.now = s.now ∧ u.main.cont = [] ∧ u.main.stall = 0 ∧ u.main.returns = s.main.returns ++ [.done]
      ∧ u.radio = { s.radio with
          ce := if m = .receive then true else s.radio.ce
          cs := false
          dataDir := if m = .receive then .input else s.radio.dataDir
          radioMode := m }
      ∧ AppendsRadio (setModeTailEntries m) s u := by
  by_cases hm : m = .receive
  · simp only [setModeTail, setModeTailEntries, if_pos hm]
    rw [runMicros_set hs hp, runMicros_dir (by simpa) (by simpa), runMicros_set (by simpa) (by simpa),
      runMicros_setRadioMode (by simpa) (by simpa), runMicros_done (by simpa)]
    exact ⟨_, rfl, rfl, rfl, hs, rfl, rfl, appendsRadio_of_trace (by simp [stampAll]) (by simp [isRadioEntry])⟩
  · simp only [setModeTail, setModeTailEntries, if_neg hm]
    rw [runMicros_set hs hp, runMicros_setRadioMode (by simpa) (by simpa), runMicros_done (by simpa)]
    exact ⟨_, rfl, rfl, rfl, hs, rfl, rfl, appendsRadio_of_trace (by simp [stampAll]) (by simp [isRadioEntry])⟩

/-- The lines after the first delay: the role bit, the second delay and the tail. -/
theorem runMicros_roleBit (m : RadioMode) {s : State} (hs : s.main.stall = 0) (hp : s.env.pace = []) :
    ∃ t u, runMicros [] (clockOutBit (roleBit m) ++ .delay .modePost :: setModeTail m) s = .next t
      ∧ steps (delaySteps s.params.modePost) t = .next u
      ∧ u.now = s.now + s.params.modePost ∧ u.main.cont = [] ∧ u.main.stall = 0
      ∧ u.main.returns = s.main.returns ++ [.done]
      ∧ u.radio = { s.radio with
          ce := if m = .receive then true else s.radio.ce
          cs := false
          clk := false
          dataOut := roleBit m
          dataDir := if m = .receive then .input else s.radio.dataDir
          radioMode := m }
      ∧ AppendsRadio (outEntries [roleBit m] ++ .delay .modePost :: setModeTailEntries m) s u := by
  obtain ⟨w, hwnow, hwstall, hwreturns, hwradio, -, hwpace, hwtrace, hwrest⟩ :=
    runMicros_delay .modePost (ms := setModeTail m) (s := afterOut [roleBit m] s)
      (by unfold setModeTail; split <;> simp) (by rw [afterOut_main, hs]) (by rw [afterOut_env, hp])
  obtain ⟨u, hu, hunow, hucont, hustall, hureturns, huradio, hutrace⟩ := runMicros_setModeTail m hwstall hwpace
  obtain ⟨t, ht, hsteps⟩ := hwrest u hu
  have hbit : AppendsRadio (outEntries [roleBit m]) s (afterOut [roleBit m] s) :=
    appendsRadio_of_trace rfl (outEntries_isRadio _)
  have hcell := runMicros_cells (k := []) (ms := .delay .modePost :: setModeTail m) [roleBit m] hs hp
  rw [List.flatMap_singleton] at hcell
  refine ⟨t, u, hcell.trans ht, hsteps, hunow.trans hwnow, hucont, hustall, ?_, ?_, ?_⟩
  · rw [hureturns, hwreturns, afterOut_main]
  · rw [huradio, hwradio]
    rfl
  · simpa using (hbit.trans hwtrace).trans hutrace

/-- `setMode` for either role: the lines before the first delay, then the role bit and the tail. -/
theorem setMode_returns {m : RadioMode} {s : State} (hr : Ready s) (hl : s.radio.lineDirSet = true)
    (hg : s.radio.configured = true) (hm : m ≠ .configure) :
    ∃ t u : State, exec (.setMode m) s = .next t
      ∧ steps (delaySteps s.params.modePre + delaySteps s.params.modePost) t = .next u
      ∧ u.now = s.now + s.params.modePre + s.params.modePost ∧ u.main.cont = [] ∧ u.main.stall = 0
      ∧ u.main.returns = s.main.returns ++ [.done]
      ∧ u.radio = { s.radio with
          ce := if m = .receive then true else false
          cs := false
          clk := false
          dataOut := roleBit m
          dataDir := if m = .receive then .input else .output
          radioMode := m }
      ∧ radioEntries s u = .set .ce false :: .set .cs true :: .dir .data .output :: .delay .modePre ::
          (outEntries [roleBit m] ++ .delay .modePost :: setModeTailEntries m) := by
  obtain ⟨hctx, hcont, hs, hp⟩ := hr
  have hf : firstFault (setModeChecks s) = none := by simp [firstFault_setModeChecks, hl, hg]
  obtain ⟨v, hvnow, hvstall, hvreturns, hvradio, hvparams, hvpace, hvtrace, hvrest⟩ :=
    runMicros_delay .modePre (ms := clockOutBit (roleBit m) ++ .delay .modePost :: setModeTail m)
      (s := setDir .data .output (setLine .cs true (setLine .ce false s))) (by simp) (by simpa) (by simpa)
  obtain ⟨t', u, ht', hpost, hunow, hucont, hustall, hureturns, huradio, hutrace⟩ := runMicros_roleBit m hvstall hvpace
  obtain ⟨t, ht, hpre⟩ := hvrest t' ht'
  have hexec : exec (.setMode m) s = .next t := by
    rw [exec_host_runs (.setMode m) rfl hctx hcont (decide_eq_true hm) hf, callBody_setMode, runMicros_set hs hp,
      runMicros_set (by simpa) (by simpa), runMicros_dir (by simpa) (by simpa), ht]
  have hstart : AppendsRadio [.set .ce false, .set .cs true, .dir .data .output] s
      (setDir .data .output (setLine .cs true (setLine .ce false s))) :=
    appendsRadio_of_trace (by simp [stampAll]) (by simp [isRadioEntry])
  have hticks : delayTicks .modePre (setDir .data .output (setLine .cs true (setLine .ce false s)))
      = s.params.modePre := by simp [delayTicks]
  rw [hticks] at hvnow hpre
  simp only [setDir_params, setLine_params] at hvparams
  rw [hvparams] at hpost hunow
  refine ⟨t, u, hexec, (steps_add _ hpre).trans hpost, ?_, hucont, hustall, ?_, ?_, ?_⟩
  · simpa [hvnow] using hunow
  · simpa [hvreturns] using hureturns
  · rw [huradio, hvradio]
    simp
  · simpa using ((hstart.trans hvtrace).trans hutrace).radioEntries_eq

/-- Settles O34: the two roles are the two values of the role bit and of the tail. -/
theorem setModeRunsSequence : Obligations.SetModeRunsSequence := by
  intro m s hr hl hg hm
  obtain ⟨t, u, hexec, hsteps, hnow, hcont, hstall, hreturns, hradio, hentries⟩ := setMode_returns hr hl hg hm
  refine ⟨t, u, hexec, hsteps, hnow, hcont, hstall, hreturns, ?_, ?_⟩
  · rintro rfl
    exact ⟨hradio, hentries⟩
  · rintro rfl
    exact ⟨hradio, hentries⟩

end Sys2Proof.Machine

/-! The statements on the exceptions (60_exceptions): the ticks and their events, the calls that answer, and the writers
of the two interrupt enables. -/

namespace Sys2Proof.Machine

open Sys2Proof

/-! ### Ticks -/

/-- Settles O14: while the timer is off a tick is at most the edge event, which is due at a fall of `RXD`. -/
theorem onlyFallingEdgeWhileArmedStartsReception : Obligations.OnlyFallingEdgeWhileArmedStartsReception := by
  intro s ht
  obtain ⟨-, -, -, hnow, -⟩ := tick_frame s
  rw [tick_serial_of_timer_disabled ht, tick_rxd, hnow]
  refine ⟨fun he hhigh hlow => if_pos ⟨he, hhigh, hlow⟩, fun hnone => if_neg ?_⟩
  rintro ⟨he, hhigh, hlow⟩
  simp [he, hhigh, hlow] at hnone

/-- Settles O15: what one tick leaves alone, any number of them does. -/
theorem eventsLeaveMainAndRadioAlone : Obligations.EventsLeaveMainAndRadioAlone := by
  intro n s
  obtain ⟨hradio, hmain, hparams, hnow, -⟩ := ticks_frame n s
  exact ⟨hradio, hmain, hparams, hnow⟩

/-- Settles O60: a tick returns to the main context as it was, and no call or line changes the context. -/
theorem stepsEndInTheContextTheyBeganIn : Obligations.StepsEndInTheContextTheyBeganIn := by
  intro s t h
  rcases step_cases h with ⟨n, -, rfl⟩ | ⟨-, m, ms, -, hrun⟩ | ⟨-, -, -, -, n, rfl⟩ | ⟨-, -, i, rest, n, -, hexec⟩
  · rw [tick_main]
  · obtain ⟨-, -, hcontext, -⟩ := runMicros_callFrame hrun
    exact hcontext
  · rw [tick_main]
  · obtain ⟨-, -, hcontext, -⟩ := exec_callFrame hexec
    exact hcontext

/-! ### The calls that answer -/

/-- The checks at the entry of a call are among its checks. -/
theorem firstFault_entryChecks {i : Instr} {s : State} (h : firstFault (callChecks s i) = none) :
    firstFault (entryChecks s i) = none := by
  cases i with
  | initializeLines | configure | setMode | transmitPacket | receivePacket | hasData => exact h
  | _ => rfl

/-- Settles O47: an event always answers, and every other call runs its lines, which answer where its checks pass. -/
theorem callsInsideTheContractAnswer : Obligations.CallsInsideTheContractAnswer := by
  intro i s hw hc hchecks
  have hpass : firstFault (callChecks s i) = none := firstFault_none_iff.mpr hchecks
  obtain ⟨hruns, -⟩ := callBody_runsWith i s
  by_cases h1 : i = .timerEvent
  · subst h1; exact ⟨_, rfl⟩
  by_cases h2 : i = .edgeEvent
  · subst h2; exact ⟨_, rfl⟩
  cases hi : i.isHostOp with
  | true => rw [exec_host i s hi, hostCall_runs _ hc hw (firstFault_entryChecks hpass)]; exact hruns hpass
  | false => rw [exec_primitive i s hi h1 h2, if_pos hw]; exact hruns hpass

/-! ### The inbound bit -/

/-- The state after an inbound cell: the sample is taken, recorded and kept, then `CLK` pulses (43 R201). -/
theorem runMicros_clockInBit {k ms : List Micro} {s : State} (hs : s.main.stall = 0) (hp : s.env.pace = []) :
    runMicros k (clockInBit ++ ms) s = runMicros k ms
      (setLine .clk false (setLine .clk true { (sampleData s).2 with main.localB := (sampleData s).1 })) := by
  have hsample : microStep .sampleData s = .done { (sampleData s).2 with main.localB := (sampleData s).1 } := by
    rw [microStep, yield_of_pace_nil (by simpa)]
  rw [clockInBit, clockPulse, List.cons_append, runMicros_cons hsample (by simpa), List.cons_append,
    runMicros_set (by simpa) (by simpa), List.cons_append, runMicros_set (by simpa) (by simpa), List.nil_append]

/-- Settles O28: the sample stands before the pulse, and the direction of `DATA` says whose level it is. -/
theorem clockInBitSamplesThenPulses : Obligations.ClockInBitSamplesThenPulses := by
  rintro s ⟨-, hcont, hs, hp⟩
  have hexec : exec .clockInBit s = runMicros [] (clockInBit ++ [.retBit]) s := by
    rw [exec_primitive .clockInBit s rfl (by simp) (by simp), if_pos rfl, hcont, callBody]
  rw [hexec, runMicros_clockInBit hs hp, runMicros_cons rfl (by simpa [yield_of_pace_nil, hp]),
    yield_of_pace_nil (by simpa)]
  refine ⟨_, rfl, by simp, by simp, rfl, by simpa, fun hd => ?_, fun hd => ?_⟩
  · simp [sampleData, hd, inEntries, stampAll]
  · simp [sampleData, hd, inEntries, stampAll]

/-! ### The writers of the interrupt enables -/

/-- From `e` to `e'` the two enables change only for these reasons. -/
structure EnablesChange (setsEdge clearsEdge setsTimer clearsTimer : Prop) (e e' : Serial) : Prop where
  edgeSet : e.edgeEnable = false → e'.edgeEnable = true → setsEdge
  edgeCleared : e.edgeEnable = true → e'.edgeEnable = false → clearsEdge
  timerSet : e.timerEnable = false → e'.timerEnable = true → setsTimer
  timerCleared : e.timerEnable = true → e'.timerEnable = false → clearsTimer

section
variable {setsEdge clearsEdge setsTimer clearsTimer : Prop}

theorem EnablesChange.mono {setsEdge' clearsEdge' setsTimer' clearsTimer' : Prop} {e e' : Serial}
    (h : EnablesChange setsEdge clearsEdge setsTimer clearsTimer e e') (h1 : setsEdge → setsEdge')
    (h2 : clearsEdge → clearsEdge') (h3 : setsTimer → setsTimer') (h4 : clearsTimer → clearsTimer') :
    EnablesChange setsEdge' clearsEdge' setsTimer' clearsTimer' e e' :=
  ⟨fun a b => h1 (h.edgeSet a b), fun a b => h2 (h.edgeCleared a b), fun a b => h3 (h.timerSet a b),
    fun a b => h4 (h.timerCleared a b)⟩

/-- Enables that stay as they are need no reason. -/
theorem enablesChange_of_eq {e e' : Serial} (hedge : e'.edgeEnable = e.edgeEnable)
    (htimer : e'.timerEnable = e.timerEnable) : EnablesChange setsEdge clearsEdge setsTimer clearsTimer e e' := by
  constructor <;> simp_all

theorem EnablesChange.trans {a b c : Serial} (h : EnablesChange setsEdge clearsEdge setsTimer clearsTimer a b)
    (g : EnablesChange setsEdge clearsEdge setsTimer clearsTimer b c) :
    EnablesChange setsEdge clearsEdge setsTimer clearsTimer a c where
  edgeSet ha hc := by
    cases hb : b.edgeEnable
    · exact g.edgeSet hb hc
    · exact h.edgeSet ha hb
  edgeCleared ha hc := by
    cases hb : b.edgeEnable
    · exact h.edgeCleared ha hb
    · exact g.edgeCleared hb hc
  timerSet ha hc := by
    cases hb : b.timerEnable
    · exact g.timerSet hb hc
    · exact h.timerSet ha hb
  timerCleared ha hc := by
    cases hb : b.timerEnable
    · exact h.timerCleared ha hb
    · exact g.timerCleared hb hc

theorem enablesChange_isFrame :
    IsFrame fun s t => EnablesChange setsEdge clearsEdge setsTimer clearsTimer s.serial t.serial where
  trans := EnablesChange.trans
  cont := fun _ _ => enablesChange_of_eq rfl rfl

end

/-- Only the last line of an arming sets an enable, and no line clears one. -/
theorem microStep_enablesChange {m : Micro} {s t : State} (h : microStep m s = .done t ∨ microStep m s = .held t) :
    EnablesChange (m = .enableEdge) False (m = .armLead) False s.serial t.serial := by
  obtain ⟨-, -, -, htimer, hedge⟩ := microStep_enables h
  constructor <;> simp_all

theorem runMicros_enablesChange {k ms : List Micro} {s t : State} (h : runMicros k ms s = .next t) :
    EnablesChange (.enableEdge ∈ ms) False (.armLead ∈ ms) False s.serial t.serial :=
  enablesChange_isFrame.runMicros
    (fun _ hm _ _ hab => (microStep_enablesChange hab).mono (· ▸ hm) id (· ▸ hm) id) h

/-- The timer event clears its own enable where it completes its transfer, and changes no other (41 R133, R134). -/
theorem timerSerial_enablesChange (period : Nat) (level : Bit) (e : Serial) :
    EnablesChange False False False (completesTransfer e) e (timerSerial period level e) := by
  obtain ⟨-, hedge, -, hoff, hkeeps⟩ := timerSerial_frame period level e
  by_cases hdone : completesTransfer e
  · have htimer := hoff hdone
    constructor <;> simp_all
  · exact enablesChange_of_eq hedge (hkeeps hdone)

theorem deliverTimer_enablesChange (s : State) :
    EnablesChange False False False (timerEventDue s = true ∧ completesTransfer s.serial) s.serial
      (deliverTimer s).serial := by
  rw [deliverTimer_serial]
  split
  · next hdue => exact (timerSerial_enablesChange _ _ _).mono id id id fun hdone => ⟨hdue, hdone⟩
  · exact enablesChange_of_eq rfl rfl

theorem compareEvent_enablesChange (s : State) :
    EnablesChange False False False (s.env.timerFires = true ∧ timerEventDue s = true ∧ completesTransfer s.serial)
      s.serial (compareEvent s).serial := by
  unfold compareEvent
  split
  · next hfires => exact (deliverTimer_enablesChange s).mono id id id fun hdone => ⟨hfires, hdone⟩
  · exact enablesChange_of_eq rfl rfl

/-- The edge event hands over from its own enable to the timer's (41 R136). -/
theorem deliverEdge_enablesChange (s : State) :
    EnablesChange False (edgeEventDue s = true) (edgeEventDue s = true) False s.serial (deliverEdge s).serial := by
  rw [deliverEdge_serial]
  split
  · next hdue => exact ⟨by simp, fun _ _ => hdue, fun _ _ => hdue, by simp⟩
  · exact enablesChange_of_eq rfl rfl

/-- The timer event of a tick neither takes the edge event nor makes it due. -/
theorem edgeEventDue_compareEvent (s : State) : edgeEventDue (compareEvent s) = edgeEventDue s := by
  obtain ⟨-, -, -, -, henv, -⟩ := compareEvent_frame s
  have hedge : (compareEvent s).serial.edgeEnable = s.serial.edgeEnable := by
    rw [compareEvent_serial]
    split
    · exact (timerSerial_keeps _ _ _).edge
    · rfl
  rw [edgeEventDue, hedge, henv, edgeEventDue]

/-- A tick changes the enables by the events due at it. -/
theorem tick_enablesChange (s : State) :
    EnablesChange False (edgeEventDue (advanceClock s) = true) (edgeEventDue (advanceClock s) = true)
      (s.env.timerFires = true ∧ timerEventDue (advanceClock s) = true ∧ completesTransfer s.serial) s.serial
      (tick s).serial := by
  have hcompare := compareEvent_enablesChange (advanceClock s)
  have hedge := deliverEdge_enablesChange (compareEvent (advanceClock s))
  rw [edgeEventDue_compareEvent] at hedge
  exact (hcompare.mono id False.elim False.elim id).trans (hedge.mono id id id False.elim)

/-- Only the lines of `armReceive` set `EdgeEnable`. -/
theorem callBody_enableEdge {i : Instr} {s : State} (h : .enableEdge ∈ (callBody i s).1) : i = .armReceive := by
  by_contra hi
  have hnone : (callBody i s).1.all (fun m => decide (m ≠ .enableEdge)) = true :=
    callBody_all _ i s (fun _ _ _ => rfl) (fun _ _ => rfl) (fun _ _ => rfl) (fun _ => rfl) (fun _ => rfl)
      (fun _ _ => rfl) (fun _ => rfl) (fun _ => rfl) rfl (fun _ _ => rfl) (absurd · hi)
  simpa using List.all_eq_true.mp hnone _ h

/-- Only the lines of a transmission arm the timer. -/
theorem callBody_armLead {i : Instr} {s : State} (h : .armLead ∈ (callBody i s).1) :
    (∃ v, i = .transmitByte v) ∨ ∃ l, i = .writeLine l := by
  by_contra hi
  have hnone : (callBody i s).1.all (fun m => decide (m ≠ .armLead)) = true :=
    callBody_all _ i s (fun _ _ _ => rfl) (fun _ _ => rfl) (fun _ _ => rfl) (fun _ => rfl) (fun _ => rfl)
      (fun _ _ => rfl) (fun _ => rfl) (fun _ => rfl) rfl (absurd · hi) (fun _ => rfl)
  simpa using List.all_eq_true.mp hnone _ h

/-- The atomic part of a call changes no enable, but for the two primitives of the bit clock. -/
theorem callBody_enablesChange (i : Instr) (s : State) :
    EnablesChange False False (∃ d, i = .timerArm d) (i = .timerDisarm) s.serial (callBody i s).2.serial := by
  cases i with
  | timerArm d => exact ⟨by simp [callBody], by simp [callBody], fun _ _ => ⟨d, rfl⟩, by simp [callBody]⟩
  | timerDisarm => exact ⟨by simp [callBody], by simp [callBody], by simp [callBody], fun _ _ => rfl⟩
  | pollReceivedByte =>
    simp only [callBody, pollMailbox]
    split <;> exact enablesChange_of_eq rfl rfl
  | _ => exact enablesChange_of_eq (by simp [callBody]) (by simp [callBody])

/-- The reasons for which an operation changes an enable (60 R233). -/
theorem exec_enablesChange {i : Instr} {s t : State} (h : exec i s = .next t) :
    EnablesChange (i = .armReceive) (i = .edgeEvent ∧ edgeEventDue s = true)
      ((∃ d, i = .timerArm d) ∨ (∃ v, i = .transmitByte v) ∨ (∃ l, i = .writeLine l)
        ∨ (i = .edgeEvent ∧ edgeEventDue s = true))
      (i = .timerDisarm ∨ (i = .timerEvent ∧ timerEventDue s = true ∧ completesTransfer s.serial))
      s.serial t.serial := by
  by_cases h1 : i = .timerEvent
  · subst h1; cases h
    exact (deliverTimer_enablesChange s).mono False.elim False.elim False.elim fun hdone => .inr ⟨rfl, hdone⟩
  by_cases h2 : i = .edgeEvent
  · subst h2; cases h
    exact (deliverEdge_enablesChange s).mono False.elim (fun hdue => ⟨rfl, hdue⟩)
      (fun hdue => .inr (.inr (.inr ⟨rfl, hdue⟩))) False.elim
  have hbody := callBody_enablesChange i s
  have hlines := runMicros_enablesChange (exec_runMicros h1 h2 h)
  exact (hbody.mono False.elim False.elim .inl .inl).trans
    (hlines.mono callBody_enableEdge False.elim (fun hm => .inr ((callBody_armLead hm).imp_right .inl)) False.elim)

/-! ### The events of a step -/

/-- A step that ticks is a tick, but for the main context's own counters. -/
theorem step_of_stepTicks {s t : State} (h : step s = .next t) (hs : stepTicks s) :
    ∃ c : MainCtx, t = tick { s with main := c } := by
  rcases step_cases h with ⟨n, -, ht⟩ | ⟨hstall, m, ms, hcont, -⟩ | ⟨-, -, -, -, n, ht⟩ |
    ⟨hstall, -, i, rest, n, hnext, -⟩
  · exact ⟨_, ht⟩
  · rcases hs with hs | ⟨hnil, -, -⟩
    · omega
    · simp [hnil] at hcont
  · exact ⟨_, ht⟩
  · rcases hs with hs | ⟨-, -, hnone⟩
    · omega
    · simp [hnone] at hnext

/-- A step that calls an operation runs it, but for the host's own place in its script. -/
theorem step_of_nextCall {s t : State} {i : Instr} (h : step s = .next t) (hi : nextCall s = some i) :
    ∃ c : MainCtx, exec i { s with main := c } = .next t := by
  rcases step_cases h with ⟨n, hn, -⟩ | ⟨-, m, ms, hcont, -⟩ | ⟨-, -, -, hnone, -⟩ |
    ⟨-, -, j, rest, n, hnext, hexec⟩
  · simp [nextCall, hn] at hi
  · simp [nextCall, hcont] at hi
  · simp [hnone] at hi
  · cases hi.symm.trans hnext
    exact ⟨_, hexec⟩

/-- A due edge event leaves the edge source off and the timer on. -/
theorem deliverEdge_enables {s : State} (h : edgeEventDue s = true) :
    (deliverEdge s).serial.edgeEnable = false ∧ (deliverEdge s).serial.timerEnable = true := by
  rw [deliverEdge_of_due h]
  exact ⟨rfl, rfl⟩

theorem tick_enables_of_edgeEventDue {s : State} (h : edgeEventDue (advanceClock s) = true) :
    (tick s).serial.edgeEnable = false ∧ (tick s).serial.timerEnable = true := by
  rw [← edgeEventDue_compareEvent] at h
  exact deliverEdge_enables h

/-- A due timer event that completes its transfer leaves the timer off. -/
theorem deliverTimer_disables {s : State} (h : timerEventDue s = true) (hdone : completesTransfer s.serial) :
    (deliverTimer s).serial.timerEnable = false := by
  obtain ⟨-, -, -, hoff, -⟩ := timerSerial_frame s.params.bitPeriod s.env.rxd s.serial
  rw [deliverTimer_serial, if_pos h, hoff hdone]

theorem tick_disables_timer {s : State} (hfires : s.env.timerFires = true)
    (hdue : timerEventDue (advanceClock s) = true) (hdone : completesTransfer s.serial)
    (he : s.serial.edgeEnable = false) : (tick s).serial.timerEnable = false := by
  rw [(tick_of_edge_disabled he).1, compareEvent, advanceClock_env_timerFires, if_pos hfires]
  exact deliverTimer_disables hdue hdone

theorem step_enables_of_takesEdgeEvent {s t : State} (h : step s = .next t) (he : takesEdgeEvent s) :
    t.serial.edgeEnable = false ∧ t.serial.timerEnable = true := by
  rcases he with ⟨hticks, hdue⟩ | ⟨hnext, hdue⟩
  · obtain ⟨c, rfl⟩ := step_of_stepTicks h hticks
    exact tick_enables_of_edgeEventDue (s := { s with main := c }) hdue
  · obtain ⟨c, hexec⟩ := step_of_nextCall h hnext
    cases hexec
    exact deliverEdge_enables (s := { s with main := c }) hdue

theorem step_disables_of_takesTimerEvent {s t : State} (h : step s = .next t) (ht : takesTimerEvent s)
    (hdone : completesTransfer s.serial) (he : s.serial.edgeEnable = false) : t.serial.timerEnable = false := by
  rcases ht with ⟨hticks, hfires, hdue⟩ | ⟨hnext, hdue⟩
  · obtain ⟨c, rfl⟩ := step_of_stepTicks h hticks
    exact tick_disables_timer (s := { s with main := c }) hfires hdue hdone he
  · obtain ⟨c, hexec⟩ := step_of_nextCall h hnext
    cases hexec
    exact deliverTimer_disables (s := { s with main := c }) hdue hdone

/-- A step that ticks changes an enable by an event it takes. -/
theorem stepTicks_enablesChange {s : State} (hticks : stepTicks s) (c : MainCtx) :
    EnablesChange False (takesEdgeEvent s) (takesEdgeEvent s) (takesTimerEvent s ∧ completesTransfer s.serial) s.serial
      (tick { s with main := c }).serial :=
  (tick_enablesChange { s with main := c }).mono id (fun hdue => .inl ⟨hticks, hdue⟩) (fun hdue => .inl ⟨hticks, hdue⟩)
    fun ⟨hfires, hdue, hdone⟩ => ⟨.inl ⟨hticks, hfires, hdue⟩, hdone⟩

/-- The reasons for which a step changes an enable (60 R233). -/
theorem step_enablesChange {s t : State} (h : step s = .next t) :
    EnablesChange (nextCall s = some .armReceive ∨ .enableEdge ∈ s.main.cont) (takesEdgeEvent s)
      ((∃ d, nextCall s = some (.timerArm d)) ∨ (∃ v, nextCall s = some (.transmitByte v))
        ∨ (∃ l, nextCall s = some (.writeLine l)) ∨ .armLead ∈ s.main.cont ∨ takesEdgeEvent s)
      (nextCall s = some .timerDisarm ∨ (takesTimerEvent s ∧ completesTransfer s.serial)) s.serial t.serial := by
  rcases step_cases h with ⟨n, hn, rfl⟩ | ⟨-, m, ms, hcont, hrun⟩ | ⟨-, hcont, hscript, hnext, n, rfl⟩ |
    ⟨-, -, i, rest, n, hnext, hexec⟩
  · exact (stepTicks_enablesChange (.inl (by omega)) _).mono False.elim id (by simp +contextual) .inr
  · rw [hcont]
    exact (runMicros_enablesChange hrun).mono .inr False.elim (by simp +contextual) False.elim
  · exact (stepTicks_enablesChange (.inr ⟨hcont, hscript, hnext⟩) _).mono False.elim id (by simp +contextual) .inr
  · have hcall := exec_enablesChange hexec
    rw [hnext]
    refine hcall.mono (by simp +contextual) (fun ⟨hi, hdue⟩ => .inr ⟨hi ▸ hnext, hdue⟩) ?_ ?_
    · rintro (⟨d, rfl⟩ | ⟨v, rfl⟩ | ⟨l, rfl⟩ | ⟨rfl, hdue⟩)
      · simp
      · simp
      · simp
      · exact .inr (.inr (.inr (.inr (.inr ⟨hnext, hdue⟩))))
    · rintro (rfl | ⟨rfl, hdue, hdone⟩)
      · exact .inl rfl
      · exact .inr ⟨.inr ⟨hnext, hdue⟩, hdone⟩

/-- Settles O54: the reasons of an operation and of a step, and what a step that takes an event ends with. -/
theorem enableBitsChangeOnlyAsListed : Obligations.EnableBitsChangeOnlyAsListed := by
  refine ⟨fun i s t h => ?_, fun s t h => ?_⟩
  · obtain ⟨hset, hcleared, htimer, hoff⟩ := exec_enablesChange h
    exact ⟨hset, fun hs ht => (hcleared hs ht).1,
      fun hs ht => (htimer hs ht).imp_right (.imp_right (.imp_right And.left)),
      fun hs ht => (hoff hs ht).imp_right (.imp_right And.right)⟩
  · obtain ⟨hset, hcleared, htimer, hoff⟩ := step_enablesChange h
    exact ⟨hset, hcleared, htimer, hoff, step_enables_of_takesEdgeEvent h, step_disables_of_takesTimerEvent h⟩

end Sys2Proof.Machine

/-! The statements on the hazards of 70_reset_and_hazards: the misuse of the serial operations, the wait of
`receivePacket`, and `transmitPacket` under a schedule. -/

namespace Sys2Proof.Machine

open Sys2Proof

/-! ### Misuse of the serial operations -/

/-- A well-typed host operation called from the main context, whose entry checks pass, runs its lines in front of the
operation in progress. -/
theorem exec_host_lines {i : Instr} {s : State} (hi : i.isHostOp = true) (hc : s.main.context = .main)
    (hw : i.WellFormed s.params = true) (hf : firstFault (entryChecks s i) = none) :
    exec i s = runMicros s.main.cont (callBody i s).1 (callBody i s).2 := by
  rw [exec_host i s hi, hostCall_runs _ hc hw hf]

theorem execTransmitByte_lines {s : State} (hc : s.main.context = .main) (v : Byte) :
    exec (.transmitByte v) s = runMicros s.main.cont (transmitByteLines v ++ [.ret .done]) s :=
  exec_host_lines rfl hc rfl rfl

/-- `writeLine` begins with the lines of `transmitByte` for its first byte (41 R138). -/
theorem execWriteLine_lines {s : State} (hc : s.main.context = .main) (v : Byte) (text : List Byte) :
    exec (.writeLine (v :: text)) s =
      runMicros s.main.cont (transmitByteLines v ++ (text.flatMap transmitByteLines ++ [.ret .done])) s :=
  exec_host_lines rfl hc rfl rfl

theorem execArmReceive_lines {s : State} (hc : s.main.context = .main) :
    exec .armReceive s = runMicros s.main.cont (armReceiveLines ++ [.ret .done]) s :=
  exec_host_lines rfl hc rfl rfl

/-- A check whose condition holds faults, whatever the schedule. -/
theorem runMicros_check_faults {c : SerialCheck} {s : State} (h : serialCheckHolds c s = true) (f : Fault)
    (k ms : List Micro) : runMicros k (.check c f :: ms) s = .fault f := by
  rw [runMicros_check, if_pos h]

/-- The outcome of the checks of `transmitByte`, in the order of its lines. -/
theorem firstFault_transmitByteChecks (s : State) :
    firstFault (transmitByteChecks s) =
      if s.serial.txBusy = true then some .txReentry
      else if s.serial.timerEnable = true ∨ s.serial.edgeEnable = true then some .serialOverlap
      else none := by
  simp [transmitByteChecks, firstFault]

/-- The outcome of the checks of `armReceive`, in the order of its lines. -/
theorem firstFault_armReceiveChecks (s : State) :
    firstFault (armReceiveChecks s) =
      if s.serial.txBusy = true then some .serialOverlap
      else if s.serial.timerEnable = true then some .rearmMidByte
      else none := rfl

/-- Settles O43: the first lines fault under every schedule, the second lines in the reference time base. -/
theorem serialMisuseFaults : Obligations.SerialMisuseFaults := by
  intro v text s hc
  rw [execTransmitByte_lines hc, execWriteLine_lines hc, execArmReceive_lines hc]
  refine ⟨fun hb => ?_, fun hs hp hb harmed => ?_, fun hs hp hb ht => ?_⟩
  · have hbusy : serialCheckHolds .txBusy s = true := hb
    exact ⟨runMicros_check_faults hbusy _ _ _, runMicros_check_faults hbusy _ _ _, runMicros_check_faults hbusy _ _ _⟩
  · have hf : firstFault (transmitByteChecks s) = some .serialOverlap := by
      simp [firstFault_transmitByteChecks, hb, harmed]
    simp [runMicros_transmit v _ _ hs hp, hf]
  · have hf : firstFault (armReceiveChecks s) = some .rearmMidByte := by
      simp [firstFault_armReceiveChecks, hb, ht]
    simp [runMicros_arm _ _ hs hp, hf]

/-! ### The wait of `receivePacket` -/

/-- The wait of `receivePacket` whose sample finds `DR` active holds the call for a tick (log 11). -/
theorem runMicros_drActive {k ms : List Micro} {s : State} (hp : s.env.pace = []) (h : (answerDr s).1 = true) :
    runMicros k (.waitDrInactive :: ms) s =
      .next { (sampleDr s).2 with main.cont := .waitDrInactive :: ms ++ k, main.stall := 1 } := by
  have hactive : (sampleDr s).1 = Config.drActive := h
  have hturn : waitTurn (sampleDr s).2 = { (sampleDr s).2 with main.stall := 1 } := by simp [waitTurn, hp]
  simp only [runMicros, microStep, hactive, if_true, hturn]

/-- Settles O38: the call comes to its wait with the payload taken, and the first test holds it there. -/
theorem receivePacketHeldWhileDataReady : Obligations.ReceivePacketHeldWhileDataReady := by
  intro s hr hl hg hm hd hclk hbuf hdr
  obtain ⟨u, hexec, -, hnow, hserial, -, hreturns, hp, hanswer, hradio, -⟩ :=
    execReceivePacket_atWait hr hl hg hm hd hclk hbuf
  refine ⟨_, hexec.trans (runMicros_drActive hp (hanswer.trans hdr)), ?_⟩
  simp [hreturns, hnow, hserial, hradio]

theorem tick_drIn (s : State) : (tick s).env.drIn = s.env.drIn := by
  obtain ⟨-, -, -, -, henv, -⟩ := compareEvent_frame (advanceClock s)
  rw [tick, deliverEdge_env, henv]
  rfl

theorem answerDr_cons {s : State} {b : Bit} {r : List Bit} (h : s.env.drIn = b :: r) :
    answerDr s = (b, { s with env.drIn := r }) := by
  simp [answerDr, h]

/-- The main context is held at the wait of `receivePacket`, about to test, with `m` active answers to come. -/
structure HeldAtWait (m : Nat) (s : State) : Prop where
  cont : ∃ k, s.main.cont = .waitDrInactive :: k
  stall : s.main.stall = 0
  pace : s.env.pace = []
  answers : ∃ rest, s.env.drIn = List.replicate m true ++ rest

/-- A test that finds `DR` active: the call is held, and a tick passes before the next. -/
theorem HeldAtWait.step_active {m : Nat} {s : State} (h : HeldAtWait (m + 1) s) :
    ∃ t, step s = .next t ∧ t.main = { s.main with stall := 1 } ∧ t.radio = s.radio ∧ t.env.pace = []
      ∧ ∃ rest, t.env.drIn = List.replicate m true ++ rest := by
  obtain ⟨k, hc⟩ := h.cont
  obtain ⟨rest, hdr⟩ := h.answers
  have hanswer := answerDr_cons hdr
  refine ⟨_, (step_continues h.stall hc).trans (runMicros_drActive h.pace (by rw [hanswer])), ?_, ?_, ?_, rest, ?_⟩
  · simp [hc]
  · simp
  · simpa using h.pace
  · simp [sampleDr, hanswer]

/-- One turn of the wait: the test and its tick. -/
theorem HeldAtWait.turn {m : Nat} {s : State} (h : HeldAtWait (m + 1) s) :
    ∃ t, steps 2 s = .next t ∧ t.main = s.main ∧ t.radio = s.radio ∧ HeldAtWait m t := by
  obtain ⟨t, ht, hmain, hradio, hpace, rest, hdr⟩ := h.step_active
  obtain ⟨gradio, gmain, -⟩ := tick_frame { t with main.stall := 0 }
  have gmain : (tick { t with main.stall := 0 }).main = s.main := by rw [gmain, hmain, ← h.stall]
  refine ⟨tick { t with main.stall := 0 }, ?_, gmain, gradio.trans hradio, ?_⟩
  · rw [steps_add 1 ((steps_one s).trans ht), steps_one, step_stalled (by rw [hmain])]
  · exact ⟨by rw [gmain]; exact h.cont, by rw [gmain, h.stall], by rw [tick_pace]; exact hpace,
      rest, by rw [tick_drIn]; exact hdr⟩

/-- Any number of steps within the turns that find `DR` active. -/
theorem HeldAtWait.steps_held {n m : Nat} {s : State} (h : HeldAtWait m s) (hn : n ≤ 2 * m) :
    ∃ u, steps n s = .next u ∧ u.main.cont = s.main.cont ∧ u.main.returns = s.main.returns ∧ u.radio = s.radio := by
  induction m generalizing n s with
  | zero =>
    obtain rfl : n = 0 := by omega
    exact ⟨s, rfl, rfl, rfl, rfl⟩
  | succ m ih =>
    match n with
    | 0 => exact ⟨s, rfl, rfl, rfl, rfl⟩
    | 1 =>
      obtain ⟨t, ht, hmain, hradio, -⟩ := h.step_active
      exact ⟨t, (steps_one s).trans ht, by rw [hmain], by rw [hmain], hradio⟩
    | n + 2 =>
      obtain ⟨t, ht, hmain, hradio, hheld⟩ := h.turn
      obtain ⟨u, hu, hcont, hreturns, huradio⟩ := ih hheld (n := n) (by omega)
      rw [Nat.add_comm n 2, steps_add n ht]
      exact ⟨u, hu, by rw [hcont, hmain], by rw [hreturns, hmain], huradio.trans hradio⟩

/-- Settles O40: by the turns of the wait, each two steps with one active answer. -/
theorem receiveWaitIsUnbounded : Obligations.ReceiveWaitIsUnbounded := fun _ _ _ k rest hn hc hs hp hdr =>
  HeldAtWait.steps_held ⟨⟨k, hc⟩, hs, hp, ⟨rest, hdr⟩⟩ hn

/-! ### `transmitPacket` under a schedule -/

/-- The lines `ms`, begun in `s`, are done in `u`, with what ticks the schedule lets pass between and after them. -/
def Completes (ms : List Micro) (s u : State) : Prop :=
  ∃ (t : State) (n : Nat), runMicros [] ms s = .next t ∧ steps n t = .next u

/-- A main context about to run the lines in progress does so step by step. -/
theorem Completes.exists_steps {ms : List Micro} {s u : State} (h : Completes ms s u) (hs : s.main.stall = 0)
    (hc : s.main.cont = ms) : ∃ n, steps n s = .next u := by
  obtain ⟨t, n, ht, hn⟩ := h
  cases ms with
  | nil =>
    have hsame : { s with main.cont := [] } = s := by rw [← hc]
    rw [runMicros, hsame] at ht
    cases ht
    exact ⟨n, hn⟩
  | cons m ms =>
    have hstep : steps 1 s = .next t := by rw [steps_one, step_continues hs hc, ht]
    exact ⟨1 + n, by rw [steps_add n hstep, hn]⟩

theorem appendsRadio_nil {s t : State} (h : t.trace = s.trace) : AppendsRadio [] s t := ⟨[], by simp [h], rfl⟩

/-- A line that runs, the ticks after it, and a state `w` from which the rest is to be done. -/
theorem completes_cons {m : Micro} {s s' : State} (ms : List Micro) (h : microStep m s = .done s') :
    ∃ w : State, w.main.returns = s'.main.returns ∧ w.radio = s'.radio ∧ AppendsRadio [] s' w
      ∧ ∀ u, Completes ms w u → Completes (m :: ms) s u := by
  by_cases hs : s'.main.stall = 0
  · refine ⟨s', rfl, rfl, appendsRadio_nil rfl, fun u ⟨t, n, ht, hn⟩ => ⟨t, n, ?_, hn⟩⟩
    rw [runMicros_cons h hs, ht]
  · obtain ⟨w, hw, -, hmain, hradio, -, -, htrace⟩ := steps_stall (s := { s' with main.cont := ms }) rfl
    refine ⟨w, by rw [hmain], hradio, htrace, fun u hu => ?_⟩
    obtain ⟨n, hn⟩ := hu.exists_steps (by rw [hmain]) (by rw [hmain])
    refine ⟨{ s' with main.cont := ms }, s'.main.stall + n, ?_, ?_⟩
    · simp [runMicros, h, Nat.pos_of_ne_zero hs]
    · rw [steps_add n hw, hn]

/-- A line of `transmitPacket`: it writes an output line or `PacketBuffer`, or returns. -/
def outboundLine : Micro → Bool
  | .set l _ => decide (l ≠ .txd)
  | .setFromBuffer _ _ | .bufferWrite _ _ | .ret _ => true
  | _ => false

theorem transmitPacket_outboundLines (buffer : List Byte) (s : State) :
    (callBody (.transmitPacket buffer) s).1.all outboundLine = true := by
  simp only [callBody, transmitPacketLines, List.all_append]
  rw [all_bufferWrites fun _ _ => rfl, all_flatMap_of fun _ => rfl]
  rfl

/-- The radio driver and the results are the same in both states: all that the lines of `transmitPacket` read and write,
besides the line trace. -/
structure SameDriver (a b : State) : Prop where
  radio : a.radio = b.radio
  returns : a.main.returns = b.main.returns

theorem setLine_appendsRadio {l : OutLine} (hl : l ≠ .txd) (v : Bit) (s : State) :
    AppendsRadio [.set l v] s (yield (setLine l v s)) :=
  appendsRadio_of_trace (by simp [stampAll]) (by cases l <;> simp_all [isRadioEntry])

/-- A line of `transmitPacket` does the same to both, whatever else differs. -/
theorem SameDriver.outbound {a b : State} (h : SameDriver a b) {m : Micro} (hm : outboundLine m = true) :
    ∃ a' b' es, microStep m a = .done a' ∧ microStep m b = .done b' ∧ SameDriver a' b'
      ∧ AppendsRadio es a a' ∧ AppendsRadio es b b' := by
  obtain ⟨hradio, hreturns⟩ := h
  cases m <;> simp only [outboundLine, Bool.false_eq_true, decide_eq_true_eq] at hm
  case set l v =>
    refine ⟨_, _, [.set l v], rfl, rfl, ⟨?_, by simp [hreturns]⟩, setLine_appendsRadio hm v a,
      setLine_appendsRadio hm v b⟩
    cases l <;> simp [hradio]
  case setFromBuffer i j =>
    have hread : bufferRead i a = bufferRead i b := by rw [bufferRead, hradio, bufferRead]
    rw [microStep, microStep, hread]
    exact ⟨_, _, _, rfl, rfl, ⟨by simp [hradio], by simp [hreturns]⟩, setLine_appendsRadio (by simp) _ a,
      setLine_appendsRadio (by simp) _ b⟩
  case bufferWrite i v =>
    exact ⟨_, _, [], rfl, rfl, ⟨by simp [bufferWrite, hradio], by simp [hreturns]⟩, appendsRadio_nil (by simp),
      appendsRadio_nil (by simp)⟩
  case ret r =>
    exact ⟨_, _, [], rfl, rfl, ⟨by simp [hradio], by simp [hreturns]⟩, appendsRadio_nil (by simp),
      appendsRadio_nil (by simp)⟩

theorem outboundLine_not_delay {m : Micro} (hm : outboundLine m = true) (p : DelayParam) : m ≠ .delay p := by
  rintro rfl
  cases hm

/-- Noninterference (R286): lines of `transmitPacket` that are done in `b'` without a schedule are done, whatever the
schedule, with the same driver, results and entries. -/
theorem SameDriver.completes {ms : List Micro} {a b b' : State} (h : SameDriver a b)
    (hms : ∀ m ∈ ms, outboundLine m = true) (hs : b.main.stall = 0) (hp : b.env.pace = [])
    (hb : runMicros [] ms b = .next b') :
    ∃ u es, Completes ms a u ∧ u.main.cont = [] ∧ SameDriver u b' ∧ AppendsRadio es a u ∧ AppendsRadio es b b' := by
  induction ms generalizing a b with
  | nil =>
    cases hb
    exact ⟨_, [], ⟨_, 0, rfl, rfl⟩, rfl, ⟨h.radio, h.returns⟩, appendsRadio_nil rfl, appendsRadio_nil rfl⟩
  | cons m ms ih =>
    have hm : outboundLine m = true := hms m (by simp)
    obtain ⟨a₁, b₁, es, ha₁, hb₁, h₁, haes, hbes⟩ := h.outbound hm
    obtain ⟨hp₁, hstall⟩ := microStep_reference hp hb₁
    have hs₁ : b₁.main.stall = 0 := (hstall (outboundLine_not_delay hm)).trans hs
    obtain ⟨w, hreturns, hradio, hticks, hrest⟩ := completes_cons ms ha₁
    rw [runMicros_cons hb₁ hs₁] at hb
    obtain ⟨u, es', hu, hcont, hsame, haes', hbes'⟩ :=
      ih (a := w) ⟨hradio.trans h₁.radio, hreturns.trans h₁.returns⟩ (fun m hm => hms m (by simp [hm])) hs₁ hp₁ hb
    exact ⟨u, es ++ es', hrest u hu, hcont, hsame, by simpa using (haes.trans hticks).trans haes', hbes.trans hbes'⟩

/-- Settles O42: the stream is that of the same call without a schedule, which O35 gives. -/
theorem preemptionLeavesPacketStreamAlone : Obligations.PreemptionLeavesPacketStreamAlone := by
  intro buffer s hctx hcont hs hl hg hm hlen hbuf
  have hf : firstFault (packetChecks .transmit s) = none := by simp [firstFault_packetChecks, hl, hg, hm]
  have hlines (p : List Nat) : exec (.transmitPacket buffer) { s with env.pace := p }
      = runMicros [] (callBody (.transmitPacket buffer) s).1 { s with env.pace := p } :=
    exec_host_runs (.transmitPacket buffer) rfl hctx hcont (decide_eq_true hlen) hf
  have hreference := transmitPacketSendsAddressAndPayload buffer { s with env.pace := [] } ⟨hctx, hcont, hs, rfl⟩ hl hg
    hm hlen hbuf
  have hsame : SameDriver s { s with env.pace := [] } := ⟨rfl, rfl⟩
  obtain ⟨u, es, ⟨t, n, ht, hn⟩, hucont, hu, haes, hbes⟩ :=
    hsame.completes (List.all_eq_true.mp (transmitPacket_outboundLines buffer s)) hs rfl
      ((hlines []).symm.trans hreference)
  refine ⟨t, n, u, (hlines s.env.pace).trans ht, hn, hucont, hu.returns, hu.radio, ?_⟩
  rw [haes.radioEntries_eq, ← hbes.radioEntries_eq]
  exact (appendsRadio_of_trace rfl (by
    simpa [or_imp, forall_and, isRadioEntry] using outEntries_isRadio _)).radioEntries_eq

end Sys2Proof.Machine

/-! The statements on the invariants (10_state section 7): the serial invariants over every step, whatever the schedule,
and the reach of the timer. -/

namespace Sys2Proof.Machine

open Sys2Proof

/-! ### The serial invariants and the two events -/

/-- A timer event keeps the serial invariants, and an engine that is not busy stays so. -/
theorem timerSerial_serialInv {e : Serial} (h : SerialInv e) (ht : e.timerEnable = true) (period : Nat) (level : Bit) :
    SerialInv (timerSerial period level e) ∧ (e.txBusy = false → (timerSerial period level e).txBusy = false) := by
  obtain ⟨hone, hbusy, -, hsync, hrx, htx⟩ := h
  have hoff : e.edgeEnable = false := by simpa [ht] using hone
  cases hm : e.mode with
  | tx =>
    obtain ⟨hbits, hb⟩ := htx ht hm
    have hs : e.rxSync = false := by simpa [hm] using hsync
    refine ⟨?_, by simp [hb]⟩
    simp only [timerSerial, hm]
    split_ifs <;> simp [SerialInv, hb, hs, hoff, ht]
    omega
  | rx =>
    have hbits := hrx ht hm
    have hb : e.txBusy = false := by simpa [hm] using hbusy
    refine ⟨?_, fun _ => ((timerSerial_keeps period level e).transmitter hm).2.1.trans hb⟩
    simp only [timerSerial, hm]
    split_ifs with hs
    · simp [SerialInv, hb, hoff, ht, hbits]
    · simp [SerialInv, hb, hoff, ht, hs]; omega
    · simp [SerialInv, hb, hoff, hs]

/-- The edge event, where it is due, finds the engine armed and starts a reception: the serial invariants are kept. -/
theorem deliverEdge_serialInv {s : State} (h : SerialInv s.serial) : SerialInv (deliverEdge s).serial := by
  by_cases hdue : edgeEventDue s = true
  · obtain ⟨-, hbusy, hedge, -, -, -⟩ := h
    have hon : s.serial.edgeEnable = true := by simp_all [edgeEventDue]
    obtain ⟨hm, hi, -⟩ := hedge hon
    have hb : s.serial.txBusy = false := by simpa [hon] using hbusy
    simp [deliverEdge_of_due hdue, SerialInv, hm, hi, hb]
  · rwa [deliverEdge_serial, if_neg hdue]

theorem deliverEdge_txBusy (s : State) : (deliverEdge s).serial.txBusy = s.serial.txBusy := by
  rw [deliverEdge_eq_overlay]

/-! ### The stages of an arming -/

/-- Between two lines of an arming the timer is off. -/
theorem stageHolds_inArming {g : Stage} {e : Serial} (h : stageHolds g e) (h1 : g ≠ .rest) (h2 : g ≠ .notBusy) :
    e.timerEnable = false := by
  cases g <;> simp_all [stageHolds]

/-- The compare event keeps every stage: between two lines of an arming the timer is off. -/
theorem compareEvent_stageHolds {g : Stage} {s : State} (h : stageHolds g s.serial) :
    stageHolds g (compareEvent s).serial := by
  rw [compareEvent_serial]
  split
  · next hdue =>
    have ht : s.serial.timerEnable = true := by simp_all [timerEventDue]
    by_cases h1 : g = .rest
    · subst h1
      exact (timerSerial_serialInv h ht _ _).1
    by_cases h2 : g = .notBusy
    · subst h2
      obtain ⟨hinv, hb⟩ := h
      obtain ⟨hinv', hb'⟩ := timerSerial_serialInv hinv ht s.params.bitPeriod s.env.rxd
      exact ⟨hinv', hb' hb⟩
    · simp [stageHolds_inArming h h1 h2] at ht
  · exact h

/-- The edge event keeps the stages outside an arming. -/
theorem deliverEdge_stageHolds {g : Stage} {s : State} (h : stageHolds g s.serial)
    (hg : (g = .rest ∨ g = .notBusy) ∨ edgeEventDue s = false) : stageHolds g (deliverEdge s).serial := by
  rcases hg with (rfl | rfl) | hnone
  · exact deliverEdge_serialInv h
  · exact ⟨deliverEdge_serialInv h.1, (deliverEdge_txBusy s).trans h.2⟩
  · rwa [deliverEdge_serial, hnone]

/-- A line of an operation, seen from outside an arming: the check that may begin one, or a line of no arming. -/
theorem stageStep_rest {m : Micro} {g : Stage} (h : stageStep .rest m = some g) :
    (∃ f, m = .check .txBusy f ∧ g = .notBusy) ∨ (isCheck m = false ∧ armingLine m = false ∧ g = .rest) := by
  simp only [stageStep] at h
  split at h
  · next hm =>
    cases h
    exact .inl (hm.elim (fun hm => ⟨_, hm, rfl⟩) fun hm => ⟨_, hm, rfl⟩)
  · cases m <;> simp_all [isCheck, armingLine]

/-- The lines still to run that do not begin with a line of an arming are outside one. -/
theorem stage_of_outsideArming {g : Stage} {ms : List Micro} (h : stageRun g ms = true)
    (ho : ∀ m, ms.head? = some m → armingLine m = false) : g = .rest ∨ g = .notBusy := by
  cases ms with
  | nil => exact .inl (of_decide_eq_true h)
  | cons m ms =>
    have hm := ho m rfl
    simp only [stageRun] at h
    split at h
    · next g' hg =>
      unfold stageStep at hg
      split at hg
      case h_1 => exact .inl rfl
      case h_2 => exact .inr rfl
      case h_3 => exact .inr rfl
      all_goals simp_all [armingLine]
    · cases h

/-- Lines that begin outside an arming begin with no line of one. -/
theorem head_of_stage_rest {ms : List Micro} (h : stageRun .rest ms = true) :
    ∀ m, ms.head? = some m → armingLine m = false := by
  rintro m hm
  obtain ⟨ms, rfl⟩ : ∃ l, ms = m :: l := by cases ms <;> simp_all
  simp only [stageRun] at h
  split at h
  · next hg =>
    rcases stageStep_rest hg with ⟨f, rfl, -⟩ | ⟨-, harm, -⟩
    · rfl
    · exact harm
  · cases h

/-- Outside an arming the serial invariants hold. -/
theorem SerialOrder.serialInv {s : State} (h : SerialOrder s) (ho : outsideArming s) : SerialInv s.serial := by
  obtain ⟨g, hrun, hholds⟩ := h
  rcases stage_of_outsideArming hrun ho with rfl | rfl
  · exact hholds
  · exact hholds.1

/-- A tick keeps the order of the arming lines, unless it takes an edge event between two of them. -/
theorem SerialOrder.tick {s : State} (h : SerialOrder s)
    (hev : outsideArming s ∨ edgeEventDue (advanceClock s) = false) : SerialOrder (tick s) := by
  obtain ⟨g, hrun, hholds⟩ := h
  refine ⟨g, by rwa [tick_main], deliverEdge_stageHolds (compareEvent_stageHolds (s := advanceClock s) hholds) ?_⟩
  rw [edgeEventDue_compareEvent]
  exact hev.imp_left (stage_of_outsideArming hrun)

/-! ### The lines of the operations -/

/-- A line of no arming writes nothing of the serial engine but the level of `TXD`. -/
theorem microStep_serial_eq_overlay {m : Micro} {s t : State} (hm : armingLine m = false)
    (h : microStep m s = .done t ∨ microStep m s = .held t) : t.serial = { s.serial with txd := t.serial.txd } := by
  by_cases hx : sparesTxd m = true
  · rw [microStep_serial hm hx h]
  · obtain ⟨v, rfl⟩ : ∃ v, m = .set .txd v := by
      cases m <;> simp [sparesTxd] at hx
      case set l v => cases l <;> simp_all
    rcases h with h | h <;> cases h
    simp

/-- A check that does not fault found its condition not to hold, and only yields. -/
theorem microStep_check_done {c : SerialCheck} {f : Fault} {s t : State} (h : microStep (.check c f) s = .done t) :
    serialCheckHolds c s = false ∧ t.serial = s.serial := by
  simp only [microStep] at h
  split at h <;> cases h
  exact ⟨by simp_all, yield_serial s⟩

/-- A line that runs leads from a stage to the next. -/
theorem microStep_stageHolds {g g' : Stage} {m : Micro} {s t : State} (hg : stageStep g m = some g')
    (h : microStep m s = .done t) (hholds : stageHolds g s.serial) : stageHolds g' t.serial := by
  unfold stageStep at hg
  split at hg
  case h_1 =>
    rcases stageStep_rest (g := g') (by simpa only [stageStep] using hg) with ⟨f, rfl, rfl⟩ | ⟨-, harm, rfl⟩
    · obtain ⟨hb, hserial⟩ := microStep_check_done h
      exact hserial ▸ ⟨hholds, hb⟩
    · rw [microStep_serial_eq_overlay harm (.inl h)]
      exact hholds
  case h_2 =>
    cases hg
    obtain ⟨hoff, hserial⟩ := microStep_check_done h
    obtain ⟨⟨-, -, -, hsync, -, -⟩, hb⟩ := hholds
    rw [hserial]
    simp_all [stageHolds, serialCheckHolds]
  case h_3 =>
    cases hg
    obtain ⟨hoff, hserial⟩ := microStep_check_done h
    exact hserial ▸ ⟨hholds.1, hholds.2, hoff⟩
  case h_13 => cases hg
  all_goals
    cases hg
    cases h
    simp_all [stageHolds, SerialInv]

/-- A line that holds the main context is a wait: it writes nothing of the serial engine. -/
theorem microStep_held {m : Micro} {s t : State} (h : microStep m s = .held t) :
    armingLine m = false ∧ t.serial = s.serial ∧ (s.env.pace = [] → t.env.pace = []) := by
  have hpace {u : State} (hu : u.env.pace = []) : (waitTurn u).env.pace = [] := by simp [waitTurn, hu]
  cases m <;> simp only [microStep] at h <;> (try split at h) <;> cases h
  · exact ⟨rfl, by simp, hpace⟩
  · exact ⟨rfl, by simp, fun hp => hpace (by simpa)⟩

/-- A run of lines in the order of the stages, however far it gets, keeps that order. -/
theorem runMicros_serialOrder {g : Stage} {ms : List Micro} {s t : State} (hrun : stageRun g ms = true)
    (hholds : stageHolds g s.serial) (h : runMicros [] ms s = .next t) : SerialOrder t := by
  induction ms generalizing g s with
  | nil => cases h; exact ⟨g, hrun, hholds⟩
  | cons m ms ih =>
    have hall := hrun
    simp only [stageRun] at hrun
    split at hrun
    · next g' hg =>
      unfold runMicros at h
      split at h
      · next s' hm =>
        have hholds' := microStep_stageHolds hg hm hholds
        split at h
        · cases h; exact ⟨g', by simpa, hholds'⟩
        · exact ih hrun hholds' h
      · next s' hm =>
        obtain ⟨-, hserial, -⟩ := microStep_held hm
        cases h
        exact ⟨g, by simpa, by simpa [hserial]⟩
      · cases h
    · cases hrun

/-- In the reference time base a run of lines in the order of the stages does not stop inside an arming: it stops at a
delay, at a wait or at its end. -/
theorem runMicros_outsideArming {g : Stage} {ms : List Micro} {s t : State} (hrun : stageRun g ms = true)
    (hs : s.main.stall = 0) (hp : s.env.pace = []) (h : runMicros [] ms s = .next t) :
    t.env.pace = [] ∧ outsideArming t := by
  induction ms generalizing g s with
  | nil => cases h; exact ⟨hp, by simp [outsideArming]⟩
  | cons m ms ih =>
    simp only [stageRun] at hrun
    split at hrun
    · next g' hg =>
      unfold runMicros at h
      split at h
      · next s' hm =>
        obtain ⟨hp', hstall⟩ := microStep_reference hp hm
        split at h
        · next hpos =>
          obtain ⟨p, rfl⟩ : ∃ p, m = .delay p := by
            by_contra hne
            rw [hstall (fun p hd => hne ⟨p, hd⟩), hs] at hpos
            exact absurd hpos (lt_irrefl 0)
          obtain rfl : g' = .rest := by cases g <;> simp_all [stageStep, armingLine]
          cases h
          exact ⟨hp', by simpa [outsideArming] using head_of_stage_rest hrun⟩
        · exact ih hrun (by omega) hp' h
      · next s' hm =>
        obtain ⟨harm, -, hpace⟩ := microStep_held hm
        cases h
        exact ⟨hpace hp, by simpa [outsideArming]⟩
      · cases h
    · cases hrun

/-! ### The calls -/

/-- Lines of no arming, and no checks, stay outside an arming. -/
theorem stageRun_of_plain {ms : List Micro} (h : ∀ m ∈ ms, stageStep .rest m = some .rest) :
    stageRun .rest ms = true := by
  induction ms with
  | nil => rfl
  | cons m ms ih =>
    simp only [stageRun, h m (by simp)]
    exact ih fun m' hm' => h m' (by simp [hm'])

theorem stageRun_writeLine (text : List Byte) :
    stageRun .rest (text.flatMap transmitByteLines ++ [.ret .done]) = true := by
  induction text with
  | nil => rfl
  | cons v vs ih => exact ih

/-- The lines of every call are in the order of the stages. -/
theorem callBody_stageRun (i : Instr) (s : State) : stageRun .rest (callBody i s).1 = true := by
  by_cases h1 : ∃ v, i = .transmitByte v
  · obtain ⟨v, rfl⟩ := h1
    rfl
  by_cases h2 : ∃ text, i = .writeLine text
  · obtain ⟨text, rfl⟩ := h2
    exact stageRun_writeLine text
  by_cases h3 : i = .armReceive
  · subst h3
    rfl
  have hplain : (callBody i s).1.all (fun m => decide (stageStep .rest m = some .rest)) = true :=
    callBody_all _ i s (fun _ _ _ => rfl) (fun _ _ => rfl) (fun _ _ => rfl) (fun _ => rfl) (fun _ => rfl)
      (fun _ _ => rfl) (fun _ => rfl) (fun _ => rfl) rfl (fun h => absurd h (not_or.mpr ⟨h1, h2⟩)) (absurd · h3)
  exact stageRun_of_plain (by simpa using hplain)

/-- The atomic part of a host operation writes nothing of the serial engine but `ReceivedFlag`, and leaves the schedule
and the main context alone. -/
theorem callBody_atomic {i : Instr} (hi : i.isHostOp = true) (s : State) :
    (callBody i s).2.serial = { s.serial with receivedFlag := (callBody i s).2.serial.receivedFlag }
      ∧ (callBody i s).2.env.pace = s.env.pace ∧ (callBody i s).2.main = s.main := by
  cases i <;> simp only [Instr.isHostOp, Bool.false_eq_true] at hi
  case pollReceivedByte => simp only [callBody, pollMailbox]; split <;> exact ⟨rfl, rfl, rfl⟩
  all_goals simp [callBody]

/-- A host operation called between two operations keeps the order of the arming lines. -/
theorem exec_serialOrder {i : Instr} {s t : State} (hi : i.isHostOp = true) (hc : s.main.cont = [])
    (hinv : SerialInv s.serial) (h : exec i s = .next t) : SerialOrder t := by
  have hrun := exec_runMicros (by rintro rfl; cases hi) (by rintro rfl; cases hi) h
  obtain ⟨hserial, -, -⟩ := callBody_atomic hi s
  rw [hc] at hrun
  refine runMicros_serialOrder (g := .rest) (callBody_stageRun i s) ?_ hrun
  rw [hserial]
  exact hinv

/-- A host operation called between two operations in the reference time base stops outside an arming. -/
theorem exec_outsideArming {i : Instr} {s t : State} (hi : i.isHostOp = true) (hc : s.main.cont = [])
    (hs : s.main.stall = 0) (hp : s.env.pace = []) (h : exec i s = .next t) : t.env.pace = [] ∧ outsideArming t := by
  have hrun := exec_runMicros (by rintro rfl; cases hi) (by rintro rfl; cases hi) h
  obtain ⟨-, hpace, hmain⟩ := callBody_atomic hi s
  rw [hc] at hrun
  exact runMicros_outsideArming (callBody_stageRun i s) (by rw [hmain, hs]) (by rw [hpace, hp]) hrun

/-! ### The steps -/

theorem serialInv_of_cont_nil {s : State} (h : SerialOrder s) (hc : s.main.cont = []) : SerialInv s.serial :=
  h.serialInv (by simp [outsideArming, hc])

/-- A step that ticks and takes no edge event finds none due at its tick. -/
theorem edgeEventDue_of_stepTicks {s : State} (h : stepTicks s) (he : outsideArming s ∨ ¬takesEdgeEvent s) :
    outsideArming s ∨ edgeEventDue (advanceClock s) = false :=
  he.imp_right fun hn => Bool.eq_false_iff.mpr fun hdue => hn (.inl ⟨h, hdue⟩)

/-- Every step keeps the order of the arming lines, unless it takes an edge event between two of them. -/
theorem step_serialOrder {s t : State} (hkeeps : HostKeeps s) (h : step s = .next t) (hord : SerialOrder s)
    (he : outsideArming s ∨ ¬takesEdgeEvent s) : SerialOrder t := by
  rcases step_cases h with ⟨n, hn, rfl⟩ | ⟨-, m, ms, hc, hrun⟩ | ⟨-, hc, hscript, hnone, n, rfl⟩ |
    ⟨-, hc, i, rest, n, hi, hexec⟩
  · exact SerialOrder.tick (s := { s with main.stall := n }) hord
      (edgeEventDue_of_stepTicks (s := s) (.inl (by omega)) he)
  · obtain ⟨g, hg, hholds⟩ := hord
    exact runMicros_serialOrder (hc ▸ hg) hholds hrun
  · exact SerialOrder.tick (s := { s with main.hostTurns := n }) hord
      (edgeEventDue_of_stepTicks (s := s) (.inr ⟨hc, hscript, hnone⟩) he)
  · exact exec_serialOrder (s := { s with main.script := rest, main.hostTurns := n }) (hkeeps i hi) hc
      (serialInv_of_cont_nil hord hc) hexec

/-- In the reference time base no step that begins outside an arming ends inside one. -/
theorem step_outsideArming {s t : State} (hkeeps : HostKeeps s) (h : step s = .next t) (hord : SerialOrder s)
    (hp : s.env.pace = []) (ho : outsideArming s) : t.env.pace = [] ∧ outsideArming t := by
  rcases step_cases h with ⟨n, -, rfl⟩ | ⟨hs, m, ms, hc, hrun⟩ | ⟨-, -, -, -, n, rfl⟩ | ⟨hs, hc, i, rest, n, hi, hexec⟩
  · exact ⟨by rw [tick_pace]; exact hp, by rw [outsideArming, tick_main]; exact ho⟩
  · obtain ⟨g, hg, -⟩ := hord
    exact runMicros_outsideArming (hc ▸ hg) hs hp hrun
  · exact ⟨by rw [tick_pace]; exact hp, by rw [outsideArming, tick_main]; exact ho⟩
  · exact exec_outsideArming (s := { s with main.script := rest, main.hostTurns := n }) (hkeeps i hi) hc hs hp hexec

/-! ### The reach of the timer -/

/-- The parameters are legal, and a due time of the running timer lies ahead and within their reach. -/
def ReachInv (s : State) : Prop := s.params.Legal ∧ TimerWithinReach s

/-- What leaves the parameters, the time and the timer registers alone keeps the reach. -/
theorem ReachInv.of_eq {s t : State} (h : ReachInv s) (hparams : t.params = s.params) (hnow : t.now = s.now)
    (htimer : t.serial.timerEnable = s.serial.timerEnable) (hdue : t.serial.timerDue = s.serial.timerDue) :
    ReachInv t := by
  rwa [ReachInv, TimerWithinReach, hparams, hnow, htimer, hdue]

/-- An arming for a positive number of ticks within the reach. -/
theorem reachInv_of_armed {s : State} {d : Nat} (hl : s.params.Legal) (hdue : s.serial.timerDue = s.now + d)
    (hpos : 0 < d) (hd : d ≤ s.params.reach) : ReachInv s :=
  ⟨hl, fun _ => by omega⟩

/-- Only the last line of `transmitByte` before its wait writes the timer registers. -/
theorem microStep_timerDue {m : Micro} {s t : State} (hm : m ≠ .armLead)
    (h : microStep m s = .done t ∨ microStep m s = .held t) : t.serial.timerDue = s.serial.timerDue := by
  by_cases harm : armingLine m = false
  · rw [microStep_serial_eq_overlay harm h]
  · cases m <;> simp only [armingLine, not_true_eq_false] at harm
    case armLead => exact absurd rfl hm
    all_goals
      rcases h with h | h <;> cases h
      simp

theorem microStep_reachInv {m : Micro} {s t : State} (hinv : ReachInv s)
    (h : microStep m s = .done t ∨ microStep m s = .held t) : ReachInv t := by
  by_cases hm : m = .armLead
  · subst hm
    obtain ⟨hl, -⟩ := hinv
    have ⟨_, _, _, hlead, _⟩ := hl
    rcases h with h | h <;> cases h
    exact reachInv_of_armed (by simpa using hl) (by simp) hlead (by simp [Params.reach])
  · obtain ⟨hparams, hnow, -⟩ := microStep_frame h
    obtain ⟨-, -, -, htimer, -⟩ := microStep_enables h
    exact hinv.of_eq hparams hnow (by simpa [hm] using htimer) (microStep_timerDue hm h)

theorem exec_reachInv {i : Instr} {s t : State} (hi : i.isHostOp = true) (hinv : ReachInv s) (h : exec i s = .next t) :
    ReachInv t := by
  have hrun := exec_runMicros (by rintro rfl; cases hi) (by rintro rfl; cases hi) h
  obtain ⟨hserial, -, -⟩ := callBody_atomic hi s
  obtain ⟨hparams, hnow, -⟩ := callBody_callFrame i s
  have hbody := hinv.of_eq hparams hnow (by rw [hserial]) (by rw [hserial])
  exact runMicros_keeps ReachInv _ (fun _ _ h => h) (fun _ _ _ _ h hab => microStep_reachInv h hab) hbody hrun

theorem timerEventDue_advanceClock_iff (s : State) :
    timerEventDue (advanceClock s) = true ↔ s.serial.timerEnable = true ∧ s.now + 1 = s.serial.timerDue := by
  rw [timerEventDue, Bool.and_eq_true, decide_eq_true_iff]
  rfl

/-- The compare event of a tick, at which the due time may have come. -/
theorem compareEvent_reachInv {s : State} (hfires : s.env.timerFires = true) (hinv : ReachInv s) :
    ReachInv (compareEvent (advanceClock s)) := by
  obtain ⟨hl, hreach⟩ := hinv
  obtain ⟨-, -, hparams, hnow, -, -⟩ := compareEvent_frame (advanceClock s)
  refine ⟨hparams ▸ hl, ?_⟩
  obtain ⟨hT, -⟩ := hl
  have hle : s.params.bitPeriod ≤ s.params.reach := by simp [Params.reach]
  rw [TimerWithinReach, hparams, hnow, compareEvent_serial]
  split
  · next hdue =>
    rw [advanceClock_env_timerFires, hfires, Bool.true_and, timerEventDue_advanceClock_iff] at hdue
    obtain ⟨-, hd⟩ := hdue
    obtain ⟨hreload, -⟩ := timerSerial_frame s.params.bitPeriod (nextRxd s) s.serial
    simp only [advanceClock_params, advanceClock_env_rxd, advanceClock_serial, advanceClock_now, hreload]
    omega
  · next hdue =>
    simp only [advanceClock_params, advanceClock_serial, advanceClock_now]
    intro ht
    rw [advanceClock_env_timerFires, hfires, Bool.true_and, timerEventDue_advanceClock_iff, not_and] at hdue
    have hne := hdue ht
    have hahead := hreach ht
    omega

/-- A reception begins with a due time within the reach. -/
theorem deliverEdge_reachInv {s : State} (hinv : ReachInv s) : ReachInv (deliverEdge s) := by
  obtain ⟨-, -, hparams, hnow, -⟩ := deliverEdge_frame s
  by_cases hdue : edgeEventDue s = true
  · obtain ⟨hl, -⟩ := hinv
    have ⟨_, hhalf, _⟩ := hl
    exact reachInv_of_armed (by rwa [hparams]) (by rw [deliverEdge_of_due hdue, hnow]) hhalf
      (by rw [hparams]; simp [Params.reach])
  · have hserial : (deliverEdge s).serial = s.serial := by rw [deliverEdge_serial, if_neg hdue]
    exact hinv.of_eq hparams hnow (by rw [hserial]) (by rw [hserial])

theorem tick_reachInv {s : State} (hfires : s.env.timerFires = true) (hinv : ReachInv s) : ReachInv (tick s) :=
  deliverEdge_reachInv (compareEvent_reachInv hfires hinv)

/-- With a timer that fires, every step keeps the reach. -/
theorem step_reachInv {s t : State} (hkeeps : HostKeeps s) (h : step s = .next t) (hfires : s.env.timerFires = true)
    (hinv : ReachInv s) : ReachInv t := by
  rcases step_cases h with ⟨n, -, rfl⟩ | ⟨-, m, ms, -, hrun⟩ | ⟨-, -, -, -, n, rfl⟩ | ⟨-, -, i, rest, n, hi, hexec⟩
  · exact tick_reachInv (s := { s with main.stall := n }) hfires hinv
  · exact runMicros_keeps ReachInv _ (fun _ _ h => h) (fun _ _ _ _ h hab => microStep_reachInv h hab) hinv hrun
  · exact tick_reachInv (s := { s with main.hostTurns := n }) hfires hinv
  · exact exec_reachInv (s := { s with main.script := rest, main.hostTurns := n }) (hkeeps i hi) hinv hexec

/-- Settles O55: every step keeps the stage of the arming lines, in the reference time base it ends outside an arming,
and every arming and reload of the timer is within reach. -/
theorem stepKeepsSerialInvariants : Obligations.StepKeepsSerialInvariants := by
  intro s t hkeeps h
  refine ⟨fun hord he => ?_, fun hord hp ho => ?_, fun hl hfires hreach => ?_⟩
  · have hord' := step_serialOrder hkeeps h hord he
    exact ⟨hord', hord'.serialInv⟩
  · obtain ⟨hp', ho'⟩ := step_outsideArming hkeeps h hord hp ho
    exact ⟨hp', ho', (step_serialOrder hkeeps h hord (.inl ho)).serialInv ho'⟩
  · exact (step_reachInv hkeeps h hfires ⟨hl, hreach⟩).2

end Sys2Proof.Machine

/-! The statements on the byte form of a call (30_encoding section 3), on reset (10_state section 8), and on how
operations and steps stop (60_exceptions). -/

namespace Sys2Proof.Codec

open Sys2Proof

/-! ### The operands -/

theorem decodeBit_encodeBit (b : Bit) (rest : List Byte) : decodeBit (encodeBit b :: rest) = .ok (b, rest) := by
  cases b <;> rfl

theorem decodeMode_encodeMode (m : RadioMode) (rest : List Byte) :
    decodeMode (encodeMode m :: rest) = .ok (m, rest) := by
  cases m <;> rfl

/-- Ticks are at least 1 (40 R112), and their predecessor is what the digits write. -/
theorem decodeTicks_digits {d : Nat} (hd : 1 ≤ d) (rest : List Byte) :
    decodeTicks (encodeList (digits (d - 1) (d - 1)) ++ rest) = .ok (d, rest) := by
  simp only [decodeTicks, decodeList_encodeList, undigits_digits _ _ le_rfl, Nat.sub_add_cancel hd]

/-- An array of either form, of its own length or marked. -/
theorem decodeFixed_encodeFixed (n : Nat) (bs rest : List Byte) :
    decodeFixed n (encodeFixed n bs ++ rest) = .ok (bs, rest) := by
  unfold encodeFixed
  split
  · next hlen => simp [decodeFixed, ← hlen]
  · simp [decodeFixed, decodeList_encodeList]

end Sys2Proof.Codec

namespace Sys2Proof.Machine

open Sys2Proof

/-! ### The calls -/

theorem ordinal_lt (i : Instr) : ordinal i < 18 := by cases i <;> simp [ordinal]

/-- The first byte of a call is read back as its ordinal (opcode_table.json, mask 0x1f). -/
theorem decode_key (w : Nat) (i : Instr) (r : List Byte) :
    decode w (BitVec.ofNat 8 (ordinal i) :: r) = decodeOperands w (ordinal i) r := by
  have hlt := ordinal_lt i
  rw [decode, BitVec.toNat_ofNat, Nat.mod_eq_of_lt (show ordinal i < 2 ^ 8 by omega), Nat.mod_eq_of_lt (by omega)]

theorem decodeOperands_encodeOperands {p : Params} {i : Instr} (hi : i.WellFormed p = true) (rest : List Byte) :
    decodeOperands p.payloadWidth (ordinal i) (encodeOperands p.payloadWidth i ++ rest) = .ok (i, rest) := by
  cases i with
  | timerArm d =>
    exact congrArg (Codec.withOperand .timerArm) (Codec.decodeTicks_digits (of_decide_eq_true hi) rest)
  | writeLine text => exact congrArg (Codec.withOperand .writeLine) (Codec.decodeList_encodeList text rest)
  | clockOutBit b => exact congrArg (Codec.withOperand .clockOutBit) (Codec.decodeBit_encodeBit b rest)
  | configure word => exact congrArg (Codec.withOperand .configure) (Codec.decodeFixed_encodeFixed _ word rest)
  | setMode m => exact congrArg (Codec.withOperand .setMode) (Codec.decodeMode_encodeMode m rest)
  | transmitPacket b => exact congrArg (Codec.withOperand .transmitPacket) (Codec.decodeFixed_encodeFixed _ b rest)
  | _ => rfl

/-- Settles O1: the ordinal is read back, and then each kind of operand. -/
theorem decodeOfEncodeIsIdentity : Obligations.DecodeOfEncodeIsIdentity := by
  intro p i rest hi
  rw [encode, List.cons_append, decode_key, decodeOperands_encodeOperands hi]

/-- Settles O2: the six words are decoded. -/
theorem ordinalWordsDecode : Obligations.OrdinalWordsDecode :=
  ⟨rfl, rfl, rfl, rfl, rfl, rfl⟩

/-- The decoder has no arm for an ordinal outside R90's eighteen. -/
theorem decodeOperands_of_ge {n : Nat} (hn : 18 ≤ n) (w : Nat) (r : List Byte) :
    decodeOperands w n r = .error (.noSuchOperation n) := by
  obtain ⟨k, rfl⟩ := Nat.exists_eq_add_of_le' hn
  rfl

/-- Settles O3: the fetch refuses what the decoder does. -/
theorem unlistedOrdinalsRefused : Obligations.UnlistedOrdinalsRefused := by
  intro s op r hop hs hc hscript
  have hdec : decode s.params.payloadWidth (op :: r) = .error (.noSuchOperation (op.toNat % 32)) :=
    decodeOperands_of_ge hop _ r
  refine ⟨hdec, ?_⟩
  rw [step_issues hs hc, issueCall, hscript]
  simp only [fetch, hscript, hdec, decodeRefusal]

/-! ### Reset -/

/-- Settles O5: each row of the table is a field of the reset state. -/
theorem resetHoldsTable : Obligations.ResetHoldsTable := by
  intro p u s
  have hready : Ready s := ⟨rfl, rfl, rfl, rfl⟩
  exact ⟨rfl, rfl, rfl, rfl, rfl, rfl, rfl, rfl, rfl, rfl, rfl, rfl, rfl, rfl, rfl, rfl, rfl, rfl, hready, rfl, rfl,
    rfl⟩

/-- Settles O6: at reset both interrupt sources are disabled, the lines at 0, and no operation is in progress. -/
theorem resetMeetsInvariants : Obligations.ResetMeetsInvariants := by
  intro p u
  have hinv : SerialInv (State.resetWith p u).serial := by simp [SerialInv, State.resetWith]
  have hsettled : Settled (radioShape (State.resetWith p u).radio) := by
    simp [Settled, radioShape, State.resetWith]
  refine ⟨hinv, ⟨.rest, rfl, hinv⟩, hsettled, ?_, rfl, ?_, rfl⟩
  · intro htimer
    cases htimer
  · intro m hm
    cases hm

/-! ### The events and the context -/

theorem deliverEdge_of_not_due {s : State} (h : edgeEventDue s ≠ true) : deliverEdge s = s := if_neg h

/-- Settles O13: the operation is the delivery of its event, which is not due. -/
theorem noEventWithoutItsCondition : Obligations.NoEventWithoutItsCondition := by
  refine fun s => ⟨fun h => ?_, fun h => ?_⟩
  · have hnone : timerEventDue s ≠ true := by rcases h with h | h <;> simp [timerEventDue, h]
    exact congrArg Host.Outcome.next (deliverTimer_of_not_due hnone)
  · have hnone : edgeEventDue s ≠ true := by rcases h with h | h <;> simp [edgeEventDue, h]
    exact congrArg Host.Outcome.next (deliverEdge_of_not_due hnone)

/-- Settles O45: the context check comes before the operand types and the checks of the operation. -/
theorem hostCallFromHandlerFaults : Obligations.HostCallFromHandlerFaults := by
  intro i s hi hc
  rw [exec_host i s hi, hostCall_eq, if_pos hc]

/-! ### How operations and steps stop -/

/-- A check at the entry of a call is one of its checks. -/
theorem entryChecks_subset {i : Instr} {s : State} {c : Bool × Fault} (h : c ∈ entryChecks s i) :
    c ∈ callChecks s i := by
  cases i with
  | initializeLines | configure | setMode | transmitPacket | receivePacket | hasData => exact h
  | _ => simp [entryChecks] at h

/-- The reasons for which an operation faults (60 R231). -/
theorem exec_fault {i : Instr} {s : State} {f : Fault} (h : exec i s = .fault f) :
    (i.isHostOp = true ∧ s.main.context = .interrupt ∧ f = .interruptContextCall) ∨ (true, f) ∈ callChecks s i := by
  obtain ⟨-, hlines, -⟩ := callBody_runsWith i s
  by_cases h1 : i = .timerEvent
  · subst h1; cases h
  by_cases h2 : i = .edgeEvent
  · subst h2; cases h
  cases hi : i.isHostOp with
  | false =>
    rw [exec_primitive i s hi h1 h2] at h
    split at h
    · exact .inr (hlines f h)
    · cases h
  | true =>
    rw [exec_host i s hi, hostCall_eq] at h
    split at h
    · next hc => cases h; exact .inl ⟨rfl, hc, rfl⟩
    · split at h
      · cases h
      · split at h
        · next hf => cases h; exact .inr (entryChecks_subset (firstFault_mem hf))
        · exact .inr (hlines f h)

/-- The only reason for which an operation refuses: an operand outside its type. -/
theorem exec_refused {i : Instr} {s : State} {r : Refusal} (h : exec i s = .refused r) :
    r = .badOperand ∧ i.WellFormed s.params = false := by
  by_cases h1 : i = .timerEvent
  · subst h1; cases h
  by_cases h2 : i = .edgeEvent
  · subst h2; cases h
  cases hi : i.isHostOp with
  | false =>
    rw [exec_primitive i s hi h1 h2] at h
    split at h
    · exact absurd h (runMicros_not_refused r)
    · next hw => cases h; exact ⟨rfl, by simpa using hw⟩
  | true =>
    rw [exec_host i s hi, hostCall_eq] at h
    split at h
    · cases h
    · split at h
      · next hw => cases h; exact ⟨rfl, hw⟩
      · split at h
        · cases h
        · exact absurd h (runMicros_not_refused r)

/-- The checks of a call do not look at the host's place in its script. -/
theorem callChecks_setMain (s : State) (c : MainCtx) (i : Instr) :
    callChecks { s with main := c } i = callChecks s i := by
  cases i <;> rfl

/-- The reasons for which a step faults: the call it issues, or a check of the operation in progress. -/
theorem step_fault {s : State} {f : Fault} (h : step s = .fault f) :
    (∃ i, nextCall s = some i
        ∧ ((i.isHostOp = true ∧ s.main.context = .interrupt ∧ f = .interruptContextCall)
          ∨ (true, f) ∈ callChecks s i))
      ∨ ∃ (before : List Micro) (c : SerialCheck) (after : List Micro) (u : State),
          s.main.cont = before ++ .check c f :: after ∧ runMicros [] before s = .next u
            ∧ u.main.cont = [] ∧ u.main.stall = 0 ∧ serialCheckHolds c u = true := by
  obtain ⟨hs, ⟨m, ms, hc, hrun⟩ | ⟨-, i, rest, n, hi, hexec⟩ | ⟨-, -, e, -, he⟩⟩ := step_stops h (by simp)
  · rw [hc]
    exact .inr (runMicros_fault hs hrun)
  · have hwhy := exec_fault hexec
    rw [callChecks_setMain] at hwhy
    exact .inl ⟨i, hi, hwhy⟩
  · cases he

/-- The reasons for which a step refuses: an operand outside its type, or bytes that are no call. -/
theorem step_refused {s : State} {r : Refusal} (h : step s = .refused r) :
    (∃ i, nextCall s = some i ∧ r = .badOperand ∧ i.WellFormed s.params = false)
      ∨ (s.main.stall = 0 ∧ s.main.cont = [] ∧ s.main.script ≠ []
          ∧ ∃ e, fetch s = .error e ∧ r = decodeRefusal e) := by
  obtain ⟨hs, ⟨m, ms, -, hrun⟩ | ⟨-, i, rest, n, hi, hexec⟩ | ⟨hc, hscript, e, hf, he⟩⟩ := step_stops h (by simp)
  · exact absurd hrun (runMicros_not_refused r)
  · exact .inl ⟨i, hi, (exec_refused hexec :)⟩
  · cases he
    exact .inr ⟨hs, hc, hscript, e, hf, rfl⟩

/-- Settles O46: a stop comes from the checks of a call, from a check among the lines, or from the fetch. -/
theorem stopsOnlyAsListed : Obligations.StopsOnlyAsListed :=
  ⟨fun _ _ => ⟨fun _ => exec_fault, fun _ => exec_refused⟩, fun _ => ⟨fun _ => step_fault, fun _ => step_refused⟩⟩

end Sys2Proof.Machine

/-! The statements on the first lines of the operations: the arming of the two serial operations (41_serial_engine), and
`initializeLines` (42_radio_config_mode). -/

namespace Sys2Proof.Machine

open Sys2Proof

/-! ### The wait of `transmitByte` under a timer that never fires -/

/-- The main context is in the wait of `transmitByte`, with `k` to follow, and nothing can end it: a transmission is on
and the timer never fires (41 R131 line 8; log 31). -/
structure TxWaitHangs (k : List Micro) (s : State) : Prop where
  cont : s.main.cont = .waitTxDone :: k
  stall : s.main.stall ≤ 1
  pace : s.env.pace = []
  busy : s.serial.txBusy = true
  edge : s.serial.edgeEnable = false
  fires : s.env.timerFires = false

/-- A step of the hang is the test that holds the call, or the tick after it. -/
theorem TxWaitHangs.step {k : List Micro} {s : State} (h : TxWaitHangs k s) :
    ∃ t, step s = .next t ∧ t.main.returns = s.main.returns ∧ t.serial = s.serial ∧ TxWaitHangs k t := by
  rcases Nat.le_one_iff_eq_zero_or_eq_one.mp h.stall with hs | hs
  · have hheld := runMicros_txWait_held h.pace h.cont h.busy
    exact ⟨{ s with main.stall := 1 }, (step_continues hs h.cont).trans hheld, rfl, rfl, h.cont, le_rfl, h.pace, h.busy,
      h.edge, h.fires⟩
  · obtain ⟨hserial, -⟩ := tick_of_no_event (s := { s with main.stall := 0 }) h.edge (.inr h.fires)
    refine ⟨_, step_stalled hs, by rw [tick_main], hserial, ?_⟩
    exact ⟨by rw [tick_main]; exact h.cont, by rw [tick_main]; exact Nat.zero_le 1, by rw [tick_pace]; exact h.pace,
      by rw [hserial]; exact h.busy, by rw [hserial]; exact h.edge, by rw [tick_timerFires]; exact h.fires⟩

theorem TxWaitHangs.steps {k : List Micro} {s : State} (h : TxWaitHangs k s) (n : Nat) :
    ∃ u, steps n s = .next u ∧ u.main.cont = .waitTxDone :: k ∧ u.main.returns = s.main.returns
      ∧ u.serial = s.serial := by
  induction n generalizing s with
  | zero => exact ⟨s, rfl, h.cont, rfl, rfl⟩
  | succ n ih =>
    obtain ⟨t, ht, hreturns, hserial, hhangs⟩ := h.step
    obtain ⟨u, hu, hcont, hureturns, huserial⟩ := ih hhangs
    rw [Nat.add_comm n 1, steps_add n ((steps_one s).trans ht)]
    exact ⟨u, hu, hcont, hureturns.trans hreturns, huserial.trans hserial⟩

/-- Settles O16: the checks pass, the lines arm the frame, and only the timer event could end the wait. -/
theorem transmitByteArmsAndWaits : Obligations.TransmitByteArmsAndWaits := by
  rintro v s ⟨hctx, hcont, hs, hp⟩ hb ht he
  have hf : firstFault (transmitByteChecks s) = none := by simp [firstFault_transmitByteChecks, hb, ht, he]
  have hrun := runMicros_transmit v [] [.ret .done] hs hp
  rw [hf] at hrun
  exact ⟨_, (exec_host_runs (.transmitByte v) rfl hctx hcont rfl rfl).trans hrun, rfl,
    fun hfires => TxWaitHangs.steps ⟨rfl, le_rfl, hp, rfl, he, hfires⟩⟩

/-! ### `armReceive` -/

/-- Settles O19: the checks pass, and the lines arm the edge detector. -/
theorem armReceiveArms : Obligations.ArmReceiveArms := by
  intro s hc hs hp hb ht
  have hf : firstFault (armReceiveChecks s) = none := by simp [firstFault_armReceiveChecks, hb, ht]
  rw [execArmReceive_lines hc, runMicros_arm _ _ hs hp, hf]
  simp only [runMicros_ret_eq]
  rw [yield_of_pace_nil (by simpa)]
  rfl

/-- Settles O20: an armed engine has already what the lines of `armReceive` write. -/
theorem rearmIsIdempotent : Obligations.RearmIsIdempotent := by
  rintro s ⟨hone, hbusy, hedge, -, -, -⟩ hc hs hp he hfell
  obtain ⟨hm, hi, hsync⟩ := hedge he
  have hb : s.serial.txBusy = false := by simpa [he] using hbusy
  have ht : s.serial.timerEnable = false := by simpa [he] using hone
  have hserial : { s.serial with mode := .rx, bitIndex := 0, rxSync := false, edgeEnable := true } = s.serial := by
    rw [← hm, ← hi, ← hsync, ← he]
  have henv : { s.env with rxdFell := false } = s.env := by rw [← hfell]
  rw [armReceiveArms s hc hs hp hb ht]
  congr 1
  exact state_eq rfl rfl hserial rfl rfl henv rfl

/-! ### `initializeLines` -/

theorem runMicros_setLineDirSet {k ms : List Micro} {s : State} (hs : s.main.stall = 0) (hp : s.env.pace = []) :
    runMicros k (.setLineDirSet :: ms) s = runMicros k ms { s with radio.lineDirSet := true } := by
  rw [runMicros_cons rfl (by simp [yield_of_pace_nil, hs, hp]), yield_of_pace_nil (by simpa)]

/-- Settles O30: the five directions and the flag, line by line. -/
theorem initializeLinesSetsDirections : Obligations.InitializeLinesSetsDirections := by
  rintro s ⟨hctx, hcont, hs, hp⟩ hg
  have hf : firstFault (initializeLinesChecks s) = none := by simp [firstFault_initializeLinesChecks, hg]
  have hexec : exec .initializeLines s = runMicros [] (.dir .ce .output :: .dir .cs .output :: .dir .clk .output ::
      .dir .dr .input :: .dir .data .output :: .setLineDirSet :: [.ret .done]) s :=
    exec_host_runs .initializeLines rfl hctx hcont rfl hf
  rw [runMicros_dir hs hp, runMicros_dir (by simpa) (by simpa), runMicros_dir (by simpa) (by simpa),
    runMicros_dir (by simpa) (by simpa), runMicros_dir (by simpa) (by simpa),
    runMicros_setLineDirSet (by simpa) (by simpa), runMicros_done (by simpa)] at hexec
  refine ⟨_, hexec, ?_, by simp [pinLevel], by simp [pinLevel], by simp [pinLevel], by simp [pinLevel]⟩
  apply state_eq <;> simp [returnValue, stampAll, hcont]

/-- Settles O31: the second call finds the same directions and writes them again. -/
theorem initializeLinesIsIdempotent : Obligations.InitializeLinesIsIdempotent := by
  intro s t hr hg h
  obtain ⟨t', ht', ht, -⟩ := initializeLinesSetsDirections s hr hg
  cases h.symm.trans ht'
  obtain ⟨u, hu, rfl, -⟩ := initializeLinesSetsDirections t (by rw [ht]; exact hr) (by rw [ht]; exact hg)
  refine ⟨_, hu, by rw [ht], rfl, ?_⟩
  simp [newEntries, stampAll, ht]

end Sys2Proof.Machine

/-! The statements on the packets (43_radio_packet_io): the end of the wait of `receivePacket`. -/

namespace Sys2Proof.Machine

open Sys2Proof

/-! ### The end of the wait of `receivePacket` -/

/-- A turn of the wait whose sample finds `DR` active: the sample, and the tick after it (log 11). -/
theorem steps_drActive {k : List Micro} {s : State} (hc : s.main.cont = .waitDrInactive :: k) (hs : s.main.stall = 0)
    (hp : s.env.pace = []) (h : (answerDr s).1 = true) : steps 2 s = .next (tick (sampleDr s).2) := by
  have hheld := (step_continues hs hc).trans (runMicros_drActive hp h)
  rw [steps_add 1 ((steps_one s).trans hheld), steps_one, step_stalled rfl]
  congr 2
  apply state_eq <;> simp [← hc, ← hs]

/-- The sample that finds `DR` inactive ends the call: `CE` rises and the buffer is returned. -/
theorem step_drInactive {s : State} (hc : s.main.cont = [.waitDrInactive, .set .ce true, .retBuffer])
    (hs : s.main.stall = 0) (hp : s.env.pace = []) (h : (answerDr s).1 = false) :
    ∃ u : State, step s = .next u ∧ u.main.cont = [] ∧ u.now = s.now
      ∧ u.main.returns = s.main.returns ++ [.buffer (s.radio.packetBuffer.take s.params.payloadWidth)]
      ∧ u.radio = { s.radio with ce := true }
      ∧ AppendsRadio [.sample .dr false, .set .ce true] s u := by
  rw [step_continues hs hc, runMicros_drInactive hs hp h, runMicros_set (by simpa) (by simpa),
    runMicros_cons rfl (by simpa [yield_of_pace_nil, hp]), yield_of_pace_nil (by simpa)]
  refine ⟨_, rfl, rfl, by simp, by simp, by simp, ?_⟩
  exact appendsRadio_of_trace (by simp [sampleDr_trace, h, stampAll]) (by simp [isRadioEntry])

/-- A turn that finds `DR` active for each active answer, then the end of the call. -/
theorem steps_drDrops (m : Nat) {s : State} {rest : List Bit}
    (hc : s.main.cont = [.waitDrInactive, .set .ce true, .retBuffer]) (hs : s.main.stall = 0) (hp : s.env.pace = [])
    (hdr : s.env.drIn = List.replicate m true ++ false :: rest) :
    ∃ u : State, steps (2 * m + 1) s = .next u ∧ u.main.cont = [] ∧ u.now = s.now + m
      ∧ u.main.returns = s.main.returns ++ [.buffer (s.radio.packetBuffer.take s.params.payloadWidth)]
      ∧ u.radio = { s.radio with ce := true }
      ∧ AppendsRadio (List.replicate m (.sample .dr true) ++ [.sample .dr false, .set .ce true]) s u := by
  induction m generalizing s with
  | zero =>
    rw [show 2 * 0 + 1 = 1 from rfl, steps_one]
    exact step_drInactive hc hs hp (by rw [answerDr_cons hdr])
  | succ m ih =>
    have hanswer := answerDr_cons hdr
    have hturn := steps_drActive hc hs hp (by rw [hanswer])
    obtain ⟨hradio, hmain, hparams, hnow, -⟩ := tick_frame (sampleDr s).2
    rw [sampleDr_radio] at hradio
    rw [sampleDr_main] at hmain
    have hsample : AppendsRadio [.sample .dr true] s (sampleDr s).2 :=
      appendsRadio_of_trace (by rw [sampleDr_trace, hanswer]; rfl) (by simp [isRadioEntry])
    have htrace := hsample.trans (tick_appendsRadio (sampleDr s).2)
    obtain ⟨u, hu, hcont, hunow, hreturns, huradio, hutrace⟩ := ih (s := tick (sampleDr s).2) (by rw [hmain, hc])
      (by rw [hmain, hs]) (by rw [tick_pace, sampleDr_env_pace, hp]) (by rw [tick_drIn]; simp [sampleDr, hanswer])
    rw [show 2 * (m + 1) + 1 = 2 + (2 * m + 1) by omega, steps_add _ hturn]
    refine ⟨u, hu, hcont, ?_, ?_, by rw [huradio, hradio], htrace.trans hutrace⟩
    · rw [hunow, hnow, sampleDr_now]; omega
    · rw [hreturns, hmain, hradio, hparams, sampleDr_params]

/-- Settles O39: by the turns of the wait. -/
theorem receiveWaitEndsWhenDataReadyDrops : Obligations.ReceiveWaitEndsWhenDataReadyDrops := by
  intro m s rest hc hs hp hdr
  obtain ⟨u, hu, hcont, hnow, hreturns, hradio, htrace⟩ := steps_drDrops m hc hs hp hdr
  exact ⟨u, hu, hcont, hnow, hreturns, hradio, htrace.radioEntries_eq⟩

end Sys2Proof.Machine

/-! The statements on the packets (43_radio_packet_io): a payload from one driver to the other through the reference
front-end pair of 95_test_vectors section 4.2 (decision D25). -/

namespace Sys2Proof.Machine

open Sys2Proof

/-! ### The front-end of the transmitter -/

theorem frontEndRun_append (f : FrontEnd) (a b : List Entry) :
    frontEndRun f (a ++ b) = frontEndRun (frontEndRun f a) b := List.foldl_append

/-- With `CE` = 1 and the role Transmit, each cell of a stream is one bit taken from `DATA`. -/
theorem frontEndRun_outEntries {f : FrontEnd} (hrole : f.role = some .transmit) (hce : f.ce = true) (hcs : f.cs = false)
    (hclk : f.clk = false) (cells : List Bit) :
    frontEndRun f (outEntries cells) =
      { f with data := cells.getLastD f.data, txBits := f.txBits ++ cells } := by
  induction cells generalizing f with
  | nil => simp [frontEndRun, outEntries]
  | cons b bs ih =>
    have hcell : frontEndRun f (outEntries [b]) = { f with data := b, txBits := f.txBits ++ [b] } := by
      simp [frontEndRun, outEntries, frontEndReact, frontEndRise, frontEndFall, hrole, hce, hcs, hclk]
    rw [← List.singleton_append, outEntries_append, frontEndRun_append, hcell,
      ih (by exact hrole) (by exact hce) (by exact hcs) (by exact hclk)]
    simp [List.getLast?_cons]

/-- A packet stream hands the bits after the two address bytes to the partner. -/
theorem frontEndRun_packet {f : FrontEnd} (hrole : f.role = some .transmit) (hce : f.ce = false) (hcs : f.cs = false)
    (hclk : f.clk = false) (hbits : f.txBits = []) {cells : List Bit} (hlen : 16 < cells.length) :
    (frontEndRun f ([.set .ce true] ++ outEntries cells ++ [.set .ce false])).sent = f.sent ++ [cells.drop 16] := by
  have hstart : frontEndRun f [.set .ce true] = { f with ce := true } := by simp [frontEndRun, frontEndReact, hce]
  rw [frontEndRun_append, frontEndRun_append, hstart,
    frontEndRun_outEntries (by exact hrole) rfl (by exact hcs) (by exact hclk)]
  simp [frontEndRun, frontEndReact, frontEndSend, hrole, hbits, hlen]

/-- A call of `transmitPacket` that answers found its operand typed and its checks passed. -/
theorem transmitPacket_of_next {buffer : List Byte} {s t : State} (h : exec (.transmitPacket buffer) s = .next t) :
    buffer.length = s.params.payloadWidth ∧ s.radio.lineDirSet = true ∧ s.radio.configured = true
      ∧ s.radio.radioMode = .transmit := by
  obtain ⟨hlen, hchecks, -⟩ := exec_next (by simp) (by simp) h
  obtain ⟨-, hf⟩ := hchecks rfl
  have hpass := firstFault_none_iff.mp hf
  exact ⟨of_decide_eq_true hlen, by simpa [entryChecks, callChecks, packetChecks] using hpass⟩

/-- The entries that a trace which grew by `es` has got. -/
theorem newEntries_of_trace {s t : State} {n : Nat} {es : List Entry} (h : t.trace = s.trace ++ stampAll n es) :
    newEntries s t = es := by
  simp [newEntries, h, stampAll, Function.comp_def]

theorem packetCells_drop (p : Params) (payload : List Byte) : (packetCells p payload).drop 16 = byteCells payload := by
  simp [packetCells, byteCells_cons, msbBits]

theorem packetCells_length (p : Params) (payload : List Byte) :
    (packetCells p payload).length = 16 + 8 * payload.length := by
  rw [packetCells, byteCells_length, List.length_cons, List.length_cons]
  omega

/-- The front-end of a driver that sends a packet hands over its payload. -/
theorem transmitPacket_sent {payload : List Byte} {s t : State} {f : FrontEnd} (hlegal : s.params.Legal) (hr : Ready s)
    (hbuf : s.radio.packetBuffer.length = s.params.payloadWidth) (h : exec (.transmitPacket payload) s = .next t)
    (hrole : f.role = some .transmit) (hce : f.ce = false) (hcs : f.cs = false) (hclk : f.clk = false)
    (hbits : f.txBits = []) : (frontEndRun f (newEntries s t)).sent = f.sent ++ [byteCells payload] := by
  obtain ⟨hlen, hl, hg, hm⟩ := transmitPacket_of_next h
  obtain ⟨-, -, -, -, hwidth⟩ := hlegal
  cases h.symm.trans (transmitPacketSendsAddressAndPayload payload s hr hl hg hm hlen hbuf)
  rw [newEntries_of_trace rfl, frontEndRun_packet hrole hce hcs hclk hbits (by rw [packetCells_length]; omega),
    packetCells_drop]

/-! ### The front-end of the receiver -/

/-- The front-end presents these bits on `DATA`, one a pulse: its driver has taken `CE` to 0 in the role Receive. -/
structure Presents (bits : List Bit) (g : FrontEnd) : Prop where
  role : g.role = some .receive
  ce : g.ce = false
  cs : g.cs = false
  clk : g.clk = false
  rx : g.rx = some bits

theorem frontEndAgrees_append (f : FrontEnd) (a b : List Entry) :
    frontEndAgrees f (a ++ b) = (frontEndAgrees f a && frontEndAgrees (frontEndRun f a) b) := by
  induction a generalizing f with
  | nil => rfl
  | cons e es ih =>
    rw [List.cons_append, frontEndAgrees, frontEndAgrees, ih, Bool.and_assoc]
    rfl

/-- A cell that samples another bit than the one presented does not agree; and the next bit is presented. -/
theorem Presents.cell {b : Bit} {bits : List Bit} {g : FrontEnd} (h : Presents (b :: bits) g) (v : Bit) :
    frontEndAgrees g (inEntries [v]) = decide (v = b)
      ∧ frontEndRun g (inEntries [v]) =
          if bits = [] then { g with rx := none, dr := false } else { g with rx := some bits } := by
  obtain ⟨hrole, hce, hcs, hclk, hrx⟩ := h
  cases bits <;>
    simp [inEntries, frontEndAgrees, frontEndAnswers, frontEndRun, frontEndReact, frontEndRise, frontEndFall, hrole,
      hce, hcs, hclk, hrx]

/-- A stream of as many cells as bits presented agrees where it samples those bits; and after it `DR` is inactive. -/
theorem Presents.stream {bits samples : List Bit} {g : FrontEnd} (h : Presents bits g) (hne : bits ≠ [])
    (hlen : samples.length = bits.length) :
    frontEndAgrees g (inEntries samples) = decide (samples = bits)
      ∧ frontEndRun g (inEntries samples) = { g with rx := none, dr := false } := by
  induction samples generalizing bits g with
  | nil => exact absurd (List.length_eq_zero_iff.mp hlen.symm) hne
  | cons v vs ih =>
    obtain ⟨b, bs, rfl⟩ := List.exists_cons_of_ne_nil hne
    obtain ⟨hagrees, hrun⟩ := h.cell v
    rw [← List.singleton_append, inEntries_append, frontEndAgrees_append, frontEndRun_append, hagrees, hrun]
    by_cases hbs : bs = []
    · obtain rfl : vs = [] := by simpa [hbs] using hlen
      simp [hbs, inEntries, frontEndAgrees, frontEndRun]
    · obtain ⟨hagrees', hrun'⟩ := ih (g := { g with rx := some bs }) ⟨h.role, h.ce, h.cs, h.clk, rfl⟩ hbs
        (by simpa using hlen)
      rw [if_neg hbs, hagrees', hrun']
      simp

/-- The entries of a call of `receivePacket` up to its first test: `v` is the sample of `DR`, and with `DR` inactive
`CE` rises after it (43 R205). -/
def receiveEntries (samples : List Bit) (v : Bit) : List Entry :=
  .set .ce false :: (inEntries samples ++ .sample .dr v :: if v then [] else [.set .ce true])

/-- The front-end to which these bits arrived agrees with a call that samples them and finds `DR` inactive, and with no
other. -/
theorem frontEndAgrees_receiveEntries {bits samples : List Bit} {g : FrontEnd} (hrole : g.role = some .receive)
    (hcs : g.cs = false) (hclk : g.clk = false) (hrx : g.rx = some bits) (hne : bits ≠ [])
    (hlen : samples.length = bits.length) (v : Bit) :
    frontEndAgrees g (receiveEntries samples v) = (decide (samples = bits) && !v)
      ∧ (frontEndRun g (receiveEntries samples v)).dr = false := by
  have hstart : frontEndRun g [.set .ce false] = { g with ce := false } := by
    cases hce : g.ce <;> simp [frontEndRun, frontEndReact, frontEndSend, hrole, hce]
  have hpresents : Presents bits { g with ce := false } := ⟨hrole, rfl, hcs, hclk, hrx⟩
  obtain ⟨hagrees, hrun⟩ := hpresents.stream hne hlen
  rw [receiveEntries, ← List.singleton_append, frontEndAgrees_append, frontEndRun_append, hstart, frontEndAgrees_append,
    frontEndRun_append, hagrees, hrun]
  cases v <;> simp [frontEndAgrees, frontEndAnswers, frontEndRun, frontEndReact]

/-! ### The bytes of a stream -/

theorem assembleByte_msbBits (x : Byte) : assembleByte (msbBits x) = x := by
  refine BitVec.eq_of_getLsbD_eq fun j hj => ?_
  have hbit := assembleByte_bits (l := msbBits x) rfl (7 - j) (by omega)
  rw [show 7 - (7 - j) = j by omega] at hbit
  rw [hbit]
  have : j = 0 ∨ j = 1 ∨ j = 2 ∨ j = 3 ∨ j = 4 ∨ j = 5 ∨ j = 6 ∨ j = 7 := by omega
  rcases this with rfl | rfl | rfl | rfl | rfl | rfl | rfl | rfl <;> rfl

/-- A payload is assembled again from its cells (30 R85, R89). -/
theorem assemblePayload_byteCells (payload : List Byte) :
    assemblePayload payload.length (byteCells payload) = payload := by
  induction payload with
  | nil => rfl
  | cons x xs ih =>
    have hlen : (msbBits x).length = 8 := rfl
    rw [byteCells_cons, List.length_cons, assemblePayload, List.take_left' hlen, List.drop_left' hlen,
      assembleByte_msbBits, ih]

/-- Listed answers are given in order. -/
theorem dataAnswers_of_dataIn {l d : List Bit} {s : State} (h : s.env.dataIn = l ++ d) :
    dataAnswers l.length s = l := by
  induction l generalizing s with
  | nil => rfl
  | cons b bs ih =>
    have hanswer : answerData s = (b, { s with env.dataIn := bs ++ d }) := by simp [answerData, h]
    rw [List.length_cons, dataAnswers, hanswer, ih rfl]

/-! ### The call of the receiver -/

/-- `receivePacket` comes to its wait in one step, with the payload in `PacketBuffer`, whatever the level of `CLK`. -/
theorem execReceivePacket_toWait {s : State} (hr : Ready s) (hl : s.radio.lineDirSet = true)
    (hg : s.radio.configured = true) (hm : s.radio.radioMode = .receive) (hd : s.radio.dataDir = .input)
    (hbuf : s.radio.packetBuffer.length = s.params.payloadWidth) :
    ∃ u : State, exec .receivePacket s = runMicros [] [.waitDrInactive, .set .ce true, .retBuffer] u
      ∧ u.params = s.params ∧ u.now = s.now ∧ u.main.stall = 0 ∧ u.main.returns = s.main.returns ∧ u.env.pace = []
      ∧ (answerDr u).1 = (answerDr s).1
      ∧ u.radio.packetBuffer = assemblePayload s.params.payloadWidth (dataAnswers (8 * s.params.payloadWidth) s)
      ∧ u.trace = s.trace ++ stampAll s.now
          (.set .ce false :: inEntries (dataAnswers (8 * s.params.payloadWidth) s)) := by
  obtain ⟨hctx, hcont, hs, hp⟩ := hr
  have hf : firstFault (packetChecks .receive s) = none := by simp [firstFault_packetChecks, hl, hg, hm]
  have hexec : exec .receivePacket s = runMicros [] (.set .ce false ::
      ((List.range' 0 s.params.payloadWidth).flatMap (fun i => clockInByte ++ [.bufferTake i])
        ++ [.waitDrInactive, .set .ce true, .retBuffer])) s := by
    rw [exec_host_runs .receivePacket rfl hctx hcont rfl hf]
    simp [callBody, receivePacketLines, List.range_eq_range']
  obtain ⟨b, x, hrun⟩ := runMicros_payload (k := []) (ms := [.waitDrInactive, .set .ce true, .retBuffer])
    s.params.payloadWidth 0 (s := setLine .ce false s) (by simpa) (by simpa) (by simpa) (by simp [hbuf])
  obtain ⟨hdata, henv⟩ := answers_of_env (8 * s.params.payloadWidth) (setLine_env .ce false s)
  rw [hdata, henv] at hrun
  refine ⟨_, hexec.trans ((runMicros_set hs hp .ce false).trans hrun), by simp, by simp, by simpa, by simp,
    by simp [afterAnswers_env, hp], ?_, by simp, by simp [stampAll]⟩
  exact answerDr_of_env (by simp [afterAnswers_env]) (by simp [afterAnswers_env])

/-- A call of `receivePacket` up to its first test: what it appends to the line trace, and with `DR` inactive what it
returns. -/
theorem execReceivePacket_firstTest {s : State} (hr : Ready s) (hl : s.radio.lineDirSet = true)
    (hg : s.radio.configured = true) (hm : s.radio.radioMode = .receive) (hd : s.radio.dataDir = .input)
    (hbuf : s.radio.packetBuffer.length = s.params.payloadWidth) :
    ∃ q : State, exec .receivePacket s = .next q
      ∧ newEntries s q = receiveEntries (dataAnswers (8 * s.params.payloadWidth) s) (answerDr s).1
      ∧ ((answerDr s).1 = false → q.main.returns = s.main.returns ++
          [.buffer (assemblePayload s.params.payloadWidth (dataAnswers (8 * s.params.payloadWidth) s))]) := by
  obtain ⟨u, hexec, hparams, hnow, hs, hreturns, hp, hanswer, hbuffer, htrace⟩ :=
    execReceivePacket_toWait hr hl hg hm hd hbuf
  rw [← hanswer, hexec]
  cases hdr : (answerDr u).1 with
  | true =>
    refine ⟨_, runMicros_drActive hp hdr, newEntries_of_trace (n := s.now) ?_, by simp⟩
    simp [sampleDr_trace, htrace, hnow, hdr, stampAll, receiveEntries]
  | false =>
    rw [runMicros_drInactive hs hp hdr, runMicros_set (by simpa) (by simpa),
      runMicros_cons rfl (by simpa [yield_of_pace_nil, hp]), yield_of_pace_nil (by simpa)]
    refine ⟨_, rfl, newEntries_of_trace (n := s.now) ?_, fun _ => ?_⟩
    · simp [sampleDr_trace, htrace, hnow, hdr, stampAll, receiveEntries]
    · simp [hreturns, hbuffer, hparams, assemblePayload_length, List.take_of_length_le]

/-- Settles O41: the transmitter's front-end hands over the payload, and the receiver's agrees with the call that
samples it and finds `DR` inactive. -/
theorem packetLoopBackThroughReferencePair : Obligations.PacketLoopBackThroughReferencePair := by
  intro payload s t r f g hlegal hr hbuf hexec hfrole hfce hfcs hfclk hfbits hwidth hrr hl hg hm hd hrbuf hrole hce hcs
    hclk hrx arrived
  obtain ⟨hlen, -⟩ := transmitPacket_of_next hexec
  have harrived : arrived = { g with rx := some (byteCells payload), dr := true } := by
    simp [arrived, frontEndArrive, hrole, hce, hrx]
  have hcells : (byteCells payload).length = 8 * r.params.payloadWidth := by rw [byteCells_length, hlen, hwidth]
  have hne : byteCells payload ≠ [] := by
    obtain ⟨-, -, -, -, hpos⟩ := hlegal
    exact List.ne_nil_of_length_pos (by omega)
  obtain ⟨q, hq, hentries, hreturns⟩ := execReceivePacket_firstTest hrr hl hg hm hd hrbuf
  obtain ⟨hagrees, hdr⟩ := frontEndAgrees_receiveEntries (g := arrived) (bits := byteCells payload)
    (samples := dataAnswers (8 * r.params.payloadWidth) r) (by rw [harrived]; exact hrole)
    (by rw [harrived]; exact hcs) (by rw [harrived]; exact hclk) (by rw [harrived]) hne
    (by rw [dataAnswers_length, hcells]) (answerDr r).1
  rw [← hentries] at hagrees hdr
  refine ⟨transmitPacket_sent hlegal hr hbuf hexec hfrole hfce hfcs hfclk hfbits, by rw [harrived], ?_, ?_⟩
  · intro q' hq' hagrees'
    cases hq.symm.trans hq'
    rw [hagrees, Bool.and_eq_true, decide_eq_true_iff, Bool.not_eq_true'] at hagrees'
    obtain ⟨hsamples, hinactive⟩ := hagrees'
    refine ⟨?_, hdr⟩
    rw [hreturns hinactive, hsamples, hwidth, ← hlen, assemblePayload_byteCells]
  · intro d e hdata hdrIn
    have hsamples := dataAnswers_of_dataIn hdata
    rw [hcells] at hsamples
    exact ⟨q, hq, by rw [hagrees, hsamples, answerDr_cons hdrIn]; simp⟩

end Sys2Proof.Machine
